-- ==== Sys2Proof/Word.lean ====
section
/-! DEFINITION. The word types of the block: bytes of the two spaces, 16-bit stream units (R81), 32-bit registers (R21, R25, R28). -/

namespace Sys2Proof

/-- A byte of IN or OUT (R60: a byte is 8 bits). -/
abbrev Byte := BitVec 8

/-- One 16-bit unit of the stream (R81). -/
abbrev StreamUnit := BitVec 16

/-- A 32-bit register: the sizes (R21, R22), the coder states (R25), the cursors (R28, R30), a distance (R38). -/
abbrev Word := BitVec 32

end Sys2Proof
end

