-- ==== Sys2Proof/Config.lean ====
section
/-! DEFINITION. What is fixed for one machine and is no state (R44): the value sets of the parameters of R7, the three model
classes of R34, the record of the parameters that every operation takes as an argument, and the free values the spec leaves open.
The parameters' defaults and the constants of R5 stand in Sys2Proof/Machine/Params.lean, where a later repair can mend them. -/

namespace Sys2Proof

/-- The values of the parameter `BYTE_ORDER` (R7, R63). -/
inductive ByteOrder where
  | little
  | big
deriving DecidableEq, Repr

/-- The values of the parameter `QUANTUM_BOUNDARY` (R7, R181). -/
inductive QuantumBoundary where
  | relative
  | aligned
deriving DecidableEq, Repr

/-- The values of the parameter `TRAILING_INPUT` (R7, R117). -/
inductive TrailingInput where
  | ignore
  | fail
deriving DecidableEq, Repr

/-- The three classes of adaptive model (R34). -/
inductive ModelClass where
  | literal
  | offsetLow
  | offsetBitLength
deriving DecidableEq, Repr

/-- The parameters of R7, one field each, which the machine takes as an argument. Some are functions, so this is no plain data; it
is configuration and no part of the state (R44). -/
structure Parameters where
  /-- `BYTE_ORDER` (R63, D3). -/
  byteOrder : ByteOrder
  /-- `MAGIC_OFFSET`: a byte offset into IN (R114, D4). -/
  magicOffset : Word
  /-- `INIT_CDF_LIT`, `INIT_CDF_OFFLOW` and `INIT_CDF_OBL`: 301, 41 and 22 integers (R131 to R133, D5, D6). -/
  initCdf : ModelClass → List Nat
  /-- `HALF` (R145, D7). -/
  half : Int → Int
  /-- `QUANTUM_BOUNDARY` (R181, D8). -/
  quantumBoundary : QuantumBoundary
  /-- `DISTMASK_INIT`: a 24-bit permutation (R39, D9). -/
  distMaskInit : BitVec 24
  /-- `MTF_UPDATE`: the mask and the rank of the hit to the new mask (R226, D10). -/
  mtfUpdate : BitVec 24 → Nat → BitVec 24
  /-- `MISS_INSERT`: the mask, the cached distances and the new one to the new cached distances (R232, D11). -/
  missInsert : BitVec 24 → Vector Word 8 → Word → Vector Word 8
  /-- `LONG_BITS_COMBINE`: the raw bits and the direct unit to the distance bits (R230, D12). -/
  longBitsCombine : Nat → Nat → Nat
  /-- `LOOKUP_MARGIN`: the entries of a lookup table past the last block (R36, D13). -/
  lookupMargin : Nat
  /-- `TRAILING_INPUT` (R117, D14). -/
  trailingInput : TrailingInput

/-- FREE VALUE. The byte of OUT at an offset that nothing has written since OUT last became unspecified: R72 asks that OUT be
any value after a failure, R46 leaves it to the host before. The first argument counts how often the byte at that offset became
unspecified, the second is the offset.
It has no body, so nothing can be proved of its value (log 4 and 5; safe). -/
opaque Config.freeOutByte : Nat → Nat → Byte

/-- FREE VALUE. The byte of IN at an offset where the host has placed none (R60 gives no value; log 5; safe). -/
opaque Config.unplacedInByte : Nat → Byte

/-- FREE VALUE. An entry of a lookup table past its last block: the model's class and the entry's place in the margin to
what the entry holds. No rule reads one (R36), and there is none at the default margin 0 (log 22; safe). -/
opaque Config.marginEntry : ModelClass → Nat → Nat

/-- FREE VALUE. The lookup entry of a block whose first residue no symbol of the table contains: R147 writes `Sym` there, which R148
defines only for a residue below some bound. R146 excludes such a table in a decode (log 37; safe). -/
opaque Config.unownedBlock : ModelClass → Nat → Nat

/-- FREE VALUE. The code of the failure that `TRAILING_INPUT = fail` raises: R250 lists none for it (log 23; safe). -/
opaque Config.trailingInputCode : Nat

end Sys2Proof
end

