-- ==== Sys2Proof/Syntax.lean ====
section
/-! DEFINITION. The operations of the block, one constructor per row of spec/opcode_table.json (R100), and what the host can do. -/

namespace Sys2Proof

/-- The nine model instances of R34: `LIT[0..3]`, `OFFLOW[0..3]` and the single `OBL`. -/
inductive ModelId where
  | lit (p : Fin 4)
  | offLow (p : Fin 4)
  | obl
deriving DecidableEq, Repr

/-- The class of a model instance (R34). -/
def ModelId.cls : ModelId → ModelClass
  | .lit _ => .literal
  | .offLow _ => .offsetLow
  | .obl => .offsetBitLength

/-- The operations (R100). A symbol-selected operation carries the operand letters of its row's pattern. The three rows of DNEW
(R101) are three constructors (log 30). -/
inductive Instr where
  /-- START, R110. -/
  | start
  /-- MAGIC, R114. -/
  | magic
  /-- QSTART, R180. -/
  | qstart
  /-- QRAW, R182. -/
  | qraw
  /-- QHDR, R186. -/
  | qhdr
  /-- FIRSTLIT, R190. -/
  | firstlit
  /-- QEND, R194. -/
  | qend
  /-- LIT, R212: literal symbol `0dddddddd`, the symbol itself is the delta. -/
  | lit (delta : BitVec 8)
  /-- MATCHS, R216: literal symbol `1000lllll`. -/
  | matchs (code : BitVec 5)
  /-- MATCHX, R218: literal symbol `10010nnnn`, the code in 0..11. -/
  | matchx (code : BitVec 4)
  /-- DCACHE, R225: OffsetLow symbol `000rrr`. -/
  | dcache (rank : BitVec 3)
  /-- DNEW, R230, first row: OffsetLow symbol `001sss` (8..15). -/
  | dnewLow (code : BitVec 3)
  /-- DNEW, R230, second row: OffsetLow symbol `01ssss` (16..31). -/
  | dnewMid (code : BitVec 4)
  /-- DNEW, R230, third row: OffsetLow symbol `100sss` (32..39). -/
  | dnewHigh (code : BitVec 3)
  /-- NBITS, R229 (no operands: every OBL symbol is NBITS). -/
  | nbits
  /-- COPY, R235, with the length and the distance of the match. -/
  | copy (copyLength matchDist : Word)
  /-- DECODESYM, R140, on a model. -/
  | decodesym (m : ModelId)
  /-- REBUILD, R144, of a model, with the symbol just decoded (at most 299, 9 bits). -/
  | rebuild (m : ModelId) (sym : BitVec 9)
  /-- RENORM, R163. -/
  | renorm
  /-- RAWBITS, R166, of `k` bits, `0 <= k <= 15`. -/
  | rawbits (k : BitVec 4)
  /-- READ16, R161. -/
  | read16
deriving DecidableEq, Repr

/-- The four registers the host sees (R21 to R24). -/
inductive HostReg where
  | compSize
  | decompSize
  | ctrl
  | status
deriving DecidableEq, Repr

/-- One thing the host does, or lets happen (log 7). Everything the outside world can do to the block is here: register and
buffer accesses (R21 to R24, R74), hardware reset (R280), and letting the engine move. -/
inductive HostEvent where
  /-- The host writes a register (R21 to R24). -/
  | writeReg (r : HostReg) (v : Word)
  /-- The host reads a register (R21 to R24). -/
  | readReg (r : HostReg)
  /-- The host places a byte of the compressed stream (R285 step 2). -/
  | writeIn (offset : Word) (b : Byte)
  /-- The host reads a byte of IN (R74). -/
  | readIn (offset : Word)
  /-- The host writes a byte of OUT (R74). -/
  | writeOut (offset : Word) (b : Byte)
  /-- The host reads a byte of OUT (R285 step 7). -/
  | readOut (offset : Word)
  /-- Hardware reset (R280). -/
  | hwReset
  /-- The host does nothing while the engine takes one step. -/
  | engine
  /-- The host waits until STATUS is not BUSY (R285 steps 1 and 6). -/
  | await
deriving DecidableEq, Repr

end Sys2Proof
end

