-- ==== Sys2Proof/WellFormed.lean ====
section
/-! DEFINITION. Which operations are well formed: the operand ranges that the constructors' types do not already fix. -/

namespace Sys2Proof

/-- The number of symbols of a class (R5 `N_LIT`, `N_OFFLOW`, `N_OBL`; R34). -/
def ModelClass.alphabet : ModelClass → Nat
  | .literal => 300
  | .offsetLow => 40
  | .offsetBitLength => 21

/-- MATCHX has a code of 0..11 (R87: symbols 288..299; R101: 300..303 are outside the alphabet); COPY has a length of 2..8223
(R91, R235); REBUILD names a symbol of its model's alphabet (R144). Every other operand is ranged by its type. -/
def Instr.wf : Instr → Bool
  | .start => true
  | .magic => true
  | .qstart => true
  | .qraw => true
  | .qhdr => true
  | .firstlit => true
  | .qend => true
  | .lit _ => true
  | .matchs _ => true
  | .matchx code => decide (code.toNat ≤ 11)
  | .dcache _ => true
  | .dnewLow _ => true
  | .dnewMid _ => true
  | .dnewHigh _ => true
  | .nbits => true
  | .copy len _ => decide (2 ≤ len.toNat) && decide (len.toNat ≤ 8223)
  | .decodesym _ => true
  | .rebuild m sym => decide (sym.toNat < m.cls.alphabet)
  | .renorm => true
  | .rawbits _ => true
  | .read16 => true

end Sys2Proof
end

