-- ==== Sys2Proof/Decode.lean ====
section
/-! DEFINITION. The decoder and the encoder. The formats of R82 to R89 and R101: which one applies is fixed by the position in
the operation grammar (R86, R99), never by the bits themselves, so the decoder takes the format beside the word. A word of a
symbol format is the decoded symbol's index (R86). -/

namespace Sys2Proof

/-- What a word is a word of (R101, and the host command of R23). -/
inductive Format where
  /-- A value written to CTRL (R23). -/
  | hostCmd
  /-- The 16-bit magic unit (R82). -/
  | magic16
  /-- The 16-bit marker at a quantum boundary, which selects QRAW or QCODED (R83, R84). -/
  | marker
  /-- An index of the literal alphabet, 9 bits (R87). -/
  | litSym
  /-- An index of the OffsetLow alphabet, 6 bits (R88). -/
  | offSym
  /-- An index of the OffsetBitLength alphabet, 5 bits (R89). -/
  | oblSym
deriving DecidableEq, Repr

/-- Why a word is no operation. -/
inductive Reject where
  /-- A write of 0 to CTRL does nothing (R23). -/
  | noCommand
  /-- A reserved bit of CTRL is set (R23). -/
  | reservedCtrlBit
  /-- The magic unit is not 0x75B1 (R82). -/
  | notMagic
  /-- 300 or more in the literal alphabet (R87, R95). -/
  | outsideLiteralAlphabet
  /-- 40 or more in the OffsetLow alphabet (R88, R95). -/
  | outsideOffsetLowAlphabet
  /-- 21 or more in the OffsetBitLength alphabet (R89, R95). -/
  | outsideBitLengthAlphabet
deriving DecidableEq, Repr

/-- The operation a word selects (R23, R82 to R84, R87 to R89); total on every number (R95). -/
def decode (f : Format) (w : Nat) : Except Reject Instr :=
  match f with
  | .hostCmd =>
    if w = 0 then .error .noCommand else if w = 1 then .ok .start else .error .reservedCtrlBit
  | .magic16 => if w = 0x75B1 then .ok .magic else .error .notMagic
  | .marker => if w = 0 then .ok .qraw else .ok .qhdr
  | .litSym =>
    if w < 256 then .ok (.lit (BitVec.ofNat 8 w))
    else if w < 288 then .ok (.matchs (BitVec.ofNat 5 (w - 256)))
    else if w < 300 then .ok (.matchx (BitVec.ofNat 4 (w - 288)))
    else .error .outsideLiteralAlphabet
  | .offSym =>
    if w < 8 then .ok (.dcache (BitVec.ofNat 3 w))
    else if w < 16 then .ok (.dnewLow (BitVec.ofNat 3 (w - 8)))
    else if w < 32 then .ok (.dnewMid (BitVec.ofNat 4 (w - 16)))
    else if w < 40 then .ok (.dnewHigh (BitVec.ofNat 3 (w - 32)))
    else .error .outsideOffsetLowAlphabet
  | .oblSym => if w < 21 then .ok .nbits else .error .outsideBitLengthAlphabet

/-- A word that selects the operation, for every operation that a word selects. QHDR and NBITS are selected by many words (any
nonzero marker, any OBL symbol) and carry no operand: their least word stands for them. The other rows have no word (R101:
formats NONE, RAWBITS8 and INTERNAL). -/
def encode : Instr → Option (Format × Nat)
  | .start => some (.hostCmd, 1)
  | .magic => some (.magic16, 0x75B1)
  | .qstart => none
  | .qraw => some (.marker, 0)
  | .qhdr => some (.marker, 1)
  | .firstlit => none
  | .qend => none
  | .lit delta => some (.litSym, delta.toNat)
  | .matchs code => some (.litSym, 0x100 + code.toNat)
  | .matchx code => some (.litSym, 0x120 + code.toNat)
  | .dcache rank => some (.offSym, rank.toNat)
  | .dnewLow code => some (.offSym, 0x08 + code.toNat)
  | .dnewMid code => some (.offSym, 0x10 + code.toNat)
  | .dnewHigh code => some (.offSym, 0x20 + code.toNat)
  | .nbits => some (.oblSym, 0)
  | .copy _ _ => none
  | .decodesym _ => none
  | .rebuild _ _ => none
  | .renorm => none
  | .rawbits _ => none
  | .read16 => none

/-- The format that stands behind a word of spec/opcode_table.json. The table's words do not say their format (R86: the position
in the grammar does), so the width of the row stands in for it (log 11, DESIGN CHOICE): up to 8 bits the OffsetLow symbols; 16
bits the magic, the raw marker 0x0000, or a literal symbol; 24 bits the OBL symbols; wider, the OffsetLow row whose fields the
table's reader numbered up to bit 31. A row with no bits has no word. -/
def tableFormat (nbits w : Nat) : Option Format :=
  if nbits = 0 then none
  else if nbits ≤ 8 then some .offSym
  else if nbits ≤ 16 then
    if w = 0x75B1 then some .magic16 else if w = 0 then some .marker else some .litSym
  else if nbits ≤ 24 then some .oblSym
  else some .offSym

/-- The part of a table word that belongs to the format (R101: 6 bits of OFFSYM, 5 of OBLSYM). -/
def tableSymbol (f : Format) (w : Nat) : Nat :=
  match f with
  | .hostCmd => w
  | .magic16 => w
  | .marker => w
  | .litSym => w
  | .offSym => w % 64
  | .oblSym => w % 32

/-- The operation the decoder reads from a word of the table. -/
def decodeTableWord (nbits w : Nat) : Option Instr :=
  match tableFormat nbits w with
  | none => none
  | some f =>
    match decode f (tableSymbol f w) with
    | .ok i => some i
    | .error _ => none

end Sys2Proof
end

