-- ==== Sys2Proof/Machine/Params.lean ====
section
/-! DEFINITION. The constants of R5 and the parameters of R7 with the values the spec gives them as defaults: `Params.default`.
Every operation takes the parameters as its argument `P`, and the fixed names of the host (`exec`, `step`, `core`) are the machine at
`Params.default`. A claim proved of it holds of the hardware only where the default is what the hardware does (R7); each
parameter's log entry says so. -/

namespace Sys2Proof.Machine

/-- The slot that has a rank: bits `[3r+2 : 3r]` of `distMask` (R39, R225). -/
def rankSlot (mask : BitVec 24) (rank : Nat) : Fin 8 :=
  ⟨(mask >>> (3 * rank)).toNat % 8, Nat.mod_lt _ (by decide)⟩

/-- `MTF_UPDATE`, default (R226; log 19): the slot at rank `k` moves to rank 0, ranks 0..k-1 move one up. -/
def mtfUpdate (mask : BitVec 24) (k : Nat) : BitVec 24 :=
  let slot := (mask >>> (3 * k)) &&& 7#24
  let keep := mask &&& ~~~((1#24 <<< (3 * (k + 1))) - 1#24)
  let low := (mask &&& ((1#24 <<< (3 * k)) - 1#24)) <<< 3
  keep ||| low ||| slot

/-- `MISS_INSERT`, default (R232; log 20): the slot of rank 7 takes the distance of the slot of rank 6, which takes the new one. -/
def missInsert (mask : BitVec 24) (recent : Vector Word 8) (d : Word) : Vector Word 8 :=
  let s7 := rankSlot mask 7
  let s6 := rankSlot mask 6
  (recent.set s7.val (recent[s6.val]'s6.isLt) s7.isLt).set s6.val d s6.isLt

end Sys2Proof.Machine

namespace Sys2Proof.Machine.Params

/-- `MAGIC` (R5, R82). -/
def magic : StreamUnit := 0x75B1#16

/-- `FREQ_INC` (R5, R142). -/
def freqInc : Nat := 31

/-- `ADAPT_INTERVAL` (R5, R143). -/
def adaptInterval : Nat := 1024

/-- `STATE_LOW` (R5): the refill threshold (R163) and the end-of-quantum value (R194). -/
def stateLow : Word := 0x10000#32

/-- `QUANTUM_MAX` (R5, R181). -/
def quantumMax : Nat := 65536

/-- `PROB_TOTAL` (R5): the residue is the state modulo this (`RESIDUE_MASK`), the quotient the state shifted right by `PROB_BITS`. -/
def probTotal : Nat := 32768

/-- The lookup shift of a class (R5 `SHIFT_LIT`, `SHIFT_OFFLOW`, `SHIFT_OBL`). -/
def lookupShift : ModelClass → Nat
  | .literal => 6
  | .offsetLow => 9
  | .offsetBitLength => 9

/-- The entries of the lookup table of a class that the spec gives it and any rule reads: `32768 >> shift` (R36). -/
def lookupSize (c : ModelClass) : Nat := probTotal >>> lookupShift c

/-- The rebuild bias of a class (R5 `BIAS_LIT`, `BIAS_OFFLOW`, `BIAS_OBL`). -/
def bias : ModelClass → Nat
  | .literal => 725
  | .offsetLow => 985
  | .offsetBitLength => 1004

/-- `BYTE_ORDER` (R7, R63; log 13). -/
def byteOrder : ByteOrder := .little

/-- `MAGIC_OFFSET` (R7, R114; log 14). -/
def magicOffset : Word := 0#32

/-- `INIT_CDF_LIT`, `INIT_CDF_OFFLOW`, `INIT_CDF_OBL` (R7, R131 to R133; log 15). -/
def initCdf : ModelClass → List Nat
  | .literal => (List.range 301).map fun i => if i < 264 then 32732 * i / 264 else 32468 + i
  | .offsetLow => (List.range 41).map fun i => 32768 * i / 40
  | .offsetBitLength => (List.range 22).map fun i => 32768 * i / 21

/-- `HALF` (R7, R145): the floor of half a difference; `/` rounds down for a positive divisor (log 16). -/
def half (d : Int) : Int := d / 2

/-- `QUANTUM_BOUNDARY` (R7, R181; log 17). -/
def quantumBoundary : QuantumBoundary := .relative

/-- `DISTMASK_INIT` (R7, R39; log 18). -/
def distMaskInit : BitVec 24 := 0xFAC688#24

/-- `LONG_BITS_COMBINE` (R7, R230; log 21). -/
def longBitsCombine (bits w : Nat) : Nat := (bits <<< 16) ||| w

/-- `LOOKUP_MARGIN` (R7, R36; log 22). -/
def lookupMargin : Nat := 0

/-- `TRAILING_INPUT` (R7, R117; log 23). -/
def trailingInput : TrailingInput := .ignore

/-- The parameters at the spec's defaults (R7). -/
def default : Parameters :=
  { byteOrder := byteOrder
    magicOffset := magicOffset
    initCdf := initCdf
    half := half
    quantumBoundary := quantumBoundary
    distMaskInit := distMaskInit
    mtfUpdate := mtfUpdate
    missInsert := missInsert
    longBitsCombine := longBitsCombine
    lookupMargin := lookupMargin
    trailingInput := trailingInput }

end Sys2Proof.Machine.Params
end

