-- ==== Sys2Proof/Machine/State.lean ====
section
/-! DEFINITION. The state of the block, the reasons a step can stop, and the state after reset (10_state.md). -/

namespace Sys2Proof.Machine

/-- The control state of the engine (R31). -/
inductive Phase where
  | idle
  | magic
  | qstart
  | qfirst
  | qbody
  | doneOk
  | doneFail
deriving DecidableEq, Repr

/-- MODEL'S OWN (log 2): inside a phase of several operations, which operation of R99's grammar comes next. `head` is the phase's
first operation; `raw` and `coded` follow QSTART; `distance` follows MATCHS or MATCHX; `copy` follows DCACHE or DNEW. -/
inductive Stage where
  | head
  | raw
  | coded
  | distance
  | copy
deriving DecidableEq, Repr

/-- The ghost failure cause with the values R250 records (R42). -/
inductive FailCause where
  /-- Code 0: no failure. -/
  | none
  /-- Code 1, START (R255). -/
  | precondition
  /-- Code 2, with `srcCur` at the failed read (R251). -/
  | inputTruncation (srcCur : Word)
  /-- Code 3, magic, with the unit read (R252). -/
  | formatMagic (unit : StreamUnit)
  /-- Code 3, header, with the header value (R252). -/
  | formatHeader (v : Word)
  /-- Code 3, endstate, with the two states (R252). -/
  | formatEndstate (state1 state2 : Word)
  /-- Code 4, with the length and the cursor (R253). -/
  | outputOverflow (copyLength dstCur : Word)
  /-- Code 5, with the distance and the cursor (R254). -/
  | invalidDistance (matchDist dstCur : Word)
  /-- No code in R250: input is left over and `TRAILING_INPUT` is `fail`, with `srcCur` (R117, D14; log 23). -/
  | trailingInput (srcCur : Word)
deriving DecidableEq, Repr

/-- A step ends in a fault only in a state that no run reaches: each of these marks something R69, R95, R140 or R213 says cannot
happen. All are SAFE: the model stops where the spec gives the hardware no behaviour (log 24). -/
inductive Fault where
  /-- An engine read of IN at an offset not below COMP_SIZE (R69); raised by the one operation that reads IN. -/
  | inOutsideSpace (offset : Nat)
  /-- An engine access of OUT at an offset not below DECOMP_SIZE (R69); raised by the operations that read and write OUT. -/
  | outOutsideSpace (offset : Nat)
  /-- An engine read before the start of OUT (R69, R213); raised by LIT and COPY. -/
  | outNegativeOffset (dstCur distance : Nat)
  /-- The search of DecodeSym runs past the end of `cdf` (R140 says it cannot); raised by DecodeSym. -/
  | searchPastTable (residue : Nat)
  /-- A decoded symbol lies outside its alphabet and is no operation (R95 says it cannot); raised by the fetch of a symbol. -/
  | noOperation (symbol : Nat)
deriving DecidableEq, Repr

/-- What the model gives no behaviour. All are SAFE: a run that does this is outside the spec. -/
inductive Refusal where
  /-- An operation whose arm has no meaning yet. -/
  | notModelled (mnemonic : String)
  /-- A host access, or a START, while STATUS is BUSY (R21 to R23, R74, R288); raised by START and by the host's accesses. -/
  | hostAccessWhileBusy
  /-- A host write to CTRL with a reserved bit set (R23); raised by the host's register write. -/
  | reservedCtrlBit
  /-- A host write to the read-only STATUS (R24; log 29); raised by the host's register write. -/
  | statusReadOnly
deriving DecidableEq, Repr

/-- An adaptive model (R33). Naturals, as R35 allows; the class's constants are no state. -/
structure AdaptiveModel where
  frequency : List Nat
  cdf : List Nat
  lookup : List Nat
  adaptCounter : Nat
deriving DecidableEq, Repr

/-- One memory space: (offset, byte) pairs with rising offsets (`Memory.wf`); an unlisted offset holds no byte of the program's
and reads as a free value (log 5). -/
abbrev Memory := List Host.Cell

/-- Everything the spec gives the block (R21 to R42, R60, R61), and the model's own fields at the end. -/
structure State where
  /-- COMP_SIZE, register 0 (R21). -/
  compSize : Word
  /-- DECOMP_SIZE, register 1 (R22). -/
  decompSize : Word
  /-- R31; STATUS is a function of it (R24). -/
  phase : Phase
  /-- Ghost, not readable by the host (R42). -/
  failCause : FailCause
  /-- R25. -/
  state1 : Word
  /-- R25. -/
  state2 : Word
  /-- The program counter (R28). -/
  srcCur : Word
  /-- R28. -/
  srcEnd : Word
  /-- The constant 0 from START on; no rule reads it (R30). -/
  dstStart : Word
  /-- R30. -/
  dstCur : Word
  /-- R30. -/
  dstEnd : Word
  /-- R30. -/
  dstQuantumEnd : Word
  /-- R32. -/
  firstLiteralPending : Bool
  /-- `LIT[0..3]` (R34). -/
  lit : Vector AdaptiveModel 4
  /-- `OFFLOW[0..3]` (R34). -/
  offLow : Vector AdaptiveModel 4
  /-- `OBL` (R34). -/
  obl : AdaptiveModel
  /-- `recent[0..7]` (R38). -/
  recent : Vector Word 8
  /-- R39. -/
  distMask : BitVec 24
  /-- R40. -/
  lastCopyOffset : Word
  /-- IN (R60). -/
  inMem : Memory
  /-- OUT (R61). -/
  outMem : Memory
  /-- MODEL'S OWN (log 2). -/
  stage : Stage
  /-- MODEL'S OWN: the pseudocode's `copyLength` between the operations of one lzstep (log 2). -/
  copyLength : Word
  /-- MODEL'S OWN: the pseudocode's `matchDist` between the operations of one lzstep (log 2). -/
  matchDist : Word
  /-- MODEL'S OWN: the value an internal operation returned when executed on its own (log 9). -/
  ret : Word
  /-- MODEL'S OWN: the sizes OUT had each time it became unspecified; selects the free bytes of OUT (log 4). -/
  outForgotten : List Nat
  /-- MODEL'S OWN: what the host does next, and whose turn it is (log 7). -/
  hostScript : List HostEvent
  /-- MODEL'S OWN: what the host's last read returned (log 7). -/
  hostData : Word
deriving DecidableEq, Repr

/-- A model of the given class after reset: every entry 0 (R46 leaves it unspecified; log 1, DESIGN CHOICE, unsafe). -/
def AdaptiveModel.reset (P : Parameters) (c : ModelClass) : AdaptiveModel :=
  { frequency := List.replicate c.alphabet 0
    cdf := List.replicate (c.alphabet + 1) 0
    lookup := List.replicate (Params.lookupSize c + P.lookupMargin) 0
    adaptCounter := 0 }

/-- The block right after hardware reset (R46, R280): `phase` IDLE and `failCause` none are the spec's; every other register is
unspecified there and holds 0 here (log 1, DESIGN CHOICE, unsafe); nothing is listed in either space. The parameters fix the length
of the lookup tables and nothing else (R36). -/
def State.resetUnder (P : Parameters) : State :=
  { compSize := 0#32
    decompSize := 0#32
    phase := .idle
    failCause := .none
    state1 := 0#32
    state2 := 0#32
    srcCur := 0#32
    srcEnd := 0#32
    dstStart := 0#32
    dstCur := 0#32
    dstEnd := 0#32
    dstQuantumEnd := 0#32
    firstLiteralPending := false
    lit := Vector.replicate 4 (AdaptiveModel.reset P .literal)
    offLow := Vector.replicate 4 (AdaptiveModel.reset P .offsetLow)
    obl := AdaptiveModel.reset P .offsetBitLength
    recent := Vector.replicate 8 0#32
    distMask := 0#24
    lastCopyOffset := 0#32
    inMem := []
    outMem := []
    stage := .head
    copyLength := 0#32
    matchDist := 0#32
    ret := 0#32
    outForgotten := []
    hostScript := []
    hostData := 0#32 }

/-- The block right after hardware reset, the parameters at the spec's defaults. -/
def State.reset : State := State.resetUnder Params.default

end Sys2Proof.Machine
end

