-- ==== Sys2Proof/Machine/Memory.lean ====
section
/-! DEFINITION. The memory spaces as lists in one canonical form (20_memory.md R60, R61). -/

namespace Sys2Proof.Machine

/-- The canonical form: offsets strictly rising. An unlisted offset holds no byte, so no entry can equal it. -/
abbrev Memory.wf (m : Memory) : Prop := m.Pairwise fun x y => x.1 < y.1

/-- The byte listed at an offset. -/
def memRead : Memory → Nat → Option Byte
  | [], _ => none
  | (k, b) :: m, a => if k = a then some b else memRead m a

/-- Store a byte at an offset, keeping the offsets rising. -/
def memWrite : Memory → Nat → Byte → Memory
  | [], a, b => [(a, b)]
  | (k, c) :: m, a, b =>
    if a < k then (a, b) :: (k, c) :: m
    else if a = k then (a, b) :: m
    else (k, c) :: memWrite m a b

/-- Forget every byte below `size`: those offsets hold an unspecified value again (R72). Bytes at or above `size` are outside the
space and stay (R69). -/
def memForget (m : Memory) (size : Nat) : Memory := m.filter fun c => decide (size ≤ c.1)

/-- The byte of IN at an offset: the placed byte, or a free value where the host placed none (log 5). -/
def inValue (s : State) (a : Nat) : Byte := (memRead s.inMem a).getD (Config.unplacedInByte a)

/-- How often the byte of OUT at an offset became unspecified: as often as OUT did with a size above the offset (log 4). -/
def outEpoch (s : State) (a : Nat) : Nat := s.outForgotten.countP fun size => decide (a < size)

/-- The byte of OUT at an offset: the byte written there, or a free value (log 4, log 5). -/
def outValue (s : State) (a : Nat) : Byte := (memRead s.outMem a).getD (Config.freeOutByte (outEpoch s a) a)

end Sys2Proof.Machine
end

