-- ==== Sys2Proof/Machine/Flags.lean ====
section
/-! DEFINITION. The flag of R32 and what the host sees of the engine's state, STATUS (R24). -/

namespace Sys2Proof.Machine

/-- Whether a decode is running (R24: STATUS is BUSY in every phase but IDLE, DONE_OK and DONE_FAIL). -/
def busy (s : State) : Bool :=
  match s.phase with
  | .idle => false
  | .magic => true
  | .qstart => true
  | .qfirst => true
  | .qbody => true
  | .doneOk => false
  | .doneFail => false

/-- The word a read of STATUS returns (R24): `RESULT` in bits 1:0, the other bits 0. -/
def statusWord (s : State) : Word :=
  match s.phase with
  | .idle => 0#32
  | .magic => 1#32
  | .qstart => 1#32
  | .qfirst => 1#32
  | .qbody => 1#32
  | .doneOk => 2#32
  | .doneFail => 3#32

/-- Write `firstLiteralPending` (R32; set by QHDR, cleared by FIRSTLIT). -/
def setFirstLiteral (pending : Bool) (s : State) : State := { s with firstLiteralPending := pending }

/-- The code of a failure cause (R250). It lists none for left-over input: a free value (log 23). -/
def causeCode : FailCause → Nat
  | .none => 0
  | .precondition => 1
  | .inputTruncation _ => 2
  | .formatMagic _ => 3
  | .formatHeader _ => 3
  | .formatEndstate _ _ => 3
  | .outputOverflow _ _ => 4
  | .invalidDistance _ _ => 5
  | .trailingInput _ => Config.trailingInputCode

end Sys2Proof.Machine
end

