-- ==== Sys2Proof/Machine/Operands.lean ====
section
/-! DEFINITION. Operand assembly: 16-bit units, model index, lengths, distances, the quantum size. -/

namespace Sys2Proof.Machine

/-- A 16-bit unit from the byte at the lower offset and the byte after it (R63). -/
def assemble16 (order : ByteOrder) (b0 b1 : Byte) : StreamUnit :=
  match order with
  | .little => (b1.setWidth 16 <<< 8) ||| b0.setWidth 16
  | .big => (b0.setWidth 16 <<< 8) ||| b1.setWidth 16

/-- The model index `p = dstCur and 3` of an lzstep (R152, R210). -/
def modelIndex (dstCur : Word) : Fin 4 := ⟨dstCur.toNat % 4, Nat.mod_lt _ (by decide)⟩

/-- `copyLength` of MATCHS, from the symbol (R91, R216). -/
def shortLength (sym : Nat) : Nat := sym - 254

/-- `nb` of MATCHX, from the symbol (R91, R218). -/
def extendedBits (sym : Nat) : Nat := sym - 287

/-- `copyLength` of MATCHX: the re-formed symbol `extra + (1 << nb) + 286`, less 254 (R91, R218). -/
def extendedLength (nb extra : Nat) : Nat := extra + (1 <<< nb) + 286 - 254

/-- `matchDist` of DNEW: `(32 << nb) + (bits << 5) - (39 - osym)` (R92, R230). -/
def newDistance (nb bits osym : Nat) : Nat := (32 <<< nb) + (bits <<< 5) - (39 - osym)

/-- `QuantumSize` (R181) for either value of the parameter. -/
def quantumSize (boundary : QuantumBoundary) (dstCur dstEnd : Nat) : Nat :=
  match boundary with
  | .relative => min Params.quantumMax (dstEnd - dstCur)
  | .aligned => min dstEnd (dstCur / 65536 * 65536 + Params.quantumMax) - dstCur

/-- The least `t` from `t` on whose upper bound, next in the list, is above the residue. -/
def symFrom : List Nat → Nat → Nat → Option Nat
  | [], _, _ => none
  | c :: cs, r, t => if r < c then some t else symFrom cs r (t + 1)

/-- `Sym(cdf, r)` (R148): the least `t` with `r < cdf[t+1]`. -/
def symOf (cdf : List Nat) (r : Nat) : Option Nat := symFrom (cdf.drop 1) r 0

end Sys2Proof.Machine
end

