-- ==== Sys2Proof/Machine/Ops.lean ====
section
/-! DEFINITION. The operations over memory, registers and models that the meanings share, and the one failure of the block,
`raiseFailure` (R256). There is no return from a failure (R258), so no operation for one: only START leaves DONE_FAIL. -/

namespace Sys2Proof.Machine

/-- Why an operation does not go on: the decode failed, in the state after `raiseFailure`, or the model faults. -/
inductive Stop where
  | failed (s : State)
  | fault (f : Fault)

/-- OUT becomes unspecified (R72, R280): the bytes of the space are forgotten and read as free values from now on; a byte
outside the space reads as before, written or not (R69; log 4). -/
def forgetOut (s : State) : State :=
  { s with outMem := memForget s.outMem s.decompSize.toNat, outForgotten := s.decompSize.toNat :: s.outForgotten }

/-- `raise C(info)` (R256): the cause is recorded, the phase becomes DONE_FAIL, OUT becomes unspecified (R72). IN and the two
sizes are unchanged. The rest of the decoder state is unspecified and not readable; it is left as it is (U4, log 6). -/
def raiseFailure (c : FailCause) (s : State) : State :=
  forgetOut { s with failCause := c, phase := .doneFail, stage := .head }

/-- The outcome of a step whose last operation answered `r`. -/
def conclude (r : Except Stop State) : Host.Outcome State Fault Refusal :=
  match r with
  | .ok s => .next s
  | .error (.failed s) => .next s
  | .error (.fault f) => .fault f

/-! ### Register writes -/

/-- Write `state1` (R25). -/
def setState1 (v : Word) (s : State) : State := { s with state1 := v }

/-- Write both coder states (R186). -/
def setStates (v1 v2 : Word) (s : State) : State := { s with state1 := v1, state2 := v2 }

/-- Write the input cursor (R114). -/
def setSrcCur (v : Word) (s : State) : State := { s with srcCur := v }

/-- Write the end of the quantum (R180). -/
def setQuantumEnd (v : Word) (s : State) : State := { s with dstQuantumEnd := v }

/-- Write the ranking of the cache (R225). -/
def setDistMask (mask : BitVec 24) (s : State) : State := { s with distMask := mask }

/-- Write the distances of the cache (R232). -/
def setRecent (r : Vector Word 8) (s : State) : State := { s with recent := r }

/-- Write `lastCopyOffset` (R236). -/
def setLastCopy (d : Word) (s : State) : State := { s with lastCopyOffset := d }

/-- Replace the contents of OUT. -/
def setOut (m : Memory) (s : State) : State := { s with outMem := m }

/-- Deliver the value of an internal operation executed on its own (log 9). -/
def setRet (v : Word) (s : State) : State := { s with ret := v }

/-! ### Memory accesses (R68) -/

/-- The engine reads one byte of IN; outside the space it faults (R69). -/
def inByte (a : Nat) (s : State) : Except Stop Byte :=
  if a < s.compSize.toNat then .ok (inValue s a) else .error (.fault (.inOutsideSpace a))

/-- The engine reads the byte of OUT `distance` before the offset `pos`; outside the space it faults (R69). -/
def outByteBack (pos distance : Nat) (s : State) : Except Stop Byte :=
  if pos < distance then .error (.fault (.outNegativeOffset pos distance))
  else if pos - distance < s.decompSize.toNat then .ok (outValue s (pos - distance))
  else .error (.fault (.outOutsideSpace (pos - distance)))

/-- The engine writes one byte of OUT; outside the space it faults (R69). -/
def outWrite (a : Nat) (b : Byte) (s : State) : Except Stop State :=
  if a < s.decompSize.toNat then .ok (setOut (memWrite s.outMem a b) s)
  else .error (.fault (.outOutsideSpace a))

/-- `for i in 0 .. count-1: OUT[dst + i] <- IN[src + i]` (R182). -/
def copyFromIn : Nat → Nat → Nat → State → Except Stop State
  | 0, _, _, s => .ok s
  | count + 1, src, dst, s => do
    let b ← inByte src s
    let s ← outWrite dst b s
    copyFromIn count (src + 1) (dst + 1) s

/-- `for i in 0 .. count-1, in ascending order: OUT[dst + i] <- OUT[dst + i - distance]` (R235); each iteration reads after the
earlier ones have written (R290). -/
def copyWithinOut : Nat → Nat → Nat → State → Except Stop State
  | 0, _, _, s => .ok s
  | count + 1, dst, distance, s => do
    let b ← outByteBack dst distance s
    let s ← outWrite dst b s
    copyWithinOut count (dst + 1) distance s

/-! ### The input cursor (R160 to R162) -/

/-- Bytes of input left: `srcEnd - srcCur` (R162). -/
def inputLeft (s : State) : Nat := s.srcEnd.toNat - s.srcCur.toNat

/-- Bytes of output left: `dstEnd - dstCur` (R162). -/
def outputLeft (s : State) : Nat := s.dstEnd.toNat - s.dstCur.toNat

/-- Move the input cursor (R28). -/
def advanceSrc (n : Nat) (s : State) : State := { s with srcCur := s.srcCur + BitVec.ofNat 32 n }

/-- Move the output cursor (R30). -/
def advanceDst (n : Nat) (s : State) : State := { s with dstCur := s.dstCur + BitVec.ofNat 32 n }

/-- `Peek16()` (R160): the check comes before the read. -/
def peek16 (P : Parameters) (s : State) : Except Stop StreamUnit :=
  if inputLeft s < 2 then .error (.failed (raiseFailure (.inputTruncation s.srcCur) s))
  else do
    let b0 ← inByte s.srcCur.toNat s
    let b1 ← inByte (s.srcCur.toNat + 1) s
    .ok (assemble16 P.byteOrder b0 b1)

/-- `Read16()` (R161). -/
def readUnit (P : Parameters) (s : State) : Except Stop (StreamUnit × State) := do
  let v ← peek16 P s
  .ok (v, advanceSrc 2 s)

/-! ### The renormalizer (R163 to R167) -/

/-- Fold a 16-bit unit into a 32-bit register: `(x << 16) or w`, the bits above 31 discarded (R163, R186). -/
def foldUnit (x : Word) (w : StreamUnit) : Word := (x <<< 16) ||| w.setWidth 32

/-- `(state1, state2) <- (state2, state1)` (R163). -/
def swapStates (s : State) : State := { s with state1 := s.state2, state2 := s.state1 }

/-- `Renorm()` (R163): refill `state1` when it is below 0x10000, then swap, always. -/
def renormalize (P : Parameters) (s : State) : Except Stop State :=
  if s.state1 < Params.stateLow then do
    let (w, s) ← readUnit P s
    .ok (swapStates (setState1 (foldUnit s.state1 w) s))
  else .ok (swapStates s)

/-- `RawBits(k)` (R166): the `k` low bits of `state1`, which is shifted right by `k`, then one `Renorm`, also for `k = 0` (R167). -/
def rawBits (P : Parameters) (k : Nat) (s : State) : Except Stop (Nat × State) := do
  let v := s.state1.toNat % 2 ^ k
  let s ← renormalize P (setState1 (s.state1 >>> k) s)
  .ok (v, s)

/-! ### The adaptive models (41_adaptive_model.md) -/

/-- A model instance of the state (R34). -/
def State.model (s : State) : ModelId → AdaptiveModel
  | .lit p => s.lit[p.val]'p.isLt
  | .offLow p => s.offLow[p.val]'p.isLt
  | .obl => s.obl

/-- Replace one model instance; the instances share nothing (R34). -/
def State.setModel (s : State) (m : ModelId) (M : AdaptiveModel) : State :=
  match m with
  | .lit p => { s with lit := s.lit.set p.val M p.isLt }
  | .offLow p => { s with offLow := s.offLow.set p.val M p.isLt }
  | .obl => { s with obl := M }

/-- `FillLookup` (R147): `lookup[b] <- Sym(cdf, b << s)` for every block. Two things are left open, and are free values here: the entry
of a block whose first residue no symbol contains, where `Sym` has no value (DESIGN CHOICE, safe; log 37; only REBUILD executed alone
can meet one, R146), and what the margin past the last block holds (R36; log 22). -/
def fillLookup (P : Parameters) (c : ModelClass) (cdf : List Nat) : List Nat :=
  (List.range (Params.lookupSize c)).map (fun b => (symOf cdf (b <<< Params.lookupShift c)).getD (Config.unownedBlock c b))
    ++ (List.range P.lookupMargin).map (Config.marginEntry c)

/-- `InitModel` (R130, R134, R135). -/
def initModel (P : Parameters) (c : ModelClass) : AdaptiveModel :=
  { frequency := List.replicate c.alphabet 1
    cdf := P.initCdf c
    lookup := fillLookup P c (P.initCdf c)
    adaptCounter := Params.adaptInterval }

/-- Steps 2 to 4 of R140: the guess of the lookup table, one step up when the residue is strictly above the guess's upper bound,
then upward while the residue is not below it. `none` where the search runs past the table. -/
def searchSymbol (c : ModelClass) (M : AdaptiveModel) (residue : Nat) : Option Nat :=
  let guess := M.lookup.getD (residue >>> Params.lookupShift c) 0
  let sym := if M.cdf.getD (guess + 1) 0 < residue then guess + 1 else guess
  symFrom (M.cdf.drop (sym + 1)) residue sym

/-- The smoothing pass of R144 over the symbols in order: `sum += frequency[i]`, `cdf[i+1] += HALF(sum - cdf[i+1])`. -/
def smoothCdf (half : Int → Int) : Nat → List Nat → List Nat → List Nat
  | sum, f :: fs, c :: cs =>
    ((c : Int) + half (((sum + f : Nat) : Int) - (c : Int))).toNat :: smoothCdf half (sum + f) fs cs
  | _, [], cs => cs
  | _, _ :: _, [] => []

/-- The frequencies a rebuild sums: the bias on the symbol just decoded (R144). -/
def biasedFrequency (c : ModelClass) (M : AdaptiveModel) (sym : Nat) : List Nat :=
  M.frequency.modify sym (· + Params.bias c)

/-- The cumulative table after a rebuild (R144); `cdf[0]` is not written. -/
def rebuiltCdf (P : Parameters) (c : ModelClass) (M : AdaptiveModel) (sym : Nat) : List Nat :=
  M.cdf.take 1 ++ smoothCdf P.half 0 (biasedFrequency c M sym) (M.cdf.drop 1)

/-- `Rebuild(M, sym)` (R144): the bias on the decoded symbol, the smoothing pass, every frequency back to 1, the counter back to
1024, the lookup table filled again. -/
def rebuildModel (P : Parameters) (c : ModelClass) (M : AdaptiveModel) (sym : Nat) : AdaptiveModel :=
  { frequency := (biasedFrequency c M sym).map fun _ => 1
    cdf := rebuiltCdf P c M sym
    lookup := fillLookup P c (rebuiltCdf P c M sym)
    adaptCounter := Params.adaptInterval }

/-- The frequency update (R142) and the counter (R143) of a symbol decode. -/
def countSymbol (M : AdaptiveModel) (sym : Nat) : AdaptiveModel :=
  { M with
    frequency := M.frequency.modify sym (· + Params.freqInc)
    adaptCounter := M.adaptCounter - 1 }

/-- Step 6 of R140: the frequency update (R142), the counter (R143), and the rebuild when the counter reaches 0 (R293). -/
def updateModel (P : Parameters) (c : ModelClass) (M : AdaptiveModel) (sym : Nat) : AdaptiveModel :=
  if M.adaptCounter - 1 = 0 then rebuildModel P c (countSymbol M sym) sym else countSymbol M sym

/-- Step 5 of R140: `(state1 >> 15) * freq + (residue - cdf[sym])`. -/
def nextCoderState (state1 : Nat) (cdf : List Nat) (sym : Nat) : Nat :=
  (state1 / Params.probTotal) * (cdf.getD (sym + 1) 0 - cdf.getD sym 0)
    + (state1 % Params.probTotal - cdf.getD sym 0)

/-- `DecodeSym(M)` (R140): the symbol, and the state with `state1` and the model updated. It does not renormalize. -/
def decodeSymbol (P : Parameters) (m : ModelId) (s : State) : Except Stop (Nat × State) :=
  match searchSymbol m.cls (s.model m) (s.state1.toNat % Params.probTotal) with
  | none => .error (.fault (.searchPastTable (s.state1.toNat % Params.probTotal)))
  | some sym =>
    .ok (sym,
      State.setModel (setState1 (BitVec.ofNat 32 (nextCoderState s.state1.toNat (s.model m).cdf sym)) s) m
        (updateModel P m.cls (s.model m) sym))

/-- A symbol decode and the `Renorm` that follows it (R164, R211, R224, R229). -/
def decodeAndRenorm (P : Parameters) (m : ModelId) (s : State) : Except Stop (Nat × State) := do
  let (sym, s) ← decodeSymbol P m s
  let s ← renormalize P s
  .ok (sym, s)

/-! ### Control -/

/-- `phase <- P` (R106), at the phase's first operation. -/
def gotoPhase (p : Phase) (s : State) : State := { s with phase := p, stage := .head }

/-- The next operation of the same phase (R99; log 2). -/
def gotoStage (st : Stage) (s : State) : State := { s with stage := st }

/-- Whether the end of the output ends the decode in success: with `TRAILING_INPUT = ignore` always (R117), with `fail` only when
no input is left over (D14; log 23). -/
def endAccepted (P : Parameters) (s : State) : Bool :=
  match P.trailingInput with
  | .ignore => true
  | .fail => decide (s.srcCur = s.srcEnd)

/-- `AfterQuantum` (R115). -/
def afterQuantum (P : Parameters) (s : State) : Except Stop State :=
  if s.dstCur < s.dstEnd then .ok (gotoPhase .qstart s)
  else if endAccepted P s then .ok (gotoPhase .doneOk s)
  else .error (.failed (raiseFailure (.trailingInput s.srcCur) s))

/-- `InitDecoderState()` (R112). R46 gives `state1`, `state2` and `firstLiteralPending` no value until the first QHDR and
`dstQuantumEnd` none until the first QSTART, and R25 and R281 ask for a fault on a read before; here they keep their former values, and
a read gives those (DESIGN CHOICE, unsafe; log 36). No fetched operation reads them there. -/
def initDecoderState (P : Parameters) (s : State) : State :=
  { s with
    recent := Vector.replicate 8 1#32
    distMask := P.distMaskInit
    lastCopyOffset := 1#32
    lit := Vector.replicate 4 (initModel P .literal)
    offLow := Vector.replicate 4 (initModel P .offsetLow)
    obl := initModel P .offsetBitLength
    srcCur := 0#32
    srcEnd := s.compSize
    dstStart := 0#32
    dstCur := 0#32
    dstEnd := s.decompSize }

/-- Hardware reset (R280) as an event: IDLE, no cause, the registers at their reset values (log 1, log 28). IN stays the host's;
OUT stays the host's too (R46), except that a reset during BUSY leaves it unspecified (R280). -/
def hardwareReset (P : Parameters) (s : State) : State :=
  let s := if busy s then forgetOut s else s
  { State.resetUnder P with
    inMem := s.inMem, outMem := s.outMem, outForgotten := s.outForgotten, hostScript := s.hostScript }

end Sys2Proof.Machine
end

