-- ==== Sys2Proof/Machine/Coder.lean ====
section
/-! DEFINITION. The five internal operations executed on their own: DECODESYM, REBUILD, RENORM, RAWBITS, READ16 (R100). Inside the
other meanings the same shared operations run; on their own, the value they return goes to `ret` (log 9). -/

namespace Sys2Proof.Machine

/-- Deliver the value an internal operation returns (log 9). -/
def returning (r : Except Stop (Nat × State)) : Except Stop State := do
  let (v, s) ← r
  .ok (setRet (BitVec.ofNat 32 v) s)

/-- DECODESYM (R140). -/
def execDecodesym (m : ModelId) (s : State) (P : Parameters := Params.default) : Host.Outcome State Fault Refusal :=
  conclude (returning (decodeSymbol P m s))

/-- REBUILD (R144). -/
def execRebuild (m : ModelId) (sym : BitVec 9) (s : State) (P : Parameters := Params.default) : Host.Outcome State Fault Refusal :=
  .next (s.setModel m (rebuildModel P m.cls (s.model m) sym.toNat))

/-- RENORM (R163). -/
def execRenorm (s : State) (P : Parameters := Params.default) : Host.Outcome State Fault Refusal :=
  conclude (renormalize P s)

/-- RAWBITS (R166). -/
def execRawbits (k : BitVec 4) (s : State) (P : Parameters := Params.default) : Host.Outcome State Fault Refusal :=
  conclude (returning (rawBits P k.toNat s))

/-- READ16 (R161). -/
def execRead16 (s : State) (P : Parameters := Params.default) : Host.Outcome State Fault Refusal :=
  conclude (do
    let (w, s) ← readUnit P s
    .ok (setRet (w.setWidth 32) s))

end Sys2Proof.Machine
end

