-- ==== Sys2Proof/Machine/Decompressor.lean ====
section
/-! DEFINITION. START and MAGIC (40_decompressor.md). -/

namespace Sys2Proof.Machine

/-- START (R110): refused while BUSY (R288); the preconditions before anything else (R111, R260); then all decoder state (R112). -/
def execStart (s : State) (P : Parameters := Params.default) : Host.Outcome State Fault Refusal :=
  if busy s then .refused .hostAccessWhileBusy
  else if s.compSize.toNat < 2 ∨ s.decompSize = 0#32 then .next (raiseFailure .precondition s)
  else .next (gotoPhase .magic (initDecoderState P { s with failCause := .none }))

/-- MAGIC (R114). -/
def execMagic (s : State) (P : Parameters := Params.default) : Host.Outcome State Fault Refusal :=
  conclude (do
    let (unit, s) ← readUnit P (setSrcCur P.magicOffset s)
    if unit = Params.magic then .ok (gotoPhase .qstart s)
    else .error (.failed (raiseFailure (.formatMagic unit) s)))

end Sys2Proof.Machine
end

