-- ==== Sys2Proof/Machine/Lz.lean ====
section
/-! DEFINITION. LIT, MATCHS, MATCHX, DCACHE, DNEW, NBITS, COPY (44_lz_dispatch.md). The symbol that selects an operation has been
decoded and renormalized when the operation runs (R210; Sys2Proof/Machine/Engine.lean). -/

namespace Sys2Proof.Machine

/-- LIT (R212): the delta against the byte `lastCopyOffset` behind the cursor, mod 256. -/
def execLit (delta : BitVec 8) (s : State) : Host.Outcome State Fault Refusal :=
  conclude (do
    let base ← outByteBack s.dstCur.toNat s.lastCopyOffset.toNat s
    let s ← outWrite s.dstCur.toNat (delta + base) s
    .ok (advanceDst 1 s))

/-- The match length is known; a distance symbol comes next (R210). -/
def lengthDecoded (len : Nat) (s : State) : State :=
  gotoStage .distance { s with copyLength := BitVec.ofNat 32 len }

/-- The match distance is known; COPY comes next (R210). -/
def distanceDecoded (dist : Word) (s : State) : State :=
  gotoStage .copy { s with matchDist := dist }

/-- MATCHS (R216). -/
def execMatchs (code : BitVec 5) (s : State) : Host.Outcome State Fault Refusal :=
  .next (lengthDecoded (shortLength (256 + code.toNat)) s)

/-- MATCHX (R218): `nb` raw bits of `state1` extend the length. -/
def execMatchx (code : BitVec 4) (s : State) (P : Parameters := Params.default) : Host.Outcome State Fault Refusal :=
  conclude (do
    let (extra, s) ← rawBits P (extendedBits (288 + code.toNat)) s
    .ok (lengthDecoded (extendedLength (extendedBits (288 + code.toNat)) extra) s))

/-- `recent[slot]`, the slot being that of a rank (R225). -/
def cachedDistance (s : State) (rank : Nat) : Word :=
  s.recent[(rankSlot s.distMask rank).val]'(rankSlot s.distMask rank).isLt

/-- DCACHE (R225): the distance of the rank's slot, which moves to the front. -/
def execDcache (rank : BitVec 3) (s : State) (P : Parameters := Params.default) : Host.Outcome State Fault Refusal :=
  .next (distanceDecoded (cachedDistance s rank.toNat) (setDistMask (P.mtfUpdate s.distMask rank.toNat) s))

/-- The 16-bit direct read of DNEW when `nb >= 16`; no `Renorm` follows it (R230). -/
def longBits (P : Parameters) (nb bits : Nat) (s : State) : Except Stop (Nat × State) :=
  if nb < 16 then .ok (bits, s)
  else do
    let (w, s) ← readUnit P s
    .ok (P.longBitsCombine bits w.toNat, s)

/-- The new distance enters the cache (R232) and goes to COPY. -/
def insertDistance (P : Parameters) (dist : Word) (s : State) : State :=
  distanceDecoded dist (setRecent (P.missInsert s.distMask s.recent dist) s)

/-- DNEW (R230) for an OffsetLow symbol of 8..39: NBITS, the raw bits, the direct word, the distance, the insertion. -/
def newDistanceOp (P : Parameters) (osym : Nat) (s : State) : Except Stop State := do
  let (nb, s) ← decodeAndRenorm P .obl s
  let (bits, s) ← rawBits P (nb % 16) s
  let (bits, s) ← longBits P nb bits s
  .ok (insertDistance P (BitVec.ofNat 32 (newDistance nb bits osym)) s)

/-- DNEW, symbols 8..15 (R230). -/
def execDnewLow (code : BitVec 3) (s : State) (P : Parameters := Params.default) : Host.Outcome State Fault Refusal :=
  conclude (newDistanceOp P (8 + code.toNat) s)

/-- DNEW, symbols 16..31 (R230). -/
def execDnewMid (code : BitVec 4) (s : State) (P : Parameters := Params.default) : Host.Outcome State Fault Refusal :=
  conclude (newDistanceOp P (16 + code.toNat) s)

/-- DNEW, symbols 32..39 (R230). -/
def execDnewHigh (code : BitVec 3) (s : State) (P : Parameters := Params.default) : Host.Outcome State Fault Refusal :=
  conclude (newDistanceOp P (32 + code.toNat) s)

/-- NBITS on its own (R229): `nb <- DecodeSym(OBL) ; Renorm()`; the value goes to `ret` (log 9). -/
def execNbits (s : State) (P : Parameters := Params.default) : Host.Outcome State Fault Refusal :=
  conclude (do
    let (nb, s) ← decodeAndRenorm P .obl s
    .ok (setRet (BitVec.ofNat 32 nb) s))

/-- COPY (R235): the distance (R233), then the length (R234), then the bytes in ascending order, then `lastCopyOffset` (R236). -/
def execCopy (len dist : Word) (s : State) : Host.Outcome State Fault Refusal :=
  conclude (
    if dist = 0#32 ∨ s.dstCur < dist then
      .error (.failed (raiseFailure (.invalidDistance dist s.dstCur) s))
    else if outputLeft s < len.toNat then
      .error (.failed (raiseFailure (.outputOverflow len s.dstCur) s))
    else do
      let s ← copyWithinOut len.toNat s.dstCur.toNat dist.toNat s
      .ok (gotoStage .head (setLastCopy dist (advanceDst len.toNat s))))

end Sys2Proof.Machine
end

