-- ==== Sys2Proof/Machine/Quantum.lean ====
section
/-! DEFINITION. QSTART, QRAW, QHDR, FIRSTLIT, QEND (43_quantum.md). -/

namespace Sys2Proof.Machine

/-- `dstCur + quantumSize` (R180, R181). -/
def nextQuantumEnd (P : Parameters) (s : State) : Word :=
  s.dstCur + BitVec.ofNat 32 (quantumSize P.quantumBoundary s.dstCur.toNat s.dstEnd.toNat)

/-- QSTART (R180): the quantum's end (R181), then the peek of the marker, which selects the next operation: QRAW or QHDR. -/
def execQstart (s : State) (P : Parameters := Params.default) : Host.Outcome State Fault Refusal :=
  conclude (do
    let s := setQuantumEnd (nextQuantumEnd P s) s
    let marker ← peek16 P s
    if marker = 0#16 then .ok (gotoStage .raw s) else .ok (gotoStage .coded s))

/-- The quantum's size, as QSTART fixed it (R180). -/
def quantumLength (s : State) : Nat := (s.dstQuantumEnd - s.dstCur).toNat

/-- QRAW after its marker (R182): one check for the whole block, the copy, the cursors, the loop control. -/
def copyRawBlock (P : Parameters) (size : Nat) (s : State) : Except Stop State :=
  if inputLeft s < size then .error (.failed (raiseFailure (.inputTruncation s.srcCur) s))
  else do
    let s ← copyFromIn size s.srcCur.toNat s.dstCur.toNat s
    afterQuantum P (advanceDst size (advanceSrc size s))

/-- QRAW (R182): the zero marker is consumed, then the block. -/
def execQraw (s : State) (P : Parameters := Params.default) : Host.Outcome State Fault Refusal :=
  conclude (copyRawBlock P (quantumLength s) (advanceSrc 2 s))

/-- A chunk pulled into a register of the header when it is below 0x10000 (R186: chunks x1 and x2). -/
def pullIfLow (P : Parameters) (x : Word) (s : State) : Except Stop (Word × State) :=
  if x < Params.stateLow then do
    let (w, s) ← readUnit P s
    .ok (foldUnit x w, s)
  else .ok (x, s)

/-- The header value `v = (w0 << 16) or w1` (R186): the first unit is the high half. -/
def headerValue (w0 w1 : StreamUnit) : Word := foldUnit (w0.setWidth 32) w1

/-- `state2 = (1 << (n + 16)) or (a and ((1 << (n + 16)) - 1))` (R186). -/
def headerState2 (n : Nat) (a : Word) : Word := (1#32 <<< (n + 16)) ||| (a &&& ((1#32 <<< (n + 16)) - 1#32))

/-- The coder states from a legal header value (R186), with `a` a 32-bit register: chunks x1 and x2 when they are needed, then x3. -/
def loadStates (P : Parameters) (v : Word) (s : State) : Except Stop State := do
  let (a, s) ← pullIfLow P (v >>> 4) s
  let (x, s) ← pullIfLow P (a >>> (v.toNat % 16)) s
  let (x3, s) ← readUnit P s
  .ok (setStates x (headerState2 (v.toNat % 16) (foldUnit a x3)) s)

/-- QHDR (R186). -/
def execQhdr (s : State) (P : Parameters := Params.default) : Host.Outcome State Fault Refusal :=
  conclude (do
    let (w0, s) ← readUnit P s
    let (w1, s) ← readUnit P s
    if headerValue w0 w1 < Params.stateLow then
      .error (.failed (raiseFailure (.formatHeader (headerValue w0 w1)) s))
    else
      let s ← loadStates P (headerValue w0 w1) s
      .ok (gotoPhase .qfirst (setFirstLiteral true s)))

/-- FIRSTLIT (R190): the raw first byte of a coded quantum, no delta, no model. -/
def execFirstlit (s : State) (P : Parameters := Params.default) : Host.Outcome State Fault Refusal :=
  conclude (
    if s.firstLiteralPending then do
      let (b, s) ← rawBits P 8 s
      let s ← outWrite s.dstCur.toNat (BitVec.ofNat 8 b) s
      .ok (gotoPhase .qbody (setFirstLiteral false (advanceDst 1 s)))
    else .ok (gotoPhase .qbody s))

/-- QEND (R194): both states must be 0x10000. -/
def execQend (s : State) (P : Parameters := Params.default) : Host.Outcome State Fault Refusal :=
  conclude (
    if s.state1 ≠ Params.stateLow ∨ s.state2 ≠ Params.stateLow then
      .error (.failed (raiseFailure (.formatEndstate s.state1 s.state2) s))
    else afterQuantum P s)

end Sys2Proof.Machine
end

