-- ==== Sys2Proof/Machine/Dispatch.lean ====
section
/-! DEFINITION. The meaning of every operation, arm by arm (R100). -/

namespace Sys2Proof.Machine

def exec (i : Instr) (s : State) : Host.Outcome State Fault Refusal :=
  match i with
  | .start => Sys2Proof.Machine.execStart s
  | .magic => Sys2Proof.Machine.execMagic s
  | .qstart => Sys2Proof.Machine.execQstart s
  | .qraw => Sys2Proof.Machine.execQraw s
  | .qhdr => Sys2Proof.Machine.execQhdr s
  | .firstlit => Sys2Proof.Machine.execFirstlit s
  | .qend => Sys2Proof.Machine.execQend s
  | .lit delta => Sys2Proof.Machine.execLit delta s
  | .matchs code => Sys2Proof.Machine.execMatchs code s
  | .matchx code => Sys2Proof.Machine.execMatchx code s
  | .dcache rank => Sys2Proof.Machine.execDcache rank s
  | .dnewLow code => Sys2Proof.Machine.execDnewLow code s
  | .dnewMid code => Sys2Proof.Machine.execDnewMid code s
  | .dnewHigh code => Sys2Proof.Machine.execDnewHigh code s
  | .nbits => Sys2Proof.Machine.execNbits s
  | .copy copyLength matchDist => Sys2Proof.Machine.execCopy copyLength matchDist s
  | .decodesym m => Sys2Proof.Machine.execDecodesym m s
  | .rebuild m sym => Sys2Proof.Machine.execRebuild m sym s
  | .renorm => Sys2Proof.Machine.execRenorm s
  | .rawbits k => Sys2Proof.Machine.execRawbits k s
  | .read16 => Sys2Proof.Machine.execRead16 s

end Sys2Proof.Machine
end

