-- ==== Sys2Proof/Machine/Parametric.lean ====
section
/-! DEFINITION. The dispatch for any setting of the parameters of R7. The host's `exec` has no argument for them and is this dispatch
at `Params.default`, arm by arm (`execUnder_default`). -/

namespace Sys2Proof.Machine

/-- The meaning of an operation under the parameters `P` (R7, R100). -/
def execUnder (P : Parameters) (i : Instr) (s : State) : Host.Outcome State Fault Refusal :=
  match i with
  | .start => execStart s P
  | .magic => execMagic s P
  | .qstart => execQstart s P
  | .qraw => execQraw s P
  | .qhdr => execQhdr s P
  | .firstlit => execFirstlit s P
  | .qend => execQend s P
  | .lit delta => execLit delta s
  | .matchs code => execMatchs code s
  | .matchx code => execMatchx code s P
  | .dcache rank => execDcache rank s P
  | .dnewLow code => execDnewLow code s P
  | .dnewMid code => execDnewMid code s P
  | .dnewHigh code => execDnewHigh code s P
  | .nbits => execNbits s P
  | .copy copyLength matchDist => execCopy copyLength matchDist s
  | .decodesym m => execDecodesym m s P
  | .rebuild m sym => execRebuild m sym s P
  | .renorm => execRenorm s P
  | .rawbits k => execRawbits k s P
  | .read16 => execRead16 s P

/-- `exec` is the dispatch at the defaults. -/
theorem execUnder_default (i : Instr) (s : State) : execUnder Params.default i s = exec i s := by
  cases i <;> rfl

end Sys2Proof.Machine
end

