-- ==== Sys2Proof/Machine/Engine.lean ====
section
/-! DEFINITION. The engine's fetch: which operation comes next (R31, R99, R106), and one engine step. A symbol-selected operation
is fetched by decoding its symbol and renormalizing, as the lzstep of R210 does before it calls the operation (log 3). -/

namespace Sys2Proof.Machine

/-- What the fetch answers. -/
inductive Fetched where
  /-- Run an operation, in the state the fetch left. -/
  | run (i : Instr) (s : State)
  /-- IDLE, DONE_OK or DONE_FAIL: the engine does nothing (R264). -/
  | quiet
  /-- The fetch of the symbol failed or faulted. -/
  | stop (x : Stop)

/-- Decode a symbol from a model, renormalize, and read the operation from the symbol (R211, R224). -/
def fetchSymbol (P : Parameters) (m : ModelId) (f : Format) (s : State) : Fetched :=
  match decodeAndRenorm P m s with
  | .error x => .stop x
  | .ok (sym, s) =>
    match decode f sym with
    | .ok i => .run i s
    | .error _ => .stop (.fault (.noOperation sym))

/-- The next operation: by phase (R31), after QSTART by the marker (R180), in the body by the cursor (R192), the grammar (R99) and
the decoded symbol (R87, R88). -/
def fetch (P : Parameters) (s : State) : Fetched :=
  match s.phase with
  | .idle => .quiet
  | .doneOk => .quiet
  | .doneFail => .quiet
  | .magic => .run .magic s
  | .qstart =>
    match s.stage with
    | .raw => .run .qraw s
    | .coded => .run .qhdr s
    | .head => .run .qstart s
    | .distance => .run .qstart s
    | .copy => .run .qstart s
  | .qfirst => .run .firstlit s
  | .qbody =>
    match s.stage with
    | .distance => fetchSymbol P (.offLow (modelIndex s.dstCur)) .offSym s
    | .copy => .run (.copy s.copyLength s.matchDist) s
    | .head =>
      if s.dstCur < s.dstQuantumEnd then fetchSymbol P (.lit (modelIndex s.dstCur)) .litSym s else .run .qend s
    | .raw =>
      if s.dstCur < s.dstQuantumEnd then fetchSymbol P (.lit (modelIndex s.dstCur)) .litSym s else .run .qend s
    | .coded =>
      if s.dstCur < s.dstQuantumEnd then fetchSymbol P (.lit (modelIndex s.dstCur)) .litSym s else .run .qend s

/-- One step of the engine: one operation of R100 (R10). -/
def engineStep (P : Parameters) (s : State) : Host.Outcome State Fault Refusal :=
  match fetch P s with
  | .quiet => .next s
  | .run i s' => execUnder P i s'
  | .stop x => conclude (.error x)

/-! ### Placing one operation to be fetched (for `State.withFetchWord`, log 12) -/

/-- Store a 16-bit unit at an offset of IN, so that `assemble16` reads it back (R63). -/
def storeUnit (order : ByteOrder) (m : Memory) (a : Nat) (w : StreamUnit) : Memory :=
  match order with
  | .little => memWrite (memWrite m a (w.setWidth 8)) (a + 1) ((w >>> 8).setWidth 8)
  | .big => memWrite (memWrite m a ((w >>> 8).setWidth 8)) (a + 1) (w.setWidth 8)

/-- Thirty-two zero bytes of input, the operand units of a placed operation. -/
def zeroInput : Memory := (List.range 32).map fun a => (a, 0#8)

/-- A decode with thirty-two bytes of input and sixteen of output, as START leaves it, with no host access pending. -/
def placedDecode (P : Parameters) (s : State) : State :=
  initDecoderState P
    { s with compSize := 32#32, decompSize := 16#32, inMem := zeroInput, failCause := .none, stage := .head, hostScript := [] }

/-- Inside the body of a coded quantum, one byte of output written, with coder states that hold the two symbols whose lower
bounds are `c1` and `c2`. -/
def placedBody (P : Parameters) (stage : Stage) (c1 c2 : Nat) (s : State) : State :=
  { placedDecode P s with
    phase := .qbody
    stage := stage
    dstCur := 1#32
    dstQuantumEnd := 16#32
    outMem := [(0, 0#8)]
    firstLiteralPending := false
    copyLength := 2#32
    state1 := BitVec.ofNat 32 (0x10000 + c1)
    state2 := BitVec.ofNat 32 (0x10000 + c2) }

/-- The state in which the engine's next fetch finds the operation that a word of a format stands for. An OBL symbol is fetched
inside DNEW, so for it DNEW is placed with that symbol in the second state (log 10, log 12). -/
def placeWord (P : Parameters) (f : Format) (w : Nat) (s : State) : State :=
  match f with
  | .hostCmd => { s with hostScript := [.writeReg .ctrl (BitVec.ofNat 32 w)] }
  | .magic16 =>
    { placedDecode P s with
      phase := .magic
      inMem := storeUnit P.byteOrder zeroInput P.magicOffset.toNat (BitVec.ofNat 16 w) }
  | .marker =>
    { placedDecode P s with
      phase := .qstart
      stage := if w = 0 then .raw else .coded
      dstQuantumEnd := 16#32
      inMem := storeUnit P.byteOrder zeroInput 0 (BitVec.ofNat 16 w) }
  | .litSym => placedBody P .head ((P.initCdf .literal).getD w 0) 0 s
  | .offSym => placedBody P .distance ((P.initCdf .offsetLow).getD w 0) 0 s
  | .oblSym =>
    placedBody P .distance ((P.initCdf .offsetLow).getD 8 0) ((P.initCdf .offsetBitLength).getD w 0) s

end Sys2Proof.Machine
end

