-- ==== Sys2Proof/Machine/HostPort.lean ====
section
/-! DEFINITION. What the host does (R20 to R24, R74, R280, R285, R288), one event a step (log 7). -/

namespace Sys2Proof.Machine

/-- A host write of a register. While BUSY it is refused (R288). COMP_SIZE and DECOMP_SIZE take any value (R21, R22); a 1 in
CTRL.START runs START, a 0 does nothing, a reserved bit is refused (R23); STATUS is read-only (R24, log 29). -/
def hostWriteReg (P : Parameters) (r : HostReg) (v : Word) (s : State) : Host.Outcome State Fault Refusal :=
  if busy s then .refused .hostAccessWhileBusy
  else
    match r with
    | .compSize => .next { s with compSize := v }
    | .decompSize => .next { s with decompSize := v }
    | .ctrl =>
      match decode .hostCmd v.toNat with
      | .ok i => execUnder P i s
      | .error .noCommand => .next s
      | .error _ => .refused .reservedCtrlBit
    | .status => .refused .statusReadOnly

/-- A host read of a register. STATUS may be read always (R288) and CTRL reads 0 (R23); the sizes only while not BUSY (R74). -/
def hostReadReg (r : HostReg) (s : State) : Host.Outcome State Fault Refusal :=
  match r with
  | .compSize => if busy s then .refused .hostAccessWhileBusy else .next { s with hostData := s.compSize }
  | .decompSize => if busy s then .refused .hostAccessWhileBusy else .next { s with hostData := s.decompSize }
  | .ctrl => .next { s with hostData := 0#32 }
  | .status => .next { s with hostData := statusWord s }

/-- A host access of IN or OUT, allowed only while not BUSY (R74). -/
def hostAccess (act : State → State) (s : State) : Host.Outcome State Fault Refusal :=
  if busy s then .refused .hostAccessWhileBusy else .next (act s)

/-- The next event of the host, which `s` has already taken from its script. -/
def hostTurn (P : Parameters) (e : HostEvent) (s : State) : Host.Outcome State Fault Refusal :=
  match e with
  | .writeReg r v => hostWriteReg P r v s
  | .readReg r => hostReadReg r s
  | .writeIn a b => hostAccess (fun s => { s with inMem := memWrite s.inMem a.toNat b }) s
  | .readIn a => hostAccess (fun s => { s with hostData := (inValue s a.toNat).setWidth 32 }) s
  | .writeOut a b => hostAccess (fun s => { s with outMem := memWrite s.outMem a.toNat b }) s
  | .readOut a => hostAccess (fun s => { s with hostData := (outValue s a.toNat).setWidth 32 }) s
  | .hwReset => .next (hardwareReset P s)
  | .engine => engineStep P s
  | .await => if busy s then engineStep P { s with hostScript := .await :: s.hostScript } else .next s

/-- One step of the machine: the host's next event, or the engine where the host has none. -/
def takeTurn (P : Parameters) (s : State) : Host.Outcome State Fault Refusal :=
  match s.hostScript with
  | [] => engineStep P s
  | e :: rest => hostTurn P e { s with hostScript := rest }

end Sys2Proof.Machine
end

