-- ==== Sys2Proof/Machine/Step.lean ====
section
/-! DEFINITION. One step of the machine, and the placing of one operation where the step fetches it. -/

namespace Sys2Proof.Machine

/-- One step under the parameters `P` (R7): the host's next event, or one operation of the engine (R10, R20). -/
def stepUnder (P : Parameters) (s : State) : Host.Outcome State Fault Refusal := takeTurn P s

/-- The machine under the parameters `P`. -/
def coreUnder (P : Parameters) : Host.Core :=
  { State := State, Fault := Fault, Refusal := Refusal, step := stepUnder P, reset := State.resetUnder P }

/-- One step of the machine at the spec's defaults (R7). -/
def step (s : State) : Host.Outcome State Fault Refusal := stepUnder Params.default s

/-- The state whose next step fetches and runs the operation of a table word (log 12). A row without a word changes nothing. -/
def State.withFetchWord (s : State) (nbits w : Nat) : State :=
  match tableFormat nbits w with
  | none => s
  | some f => placeWord Params.default f (tableSymbol f w) s

end Sys2Proof.Machine
end

