-- ==== Sys2Proof/Safety.lean ====
section
/-! DEFINITION. The terms the claims use: the invariants of the spec's "derived" rules, the step bound of R118, what of a state can
still matter (R46, R281), the rank-ordered view of the cache (R41), and the pseudocode of R210 in one piece. A term without the
argument `P` is one of the machine at the spec's defaults (R7). -/

namespace Sys2Proof.Machine

/-- The 16-bit unit of IN at an offset (R63). -/
def unitAt (s : State) (a : Nat) (P : Parameters := Params.default) : StreamUnit :=
  assemble16 P.byteOrder (inValue s a) (inValue s (a + 1))

/-- An entry of a model's cumulative table. -/
def AdaptiveModel.bound (M : AdaptiveModel) (i : Nat) : Nat := M.cdf.getD i 0

/-- The model invariants of R37, with R149's strictness for (b) and (c), and (d) as R37 corrects it. -/
structure ModelInv (c : ModelClass) (M : AdaptiveModel) : Prop where
  frequencyLength : M.frequency.length = c.alphabet
  cdfLength : M.cdf.length = c.alphabet + 1
  lookupLength : M.lookup.length = Params.lookupSize c
  cdfFirst : M.bound 0 = 0
  cdfLast : M.bound c.alphabet = 32768
  cdfRising : M.cdf.Pairwise fun x y => x < y
  lookupOwns : ∀ b, b < Params.lookupSize c →
    M.bound (M.lookup.getD b 0) ≤ b <<< Params.lookupShift c ∧
      b <<< Params.lookupShift c < M.bound (M.lookup.getD b 0 + 1)
  frequencyPositive : ∀ f ∈ M.frequency, 1 ≤ f
  counterLow : 1 ≤ M.adaptCounter
  counterHigh : M.adaptCounter ≤ 1024
  frequencyTotal : M.frequency.sum = c.alphabet + 31 * (1024 - M.adaptCounter)

/-- The slots in rank order (R39). -/
def rankOrder (mask : BitVec 24) : List (Fin 8) := (List.range 8).map (rankSlot mask)

/-- `distMask` is a permutation of 0..7 (R39, R227). -/
def maskIsPermutation (mask : BitVec 24) : Prop := (rankOrder mask).Nodup

/-- The rank-ordered view of the distance cache, `L[r] = recent[distMask[3r+2 : 3r]]` (R41). -/
def cacheView (mask : BitVec 24) (recent : Vector Word 8) : List Word :=
  (List.range 8).map fun r => recent[(rankSlot mask r).val]'(rankSlot mask r).isLt

/-- Both coder states are at least 0x10000 (R27). -/
def coderReady (s : State) : Prop := 0x10000 ≤ s.state1.toNat ∧ 0x10000 ≤ s.state2.toNat

/-- What holds of the cursors in each phase of a decode (R28, R30, R31, R116, R188, R192, R213). -/
def phaseInv (s : State) : Prop :=
  match s.phase with
  | .idle => True
  | .magic => s.srcCur = 0#32 ∧ s.dstCur = 0#32
  | .qstart =>
    s.dstCur < s.dstEnd ∧
      (s.stage = .head ∨
        ((s.stage = .raw ∨ s.stage = .coded) ∧ 2 ≤ inputLeft s ∧ s.dstCur < s.dstQuantumEnd ∧
          s.dstQuantumEnd ≤ s.dstEnd ∧ s.dstQuantumEnd.toNat ≤ s.dstCur.toNat + 65536))
  | .qfirst =>
    coderReady s ∧ s.firstLiteralPending = true ∧ s.dstCur < s.dstQuantumEnd ∧ s.dstQuantumEnd ≤ s.dstEnd
  | .qbody =>
    coderReady s ∧ s.dstQuantumEnd ≤ s.dstEnd ∧ 1 ≤ s.dstCur.toNat ∧
      (s.stage = .head ∨
        ((s.stage = .distance ∨ s.stage = .copy) ∧ s.dstCur < s.dstQuantumEnd ∧
          2 ≤ s.copyLength.toNat ∧ s.copyLength.toNat ≤ 8223))
  | .doneOk => True
  | .doneFail => True

/-- The invariants of a running decode. -/
structure DecodeInv (s : State) : Prop where
  compSizeLow : 2 ≤ s.compSize.toNat
  decompSizeLow : 1 ≤ s.decompSize.toNat
  srcEndIsSize : s.srcEnd = s.compSize
  srcInside : s.srcCur ≤ s.srcEnd
  dstStartZero : s.dstStart = 0#32
  dstEndIsSize : s.dstEnd = s.decompSize
  dstInside : s.dstCur ≤ s.dstEnd
  models : ∀ m : ModelId, ModelInv m.cls (s.model m)
  maskPermutes : maskIsPermutation s.distMask
  recentRange : ∀ d ∈ s.recent.toList, 1 ≤ d.toNat ∧ d.toNat ≤ 67108832
  lastCopyLow : 1 ≤ s.lastCopyOffset.toNat
  lastCopyHigh : s.lastCopyOffset.toNat ≤ max 1 s.dstCur.toNat
  inPhase : phaseInv s

/-- The invariant of the machine: both spaces in their canonical form, and a running decode as the spec says it is. -/
structure Inv (s : State) : Prop where
  inCanonical : Memory.wf s.inMem
  outCanonical : Memory.wf s.outMem
  decoding : busy s = true → DecodeInv s

/-! ### What a completed operation leaves, in the spec's terms -/

/-- Input is there for the `Renorm` that comes next: no refill is due, or two bytes are left (R163). -/
def renormReady (s : State) : Prop := 0x10000 ≤ s.state1.toNat ∨ 2 ≤ inputLeft s

/-- The state after a `Renorm` that has its input (R163): one unit folded into `state1` when it is below 0x10000, then the swap. -/
def afterRenorm (s : State) (P : Parameters := Params.default) : State :=
  if s.state1.toNat < 0x10000 then
    { s with
      state1 := s.state2
      state2 := BitVec.ofNat 32 (s.state1.toNat * 0x10000 + (unitAt s s.srcCur.toNat P).toNat)
      srcCur := s.srcCur + 2#32 }
  else { s with state1 := s.state2, state2 := s.state1 }

/-- The state with the `k` low bits of `state1` taken away (R166). -/
def withoutLowBits (k : Nat) (s : State) : State := { s with state1 := BitVec.ofNat 32 (s.state1.toNat / 2 ^ k) }

/-- The coder state after a symbol is decoded (R140 step 5). -/
def decodedState1 (M : AdaptiveModel) (sym : Nat) (x : Nat) : Nat :=
  (x / 32768) * (M.bound (sym + 1) - M.bound sym) + (x % 32768 - M.bound sym)

/-- The state after a symbol is decoded from a model (R140 steps 5 and 6), before any `Renorm`. -/
def afterDecode (m : ModelId) (sym : Nat) (s : State) (P : Parameters := Params.default) : State :=
  State.setModel { s with state1 := BitVec.ofNat 32 (decodedState1 (s.model m) sym s.state1.toNat) } m
    (updateModel P m.cls (s.model m) sym)

/-- The decode failed at a read of IN that wants more than is left (R251): the cursor at the failed read is recorded. -/
def truncated (s : State) : State := raiseFailure (.inputTruncation s.srcCur) s

/-- An operation is the DNEW that an OffsetLow symbol selects, in one of its three rows (R88). -/
def dnewOf (i : Instr) (osym : Nat) : Prop :=
  (∃ c, i = .dnewLow c ∧ osym = 8 + c.toNat) ∨ (∃ c, i = .dnewMid c ∧ osym = 16 + c.toNat) ∨
    (∃ c, i = .dnewHigh c ∧ osym = 32 + c.toNat)

/-- The symbol that contains the residue of `state1` in a model's table (R86, R148). -/
def nextSymbol (m : ModelId) (s : State) : Option Nat := symOf (s.model m).cdf (s.state1.toNat % 32768)

/-- Every byte of the produced output was written (R71). -/
def outWritten (s : State) : Prop := ∀ a, a < s.dstCur.toNat → (memRead s.outMem a).isSome = true

/-- The outcome of a step, with a function applied to the next state. -/
def mapNext (f : State → State) (o : Host.Outcome State Fault Refusal) : Host.Outcome State Fault Refusal :=
  match o with
  | .next s => .next (f s)
  | .fault r => .fault r
  | .refused r => .refused r

/-- A bound on the engine steps left (R118): by the output left, then by the place in the grammar of R99. -/
def stepsLeft (s : State) : Nat :=
  match s.phase with
  | .idle => 0
  | .magic => 8 * outputLeft s + 4
  | .qstart =>
    match s.stage with
    | .raw => 8 * outputLeft s + 2
    | .coded => 8 * outputLeft s + 2
    | .head => 8 * outputLeft s + 3
    | .distance => 8 * outputLeft s + 3
    | .copy => 8 * outputLeft s + 3
  | .qfirst => 8 * outputLeft s + 1
  | .qbody =>
    match s.stage with
    | .distance => 8 * outputLeft s + 5
    | .copy => 8 * outputLeft s + 4
    | .head => 8 * outputLeft s + 6
    | .raw => 8 * outputLeft s + 6
    | .coded => 8 * outputLeft s + 6
  | .doneOk => 0
  | .doneFail => 0

/-- The state without the model's own carriers, which no rule of the spec names. -/
def withoutCarriers (s : State) : State := { s with copyLength := 0#32, matchDist := 0#32, ret := 0#32 }

/-- The state without what the engine reads only after writing it anew: in IDLE, DONE_OK and DONE_FAIL all decoder state (R45,
R46, R256), in the other phases the items R25, R30 and R32 give no value to, and the model's carriers where they carry nothing.
The two size registers stay, and both spaces with what selects the free bytes of OUT: the host can read them, and START reads the
sizes, so the values R46 and R72 leave open there do show. -/
def liveState (s : State) : State :=
  match s.phase with
  | .idle => { State.reset with
      compSize := s.compSize, decompSize := s.decompSize, phase := s.phase, failCause := s.failCause, inMem := s.inMem,
      outMem := s.outMem, outForgotten := s.outForgotten, hostScript := s.hostScript, hostData := s.hostData }
  | .doneOk => { State.reset with
      compSize := s.compSize, decompSize := s.decompSize, phase := s.phase, failCause := s.failCause, inMem := s.inMem,
      outMem := s.outMem, outForgotten := s.outForgotten, hostScript := s.hostScript, hostData := s.hostData }
  | .doneFail => { State.reset with
      compSize := s.compSize, decompSize := s.decompSize, phase := s.phase, failCause := s.failCause, inMem := s.inMem,
      outMem := s.outMem, outForgotten := s.outForgotten, hostScript := s.hostScript, hostData := s.hostData }
  | .magic => { s with
      state1 := 0#32, state2 := 0#32, dstQuantumEnd := 0#32, firstLiteralPending := false, copyLength := 0#32,
      matchDist := 0#32, ret := 0#32 }
  | .qstart => { s with
      state1 := 0#32, state2 := 0#32, firstLiteralPending := false, copyLength := 0#32, matchDist := 0#32, ret := 0#32,
      dstQuantumEnd := if s.stage = .raw ∨ s.stage = .coded then s.dstQuantumEnd else 0#32 }
  | .qfirst => { s with copyLength := 0#32, matchDist := 0#32, ret := 0#32 }
  | .qbody => { s with
      firstLiteralPending := false, ret := 0#32,
      copyLength := if s.stage = .distance ∨ s.stage = .copy then s.copyLength else 0#32,
      matchDist := if s.stage = .copy then s.matchDist else 0#32 }

/-- The state with the distance cache replaced by its rank-ordered view under the identity permutation (R41). -/
def cacheNormal (s : State) : State :=
  { s with
    distMask := Params.distMaskInit
    recent := Vector.ofFn fun r : Fin 8 => s.recent[(rankSlot s.distMask r.val).val]'(rankSlot s.distMask r.val).isLt }

/-! ### The lzstep in one piece (R210), to be compared with the machine's operations one by one -/

/-- The distance of a match, by DCACHE (R225) or DNEW (R230). -/
def pseudoDistance (osym : Nat) (s : State) : Except Stop (Nat × State) :=
  if osym < 8 then
    .ok ((s.recent[(rankSlot s.distMask osym).val]'(rankSlot s.distMask osym).isLt).toNat,
      { s with distMask := mtfUpdate s.distMask osym })
  else do
    let (nb, s) ← decodeAndRenorm Params.default .obl s
    let (bits, s) ← rawBits Params.default (nb &&& 0xF) s
    let (bits, s) ←
      if 0x10 ≤ nb then do
        let (w, s) ← readUnit Params.default s
        pure ((bits <<< 16) ||| w.toNat, s)
      else pure (bits, s)
    let dist := (32 <<< nb) + (bits <<< 5) - (39 - osym)
    .ok (dist, { s with recent := missInsert s.distMask s.recent (BitVec.ofNat 32 dist) })

/-- COPY (R233 to R236) with the length and the distance passed as values. -/
def pseudoCopy (len dist : Nat) (s : State) : Except Stop State :=
  if dist = 0 ∨ s.dstCur.toNat < dist then
    .error (.failed (raiseFailure (.invalidDistance (BitVec.ofNat 32 dist) s.dstCur) s))
  else if s.dstEnd.toNat - s.dstCur.toNat < len then
    .error (.failed (raiseFailure (.outputOverflow (BitVec.ofNat 32 len) s.dstCur) s))
  else do
    let s ← copyWithinOut len s.dstCur.toNat dist s
    .ok { s with dstCur := s.dstCur + BitVec.ofNat 32 len, lastCopyOffset := BitVec.ofNat 32 dist }

/-- `lzstep` (R210), the temporaries passed as values and `p` sampled once (R291). -/
def pseudoLzstep (s : State) : Except Stop State := do
  let p := modelIndex s.dstCur
  let (sym, s) ← decodeAndRenorm Params.default (.lit p) s
  if sym < 256 then
    let base ← outByteBack s.dstCur.toNat s.lastCopyOffset.toNat s
    let s ← outWrite s.dstCur.toNat (BitVec.ofNat 8 (sym + base.toNat)) s
    .ok { s with dstCur := s.dstCur + 1#32 }
  else
    let (len, s) ←
      if sym < 288 then pure (sym - 254, s)
      else do
        let (extra, s) ← rawBits Params.default (sym - 287) s
        pure (extra + (1 <<< (sym - 287)) + 32, s)
    let (osym, s) ← decodeAndRenorm Params.default (.offLow p) s
    let (dist, s) ← pseudoDistance osym s
    pseudoCopy len dist s

end Sys2Proof.Machine
end

