-- ==== Sys2Proof/Certificates/Slice0/Obligations.lean ====
section
/-! DEFINITION. The statements for the provers, from the numbered rules of spec/. Each docstring names the rule. -/

open Sys2Proof Sys2Proof.Machine

/-! ### The host's side -/

/-- R24: STATUS is a function of `phase` alone, its upper bits are 0, and the host may read it in every state. The form of the
host's accesses is the model's choice (log 7). -/
def Obligations.StatusEncodesPhase : Prop :=
  ∀ s : State,
    (s.phase = .idle → statusWord s = 0#32) ∧
    (s.phase = .doneOk → statusWord s = 2#32) ∧
    (s.phase = .doneFail → statusWord s = 3#32) ∧
    (busy s = true → statusWord s = 1#32) ∧
    (busy s = true ↔ (s.phase ≠ .idle ∧ s.phase ≠ .doneOk ∧ s.phase ≠ .doneFail)) ∧
    (∀ u : State, u.phase = s.phase → statusWord u = statusWord s) ∧
    ∀ rest, s.hostScript = .readReg .status :: rest →
      step s = .next { s with hostScript := rest, hostData := statusWord s }

/-- R23: writing 1 to CTRL starts a decode, 0 does nothing, a reserved bit or BUSY is refused; CTRL reads 0. The form of the
host's accesses is the model's choice (log 7). -/
def Obligations.CtrlWriteStarts : Prop :=
  ∀ (s : State) (rest : List HostEvent),
    (∀ v, s.hostScript = .writeReg .ctrl v :: rest →
      (busy s = true → step s = .refused .hostAccessWhileBusy) ∧
      (busy s = false → v = 1#32 → step s = exec .start { s with hostScript := rest }) ∧
      (busy s = false → v = 0#32 → step s = .next { s with hostScript := rest }) ∧
      (busy s = false → 2 ≤ v.toNat → step s = .refused .reservedCtrlBit)) ∧
    (s.hostScript = .readReg .ctrl :: rest → step s = .next { s with hostScript := rest, hostData := 0#32 })

/-- R21, R22: while not BUSY a size register holds any value written to it and reads it back; nothing else changes. The form of
the host's accesses is the model's choice (log 7). -/
def Obligations.SizeRegistersReadBack : Prop :=
  ∀ (s : State) (v : Word) (rest : List HostEvent), busy s = false →
    (s.hostScript = .writeReg .compSize v :: .readReg .compSize :: rest →
      Host.Core.run Sys2Proof.core 2 s = .next { s with compSize := v, hostScript := rest, hostData := v }) ∧
    (s.hostScript = .writeReg .decompSize v :: .readReg .decompSize :: rest →
      Host.Core.run Sys2Proof.core 2 s = .next { s with decompSize := v, hostScript := rest, hostData := v })

/-- R74, R285: while not BUSY the host places bytes of IN and reads bytes of OUT; a byte written reads back and no other byte of
either space changes. That this holds at every 32-bit offset, also at or above the size registers, where R60 and R61 give no byte,
is the model's choice (log 26); an unwritten byte reads as a free value (log 5). The form of the host's accesses is the model's
choice (log 7). -/
def Obligations.HostBytesReadBack : Prop :=
  ∀ (s : State) (a : Word) (b : Byte) (rest : List HostEvent), busy s = false →
    (s.hostScript = .writeIn a b :: .readIn a :: rest →
      ∃ t, Host.Core.run Sys2Proof.core 2 s = .next t ∧ t.hostData = b.setWidth 32 ∧ inValue t a.toNat = b ∧
        (∀ a', a' ≠ a.toNat → inValue t a' = inValue s a') ∧
        t = { s with inMem := t.inMem, hostData := t.hostData, hostScript := rest }) ∧
    (s.hostScript = .writeOut a b :: .readOut a :: rest →
      ∃ t, Host.Core.run Sys2Proof.core 2 s = .next t ∧ t.hostData = b.setWidth 32 ∧ outValue t a.toNat = b ∧
        (∀ a', a' ≠ a.toNat → outValue t a' = outValue s a') ∧
        t = { s with outMem := t.outMem, hostData := t.hostData, hostScript := rest })

/-- R74, R288: while BUSY every host write of a register, every host read of a size register and every host access of IN or OUT is
refused, and so is START (R110). R74 and R288 name COMP_SIZE, DECOMP_SIZE, CTRL and the two spaces: that a write of the read-only
STATUS is refused too, and that a read of a size register is, is the model's choice (log 29). The form of the host's accesses is
the model's choice (log 7). -/
def Obligations.HostRefusedWhileBusy : Prop :=
  ∀ (s : State) (e : HostEvent) (rest : List HostEvent), busy s = true →
    exec .start s = .refused .hostAccessWhileBusy ∧
    (s.hostScript = e :: rest →
      ((∃ r v, e = .writeReg r v) ∨ e = .readReg .compSize ∨ e = .readReg .decompSize ∨ (∃ a b, e = .writeIn a b) ∨
        (∃ a, e = .readIn a) ∨ (∃ a b, e = .writeOut a b) ∨ (∃ a, e = .readOut a)) →
      step s = .refused .hostAccessWhileBusy)

/-- R46, R280: reset leaves IDLE and no cause, so STATUS reads 0. That a step with no host event leaves the state is the model's
choice (log 8). -/
def Obligations.ResetLeavesIdle : Prop :=
  State.reset.phase = .idle ∧ State.reset.failCause = .none ∧ statusWord State.reset = 0#32 ∧
    step State.reset = .next State.reset

/-- R280 with log 1 and log 28 (the model's choice of what the other registers, IN and an idle OUT hold): hardware reset at any
time leads to IDLE; a reset during BUSY leaves every byte of OUT unspecified (a free value again, log 4), any other reset leaves
OUT; IN and the bytes outside OUT are never touched. The form of the host's accesses is the model's choice (log 7). -/
def Obligations.HardwareResetAbandonsDecode : Prop :=
  ∀ (s : State) (rest : List HostEvent), s.hostScript = .hwReset :: rest →
    ∃ t, step s = .next t ∧ t.phase = .idle ∧ t.failCause = .none ∧ statusWord t = 0#32 ∧ t.inMem = s.inMem ∧
      t.hostScript = rest ∧
      (busy s = true → ∀ a, a < s.decompSize.toNat → outValue t a = Config.freeOutByte (outEpoch s a + 1) a) ∧
      (∀ a, s.decompSize.toNat ≤ a → outValue t a = outValue s a) ∧
      (busy s = false → t.outMem = s.outMem ∧ t.outForgotten = s.outForgotten)

/-- R264: in IDLE, DONE_OK and DONE_FAIL the engine does nothing. That this is a step is the model's choice (log 8). -/
def Obligations.QuiescentPhasesDoNothing : Prop :=
  ∀ s : State, busy s = false → s.hostScript = [] → step s = .next s

/-! ### START, MAGIC and failures -/

/-- R110, R112: a START whose preconditions hold sets all decoder state afresh and goes to MAGIC; the sizes and both spaces are
untouched. That `state1`, `state2`, `firstLiteralPending` and `dstQuantumEnd`, which R46 leaves without a value there, keep theirs
is the model's choice (log 36); the stage is the model's own field (log 2). The initial tables and the mask are the spec's
defaults for open parameters (log 15, log 18). The tables have no lookup margin, the default of LOOKUP_MARGIN (log 22). -/
def Obligations.StartInitializesDecoder : Prop :=
  ∀ s : State, busy s = false → 2 ≤ s.compSize.toNat → s.decompSize ≠ 0#32 →
    exec .start s = .next
      { s with
        phase := .magic, stage := .head, failCause := .none
        recent := Vector.replicate 8 1#32, distMask := 0xFAC688#24, lastCopyOffset := 1#32
        lit := Vector.replicate 4 (initModel Params.default .literal), offLow := Vector.replicate 4 (initModel Params.default .offsetLow)
        obl := initModel Params.default .offsetBitLength
        srcCur := 0#32, srcEnd := s.compSize, dstStart := 0#32, dstCur := 0#32, dstEnd := s.decompSize }

/-- R131 to R135: the initial tables of the three classes. The tables are the spec's defaults for open parameters (log 15). -/
def Obligations.InitialModelTables : Prop :=
  (∀ i, i ≤ 263 → (initModel Params.default .literal).bound i = 32732 * i / 264) ∧
  (∀ i, 264 ≤ i → i ≤ 300 → (initModel Params.default .literal).bound i = 32468 + i) ∧
  (∀ i, i ≤ 40 → (initModel Params.default .offsetLow).bound i = 32768 * i / 40) ∧
  (∀ i, i ≤ 21 → (initModel Params.default .offsetBitLength).bound i = 32768 * i / 21) ∧
  ∀ c, (initModel Params.default c).frequency = List.replicate c.alphabet 1 ∧ (initModel Params.default c).adaptCounter = 1024 ∧
    ∀ b, b < Params.lookupSize c →
      symOf (initModel Params.default c).cdf (b <<< Params.lookupShift c) = some ((initModel Params.default c).lookup.getD b 0)

/-- R111, R255: a START with COMP_SIZE below 2 or DECOMP_SIZE zero ends in DONE_FAIL with cause Precondition, before any decoder
state is initialized. That every decoder register then keeps its value, where R256 leaves it unspecified, is the model's choice
(log 6); so are the stage and the list that selects the free bytes of OUT (log 2, log 4). -/
def Obligations.StartFailsPrecondition : Prop :=
  ∀ s : State, busy s = false → (s.compSize.toNat < 2 ∨ s.decompSize = 0#32) →
    ∃ t, exec .start s = .next t ∧
      t = { s with
        phase := .doneFail, stage := .head, failCause := .precondition, outMem := t.outMem, outForgotten := t.outForgotten } ∧
      causeCode t.failCause = 1

/-- R256, R72: a failure records its cause, makes STATUS 3, leaves IN and the sizes, and makes every byte of OUT unspecified;
bytes outside OUT, written or not, are untouched (R69). That an unspecified byte reads as a new free value is the model's choice
(log 4). -/
def Obligations.FailureMakesOutUnspecified : Prop :=
  ∀ (c : FailCause) (s : State),
    (raiseFailure c s).failCause = c ∧ (raiseFailure c s).phase = .doneFail ∧ statusWord (raiseFailure c s) = 3#32 ∧
    (raiseFailure c s).inMem = s.inMem ∧ (raiseFailure c s).compSize = s.compSize ∧
    (raiseFailure c s).decompSize = s.decompSize ∧
    (∀ a, a < s.decompSize.toNat →
      outValue (raiseFailure c s) a = Config.freeOutByte (outEpoch s a + 1) a) ∧
    (∀ a, s.decompSize.toNat ≤ a →
      outValue (raiseFailure c s) a = outValue s a ∧ memRead (raiseFailure c s).outMem a = memRead s.outMem a)

/-- R114 with MAGIC_OFFSET 0 (log 14): the first unit must be 0x75B1, bytes B1 75 (log 13); it is skipped. What the registers hold
after the failure is the model's choice (log 6). The stage is the model's own field (log 2). That an unspecified byte of OUT reads
as a new free value is the model's choice (log 4). -/
def Obligations.MagicChecksFirstUnit : Prop :=
  ∀ s : State, 2 ≤ s.srcEnd.toNat → s.srcEnd.toNat ≤ s.compSize.toNat →
    (unitAt s 0 = 0x75B1#16 → exec .magic s = .next { s with srcCur := 2#32, phase := .qstart, stage := .head }) ∧
    (unitAt s 0 ≠ 0x75B1#16 →
      exec .magic s = .next (raiseFailure (.formatMagic (unitAt s 0)) { s with srcCur := 2#32 })) ∧
    (unitAt s 0 = 0x75B1#16 ↔ inValue s 0 = 0xB1#8 ∧ inValue s 1 = 0x75#8)

/-- R160, R250, R251: a 16-bit read with fewer than two bytes left fails with InputTruncation at `srcCur`, in READ16, QSTART,
QHDR, and wherever a `Renorm` has to refill: in RENORM, RAWBITS, NBITS and after the symbol that selects an operation of the body
(R164); no byte is read and the cursor stays. That raw bits are shifted out at the low end is the spec's decision D21 (log 34);
what the registers hold then is the model's choice (log 6). A cursor above its end counts as nothing left (log 38). The update of
a model is the one at the spec's defaults (log 16, log 22). That the symbol's decode and `Renorm` belong to the step is log 3; the
stage is the model's own field (log 2). That an unspecified byte of OUT reads as a new free value is the model's choice (log 4). -/
def Obligations.TruncatedReadsFail : Prop :=
  ∀ s : State,
    (inputLeft s < 2 →
      exec .read16 s = .next (truncated s) ∧ exec .qhdr s = .next (truncated s) ∧
      (∃ q, exec .qstart s = .next (truncated { s with dstQuantumEnd := q })) ∧
      (s.state1.toNat < 0x10000 → exec .renorm s = .next (truncated s))) ∧
    (∀ k : BitVec 4, ¬ renormReady (withoutLowBits k.toNat s) →
      exec (.rawbits k) s = .next (truncated (withoutLowBits k.toNat s))) ∧
    (∀ nb, ModelInv .offsetBitLength s.obl → nextSymbol .obl s = some nb → ¬ renormReady (afterDecode .obl nb s) →
      exec .nbits s = .next (truncated (afterDecode .obl nb s))) ∧
    (∀ m sym, s.hostScript = [] → s.phase = .qbody →
      ((s.stage = .head ∧ s.dstCur < s.dstQuantumEnd ∧ m = .lit (modelIndex s.dstCur)) ∨
        (s.stage = .distance ∧ m = .offLow (modelIndex s.dstCur))) →
      ModelInv m.cls (s.model m) → nextSymbol m s = some sym → ¬ renormReady (afterDecode m sym s) →
      step s = .next (truncated (afterDecode m sym s)))

/-- R186, R230, R250, R251, R260: QHDR and DNEW, which read several units, fail with InputTruncation at the first read that finds
fewer than two bytes. QHDR: at w0, w1 or, after a legal header value, x1, x2 or x3, the cursor past the units it has read. DNEW:
at the `Renorm` of its bit count, at the `Renorm` of its raw bits, or at its direct unit. The raw bits are the low bits of
`state1` by the spec's decision D21 (log 34); the units are little-endian (log 13); what the registers hold after the failure is
the model's choice (log 6). A cursor above its end counts as nothing left (log 38). The update of a model is the one at the spec's
defaults (log 16, log 22). That an unspecified byte of OUT reads as a new free value is the model's choice (log 4). -/
def Obligations.MissingUnitFailsHeaderAndDistance : Prop :=
  ∀ s : State, s.srcEnd.toNat ≤ s.compSize.toNat →
    (∀ p v n a0 k1 a k2 : Nat,
      p = s.srcCur.toNat →
      v = (unitAt s p).toNat * 65536 + (unitAt s (p + 2)).toNat →
      n = v % 16 → a0 = v / 16 →
      k1 = (if a0 < 65536 then 1 else 0) →
      a = (if a0 < 65536 then a0 * 65536 + (unitAt s (p + 4)).toNat else a0) →
      k2 = (if a / 2 ^ n < 65536 then 1 else 0) →
      (inputLeft s < 4 ∨ 65536 ≤ v ∧ inputLeft s < 6 + 2 * k1 + 2 * k2) →
      exec .qhdr s = .next (truncated { s with srcCur := s.srcCur + BitVec.ofNat 32 (inputLeft s / 2 * 2) })) ∧
    (∀ i osym nb, dnewOf i osym → ModelInv .offsetBitLength s.obl → nextSymbol .obl s = some nb →
      (¬ renormReady (afterDecode .obl nb s) → exec i s = .next (truncated (afterDecode .obl nb s))) ∧
      (renormReady (afterDecode .obl nb s) → ∀ u, u = withoutLowBits (nb % 16) (afterRenorm (afterDecode .obl nb s)) →
        (¬ renormReady u → exec i s = .next (truncated u)) ∧
        (renormReady u → 16 ≤ nb → inputLeft (afterRenorm u) < 2 → exec i s = .next (truncated (afterRenorm u)))))

/-! ### Quanta -/

/-- R181: the size of a quantum for both values of the parameter, that it is 1 to 65536 and stays inside the output, and that the
two agree where the quantum starts at a multiple of 65536. -/
def Obligations.QuantumSizeRule : Prop :=
  ∀ cur fin : Nat, cur < fin →
    quantumSize .relative cur fin = min 65536 (fin - cur) ∧
    quantumSize .aligned cur fin = min fin (cur - cur % 65536 + 65536) - cur ∧
    (∀ b, 1 ≤ quantumSize b cur fin ∧ quantumSize b cur fin ≤ 65536 ∧ cur + quantumSize b cur fin ≤ fin) ∧
    (cur % 65536 = 0 → quantumSize .aligned cur fin = quantumSize .relative cur fin)

/-- R180 with QUANTUM_BOUNDARY relative (log 17): QSTART fixes the quantum's end and peeks the marker, which selects QRAW or QHDR;
the input cursor stays. The stage is the model's own field (log 2). -/
def Obligations.QstartSelectsByMarker : Prop :=
  ∀ s : State, s.dstCur < s.dstEnd → 2 ≤ inputLeft s → s.srcEnd.toNat ≤ s.compSize.toNat →
    ∃ t, exec .qstart s = .next t ∧
      t.dstQuantumEnd.toNat = s.dstCur.toNat + min 65536 (s.dstEnd.toNat - s.dstCur.toNat) ∧
      t = { s with
        dstQuantumEnd := t.dstQuantumEnd
        stage := if unitAt s s.srcCur.toNat = 0#16 then .raw else .coded }

/-- R182, R183: QRAW copies the quantum's bytes verbatim, changes no other byte of OUT and nothing but the cursors, and goes on by
AfterQuantum (R115). That the last quantum ends in DONE_OK whatever input is left rests on TRAILING_INPUT = ignore (log 23). The
stage is the model's own field (log 2). -/
def Obligations.QrawCopiesVerbatim : Prop :=
  ∀ (s : State) (n : Nat), s.dstQuantumEnd.toNat = s.dstCur.toNat + n → s.srcCur.toNat + 2 + n ≤ s.srcEnd.toNat →
    s.srcEnd.toNat ≤ s.compSize.toNat → s.dstQuantumEnd.toNat ≤ s.decompSize.toNat →
    ∃ t, exec .qraw s = .next t ∧
      (∀ i, i < n → memRead t.outMem (s.dstCur.toNat + i) = some (inValue s (s.srcCur.toNat + 2 + i))) ∧
      (∀ a, (a < s.dstCur.toNat ∨ s.dstCur.toNat + n ≤ a) → memRead t.outMem a = memRead s.outMem a) ∧
      t.srcCur.toNat = s.srcCur.toNat + 2 + n ∧
      t = { s with
        outMem := t.outMem
        srcCur := t.srcCur
        dstCur := s.dstQuantumEnd
        phase := if s.dstQuantumEnd < s.dstEnd then .qstart else .doneOk
        stage := .head }

/-- R182, R251: when fewer bytes than the quantum remain, QRAW fails after its marker and copies nothing. What the registers hold
after the failure is the model's choice (log 6). That an unspecified byte of OUT reads as a new free value is the model's choice
(log 4). -/
def Obligations.QrawTruncatedFails : Prop :=
  ∀ (s : State) (n : Nat), s.dstQuantumEnd.toNat = s.dstCur.toNat + n → s.srcCur.toNat + 2 ≤ s.srcEnd.toNat →
    s.srcEnd.toNat < s.srcCur.toNat + 2 + n →
    exec .qraw s =
      .next (raiseFailure (.inputTruncation (s.srcCur + 2#32)) { s with srcCur := s.srcCur + 2#32 })

/-- R186 to R188 and the closed form of R93: with all its units there, QHDR loads both states, at least 0x10000 each, consumes 6,
8 or 10 bytes by the two tests of R84, sets the flag, and changes nothing else. The units are little-endian (log 13). The stage is
the model's own field (log 2). -/
def Obligations.QhdrReconstructsStates : Prop :=
  ∀ (s : State) (p v n a0 k1 a k2 : Nat), s.srcEnd.toNat ≤ s.compSize.toNat →
    p = s.srcCur.toNat →
    v = (unitAt s p).toNat * 65536 + (unitAt s (p + 2)).toNat →
    65536 ≤ v → n = v % 16 → a0 = v / 16 →
    k1 = (if a0 < 65536 then 1 else 0) →
    a = (if a0 < 65536 then a0 * 65536 + (unitAt s (p + 4)).toNat else a0) →
    k2 = (if a / 2 ^ n < 65536 then 1 else 0) →
    6 + 2 * k1 + 2 * k2 ≤ inputLeft s →
    ∃ t, exec .qhdr s = .next t ∧
      t.state1.toNat =
        (if a / 2 ^ n < 65536 then a / 2 ^ n * 65536 + (unitAt s (p + 4 + 2 * k1)).toNat else a / 2 ^ n) ∧
      t.state2.toNat = 2 ^ (n + 16) + a % 2 ^ n * 65536 + (unitAt s (p + 4 + 2 * k1 + 2 * k2)).toNat ∧
      coderReady t ∧
      t.srcCur.toNat = p + 6 + 2 * k1 + 2 * k2 ∧
      t = { s with
        state1 := t.state1, state2 := t.state2, srcCur := t.srcCur, firstLiteralPending := true, phase := .qfirst
        stage := .head }

/-- R186, R94: a header value below 0x10000 (first unit 0) is rejected after its two units. What the registers hold after the
failure is the model's choice (log 6). The units are little-endian (log 13). That an unspecified byte of OUT reads as a new free
value is the model's choice (log 4). -/
def Obligations.QhdrRejectsLowHeader : Prop :=
  ∀ s : State, s.srcEnd.toNat ≤ s.compSize.toNat → 4 ≤ inputLeft s → unitAt s s.srcCur.toNat = 0#16 →
    exec .qhdr s =
      .next (raiseFailure (.formatHeader ((unitAt s (s.srcCur.toNat + 2)).setWidth 32)) { s with srcCur := s.srcCur + 4#32 })

/-- R190: FIRSTLIT writes the low byte of `state1` to OUT, shifts it out, renormalizes, clears the flag and enters the body; no
other byte, no model and no `lastCopyOffset` changes. Without input for the `Renorm` the decode fails. With the flag clear it only
enters the body. A refill's unit is little-endian (log 13). What the registers hold after the failure is the model's choice (log
6). A cursor above its end counts as nothing left (log 38). The stage is the model's own field (log 2). That an unspecified byte
of OUT reads as a new free value is the model's choice (log 4). -/
def Obligations.FirstlitEmitsRawByte : Prop :=
  ∀ s : State,
    (s.firstLiteralPending = true → s.srcEnd.toNat ≤ s.compSize.toNat → renormReady (withoutLowBits 8 s) →
      s.dstCur.toNat < s.decompSize.toNat →
      ∃ t, exec .firstlit s = .next t ∧
        memRead t.outMem s.dstCur.toNat = some (BitVec.ofNat 8 s.state1.toNat) ∧
        (∀ a, a ≠ s.dstCur.toNat → memRead t.outMem a = memRead s.outMem a) ∧
        t = { afterRenorm (withoutLowBits 8 s) with
          outMem := t.outMem, dstCur := s.dstCur + 1#32, firstLiteralPending := false, phase := .qbody
          stage := .head }) ∧
    (s.firstLiteralPending = true → ¬ renormReady (withoutLowBits 8 s) →
      exec .firstlit s = .next (raiseFailure (.inputTruncation s.srcCur) (withoutLowBits 8 s))) ∧
    (s.firstLiteralPending = false → exec .firstlit s = .next { s with phase := .qbody, stage := .head })

/-- R194, R115: QEND passes exactly when both states are 0x10000, then AfterQuantum decides; otherwise the decode fails. That the
last quantum ends in DONE_OK whatever input is left rests on TRAILING_INPUT = ignore (R117, log 23); under any parameters with the
setting `fail` left-over input fails the decode instead (D14), and an input used up does not. What the registers hold after the
failure is the model's choice (log 6). The stage is the model's own field (log 2). That an unspecified byte of OUT reads as a new
free value is the model's choice (log 4). -/
def Obligations.QendChecksBothStates : Prop :=
  ∀ s : State,
    (∀ P : Parameters, P.trailingInput = .fail → s.state1 = 0x10000#32 → s.state2 = 0x10000#32 →
      (s.dstCur < s.dstEnd → execUnder P .qend s = .next { s with phase := .qstart, stage := .head }) ∧
      (s.dstEnd ≤ s.dstCur → s.srcCur = s.srcEnd → execUnder P .qend s = .next { s with phase := .doneOk, stage := .head }) ∧
      (s.dstEnd ≤ s.dstCur → s.srcCur ≠ s.srcEnd →
        execUnder P .qend s = .next (raiseFailure (.trailingInput s.srcCur) s))) ∧
    (s.state1 = 0x10000#32 → s.state2 = 0x10000#32 →
      exec .qend s = .next
        { s with phase := if s.dstCur < s.dstEnd then .qstart else .doneOk, stage := .head }) ∧
    ((s.state1 ≠ 0x10000#32 ∨ s.state2 ≠ 0x10000#32) →
      exec .qend s = .next (raiseFailure (.formatEndstate s.state1 s.state2) s))

/-! ### Literals and matches -/

/-- R212, R213: LIT writes the delta plus the byte `lastCopyOffset` back, mod 256, at the cursor; nothing else changes. -/
def Obligations.LitAddsDelta : Prop :=
  ∀ (delta : BitVec 8) (s : State), 1 ≤ s.lastCopyOffset.toNat → s.lastCopyOffset.toNat ≤ s.dstCur.toNat →
    s.dstCur.toNat < s.decompSize.toNat →
    ∃ t, exec (.lit delta) s = .next t ∧
      (memRead t.outMem s.dstCur.toNat).map BitVec.toNat =
        some ((delta.toNat + (outValue s (s.dstCur.toNat - s.lastCopyOffset.toNat)).toNat) % 256) ∧
      (∀ a, a ≠ s.dstCur.toNat → memRead t.outMem a = memRead s.outMem a) ∧
      t.dstCur.toNat = s.dstCur.toNat + 1 ∧
      t = { s with outMem := t.outMem, dstCur := t.dstCur }

/-- R216: MATCHS gives a length of 2..33, the symbol less 254, and consumes nothing. The length is carried in the model's own
field (log 2). -/
def Obligations.MatchsGivesShortLength : Prop :=
  ∀ (code : BitVec 5) (s : State), ∃ t, exec (.matchs code) s = .next t ∧
    t.copyLength.toNat = (256 + code.toNat) - 254 ∧ 2 ≤ t.copyLength.toNat ∧ t.copyLength.toNat ≤ 33 ∧
    t = { s with copyLength := t.copyLength, stage := .distance }

/-- R218: MATCHX takes `nb` low bits of `state1` and gives the length `extra + (1 << nb) + 32`, 34..8223; without input for its
`Renorm` the decode fails. R218 does not say which bits: that they are the low ones is the spec's decision D21 in R166 (log 34). A
refill's unit is little-endian (log 13); what the registers hold after the failure is the model's choice (log 6). The length is
carried in the model's own field (log 2). A cursor above its end counts as nothing left (log 38). That an unspecified byte of OUT
reads as a new free value is the model's choice (log 4). -/
def Obligations.MatchxGivesExtendedLength : Prop :=
  ∀ (code : BitVec 4) (s : State) (nb : Nat), code.toNat ≤ 11 → nb = code.toNat + 1 →
    s.srcEnd.toNat ≤ s.compSize.toNat →
    (renormReady (withoutLowBits nb s) → ∃ t, exec (.matchx code) s = .next t ∧
      t.copyLength.toNat = s.state1.toNat % 2 ^ nb + 2 ^ nb + 32 ∧
      34 ≤ t.copyLength.toNat ∧ t.copyLength.toNat ≤ 8223 ∧
      t = { afterRenorm (withoutLowBits nb s) with copyLength := t.copyLength, stage := .distance }) ∧
    (¬ renormReady (withoutLowBits nb s) →
      exec (.matchx code) s = .next (raiseFailure (.inputTruncation s.srcCur) (withoutLowBits nb s)))

/-- R91: the length ranges tile without gap or overlap, 2..33 by MATCHS and 34..8223 by MATCHX. -/
def Obligations.MatchLengthsTile : Prop :=
  (∀ len, (∃ sym, 256 ≤ sym ∧ sym ≤ 287 ∧ shortLength sym = len) ↔ (2 ≤ len ∧ len ≤ 33)) ∧
  (∀ nb extra, extendedLength nb extra = extra + 2 ^ nb + 32) ∧
  (∀ sym, 288 ≤ sym → sym ≤ 299 → 1 ≤ extendedBits sym ∧ extendedBits sym ≤ 12 ∧ extendedBits sym = sym - 287) ∧
  ∀ len, 34 ≤ len → len ≤ 8223 →
    ∃! q : Nat × Nat, 1 ≤ q.1 ∧ q.1 ≤ 12 ∧ q.2 < 2 ^ q.1 ∧ extendedLength q.1 q.2 = len

/-- R231, with the tiling of R92: a new distance lies in `32 * 2^nb - 31 .. 64 * 2^nb - 32`, overall 1..67108832, and every
distance of that range has exactly one `(nb, bits, osym)`. -/
def Obligations.NewDistancesTile : Prop :=
  (∀ nb bits osym, nb ≤ 20 → bits < 2 ^ nb → 8 ≤ osym → osym ≤ 39 →
    32 * 2 ^ nb - 31 ≤ newDistance nb bits osym ∧ newDistance nb bits osym ≤ 64 * 2 ^ nb - 32 ∧
      1 ≤ newDistance nb bits osym ∧ newDistance nb bits osym ≤ 67108832) ∧
  ∀ d, 1 ≤ d → d ≤ 67108832 →
    ∃! q : Nat × Nat × Nat, q.1 ≤ 20 ∧ q.2.1 < 2 ^ q.1 ∧ 8 ≤ q.2.2 ∧ q.2.2 ≤ 39 ∧ newDistance q.1 q.2.1 q.2.2 = d

/-- R226: MTF_UPDATE moves the slot of rank `k` to rank 0 and the ranks below one up; the ranks above stay (log 19). -/
def Obligations.MtfMovesToFront : Prop :=
  (∀ (mask : BitVec 24) (k : Nat), k < 8 →
    rankSlot (mtfUpdate mask k) 0 = rankSlot mask k ∧
    (∀ r, r < k → rankSlot (mtfUpdate mask k) (r + 1) = rankSlot mask r) ∧
    (∀ r, k < r → r < 8 → rankSlot (mtfUpdate mask k) r = rankSlot mask r)) ∧
  mtfUpdate 0xFAC688#24 0 = 0xFAC688#24 ∧ mtfUpdate 0xFAC688#24 1 = 0xFAC681#24 ∧
  mtfUpdate 0xFAC688#24 3 = 0xFAC443#24 ∧ mtfUpdate 0xFAC688#24 7 = 0xD63447#24

/-- R227: `distMask` is a permutation at START and MTF_UPDATE keeps it one. DISTMASK_INIT and MTF_UPDATE are at the spec's
defaults (log 18, log 19). -/
def Obligations.MaskStaysPermutation : Prop :=
  maskIsPermutation Params.distMaskInit ∧
  ∀ (mask : BitVec 24) (k : Nat), k < 8 → maskIsPermutation mask → maskIsPermutation (mtfUpdate mask k)

/-- R225: DCACHE returns the distance of the rank and moves it to the front of the rank-ordered view (R41); the distances
themselves, the coder, the models and both spaces stay. The new order is the default of MTF_UPDATE (log 19). The distance is
carried in the model's own field (log 2). -/
def Obligations.DcacheMovesDistanceToFront : Prop :=
  ∀ (rank : BitVec 3) (s : State), ∃ t, exec (.dcache rank) s = .next t ∧
    (cacheView s.distMask s.recent)[rank.toNat]? = some t.matchDist ∧
    cacheView t.distMask t.recent = t.matchDist :: (cacheView s.distMask s.recent).eraseIdx rank.toNat ∧
    t = { s with distMask := t.distMask, matchDist := t.matchDist, stage := .copy }

/-- R232 in the view of R41: `L[7] <- L[6]; L[6] <- d`, ranks 0..5 keep their distances (log 20). -/
def Obligations.MissInsertShiftsOldest : Prop :=
  ∀ (mask : BitVec 24) (recent : Vector Word 8) (d l6 : Word), maskIsPermutation mask →
    (cacheView mask recent)[6]? = some l6 →
    cacheView mask (missInsert mask recent d) = ((cacheView mask recent).take 6) ++ [d, l6]

/-- R230: the three rows of DNEW. The bit count is the OBL symbol; its low four bits count the raw bits of `state1`, which are its
low bits by the spec's decision D21 in R166 (log 34); from 16 on a direct unit follows as the low 16 bits (log 21), little-endian
like a refill's (log 13); the distance is `32 * 2^nb + bits * 32 + osym - 39`, it is inserted (R232, log 20), and nothing but the
coder, the OBL model, the input cursor and the cache changes. The distance is carried in the model's own field (log 2). The update
of a model is the one at the spec's defaults (log 16, log 22). -/
def Obligations.DnewAssemblesDistance : Prop :=
  ∀ (i : Instr) (osym : Nat) (s : State) (nb : Nat),
    ((∃ c, i = .dnewLow c ∧ osym = 8 + c.toNat) ∨ (∃ c, i = .dnewMid c ∧ osym = 16 + c.toNat) ∨
      (∃ c, i = .dnewHigh c ∧ osym = 32 + c.toNat)) →
    ModelInv .offsetBitLength s.obl → s.srcEnd.toNat ≤ s.compSize.toNat → nextSymbol .obl s = some nb →
    renormReady (afterDecode .obl nb s) →
    ∀ u, u = afterRenorm (afterDecode .obl nb s) → renormReady (withoutLowBits (nb % 16) u) →
    ∀ w, w = afterRenorm (withoutLowBits (nb % 16) u) → (16 ≤ nb → 2 ≤ inputLeft w) →
    ∀ bits, bits = (if nb < 16 then u.state1.toNat % 2 ^ nb
        else u.state1.toNat % 2 ^ (nb - 16) * 65536 + (unitAt w w.srcCur.toNat).toNat) →
    ∃ t, exec i s = .next t ∧ nb ≤ 20 ∧ bits < 2 ^ nb ∧
      t.matchDist.toNat = 32 * 2 ^ nb + bits * 32 + osym - 39 ∧
      t = { w with
        srcCur := if nb < 16 then w.srcCur else w.srcCur + 2#32
        recent := missInsert s.distMask s.recent t.matchDist
        matchDist := t.matchDist
        stage := .copy }

/-- R229: NBITS decodes the OBL symbol, 0..20, and renormalizes; the value is returned (in `ret`, log 9). A refill's unit is
little-endian (log 13). The update of a model is the one at the spec's defaults (log 16, log 22). -/
def Obligations.NbitsDecodesBitCount : Prop :=
  ∀ (s : State) (nb : Nat), ModelInv .offsetBitLength s.obl → s.srcEnd.toNat ≤ s.compSize.toNat →
    nextSymbol .obl s = some nb → renormReady (afterDecode .obl nb s) →
    nb ≤ 20 ∧ exec .nbits s = .next { afterRenorm (afterDecode .obl nb s) with ret := BitVec.ofNat 32 nb }

/-- R235, R236: a valid COPY repeats the last `matchDist` bytes periodically over `copyLength` bytes at the cursor, advances the
cursor, and makes the distance the new `lastCopyOffset`; no other byte and nothing else changes. The stage is the model's own
field (log 2). -/
def Obligations.CopyRepeatsPeriodically : Prop :=
  ∀ (len dist : Word) (s : State), 1 ≤ dist.toNat → dist.toNat ≤ s.dstCur.toNat →
    len.toNat ≤ s.dstEnd.toNat - s.dstCur.toNat → s.dstEnd.toNat ≤ s.decompSize.toNat →
    ∃ t, exec (.copy len dist) s = .next t ∧
      (∀ i, i < len.toNat →
        memRead t.outMem (s.dstCur.toNat + i) = some (outValue s (s.dstCur.toNat - dist.toNat + i % dist.toNat))) ∧
      (∀ a, (a < s.dstCur.toNat ∨ s.dstCur.toNat + len.toNat ≤ a) → memRead t.outMem a = memRead s.outMem a) ∧
      t = { s with outMem := t.outMem, dstCur := s.dstCur + len, lastCopyOffset := dist, stage := .head }

/-- R233, R234, R253, R254, R260: COPY validates the distance first, then the length against `dstEnd`, before any byte is copied.
The order is the spec's decision D23 (log 34); what the registers hold after the failure is the model's choice (log 6). A cursor
above its end counts as nothing left (log 38). That an unspecified byte of OUT reads as a new free value is the model's choice
(log 4). -/
def Obligations.CopyValidatesInOrder : Prop :=
  ∀ (len dist : Word) (s : State),
    ((dist = 0#32 ∨ s.dstCur < dist) →
      exec (.copy len dist) s = .next (raiseFailure (.invalidDistance dist s.dstCur) s)) ∧
    (dist ≠ 0#32 → dist ≤ s.dstCur → s.dstEnd.toNat - s.dstCur.toNat < len.toNat →
      exec (.copy len dist) s = .next (raiseFailure (.outputOverflow len s.dstCur) s))

/-! ### The adaptive models -/

/-- R148: with a guess not above the symbol, the search of R140 finds `Sym(cdf, r)`, whose interval holds the residue. R36, R147: for
no residue does it read the margin past the last block, whatever LOOKUP_MARGIN is and the margin holds, and `FillLookup` gives the
blocks themselves the same entries under every margin. -/
def Obligations.SearchFindsContainingSymbol : Prop :=
  (∀ (c : ModelClass) (M : AdaptiveModel) (r t : Nat), M.bound 0 = 0 → symOf M.cdf r = some t →
    M.lookup.getD (r >>> Params.lookupShift c) 0 ≤ t →
    searchSymbol c M r = some t ∧ M.bound t ≤ r ∧ r < M.bound (t + 1)) ∧
  (∀ (c : ModelClass) (M N : AdaptiveModel) (r : Nat), r < 32768 → M.cdf = N.cdf →
    M.lookup.take (Params.lookupSize c) = N.lookup.take (Params.lookupSize c) → searchSymbol c M r = searchSymbol c N r) ∧
  ∀ (P : Parameters) (c : ModelClass) (cdf : List Nat),
    (fillLookup P c cdf).length = Params.lookupSize c + P.lookupMargin ∧
      (fillLookup P c cdf).take (Params.lookupSize c) = fillLookup { P with lookupMargin := 0 } c cdf

/-- R140, R141: from a coder state of at least 0x10000 and a table that meets R37, DECODESYM leaves in `state1` the natural number
of step 5, so nothing is lost to the register's 32 bits, and it is at least 2. The symbol is returned in the model's own field
`ret` (log 9). -/
def Obligations.DecodedStateInRange : Prop :=
  ∀ (m : ModelId) (s : State), ModelInv m.cls (s.model m) → 0x10000 ≤ s.state1.toNat →
    ∃ t, exec (.decodesym m) s = .next t ∧ 2 ≤ t.state1.toNat ∧ t.state1.toNat < 2 ^ 32 ∧
      (s.model m).bound t.ret.toNat ≤ s.state1.toNat % 32768 ∧
      t.state1.toNat =
        s.state1.toNat / 32768 * ((s.model m).bound (t.ret.toNat + 1) - (s.model m).bound t.ret.toNat)
          + (s.state1.toNat % 32768 - (s.model m).bound t.ret.toNat)

/-- R140: DECODESYM completes on any model that meets R37, returns the symbol whose interval holds the residue (in `ret`, log 9),
and changes `state1` and that model alone (R34). The update is the one at the spec's defaults (log 16, log 22). -/
def Obligations.DecodesymDecodesResidue : Prop :=
  ∀ (m : ModelId) (s : State), ModelInv m.cls (s.model m) →
    ∃ sym, sym < m.cls.alphabet ∧ (s.model m).bound sym ≤ s.state1.toNat % 32768 ∧
      s.state1.toNat % 32768 < (s.model m).bound (sym + 1) ∧
      exec (.decodesym m) s = .next { afterDecode m sym s with ret := BitVec.ofNat 32 sym } ∧
      (afterDecode m sym s).model m = updateModel Params.default m.cls (s.model m) sym ∧
      (∀ k, k ≠ m → (afterDecode m sym s).model k = s.model k) ∧
      afterDecode m sym s =
        { s with
          state1 := BitVec.ofNat 32 (decodedState1 (s.model m) sym s.state1.toNat)
          lit := (afterDecode m sym s).lit
          offLow := (afterDecode m sym s).offLow
          obl := (afterDecode m sym s).obl }

/-- R142: every DecodeSym adds exactly 31 to the frequency of the symbol it returns and to no other, after the state update and
before the counter test; the rebuild that the test asks for sees the sum (what that rebuild computes is not claimed here). It is
said under every parameters, of the update by itself and of DecodeSym on a table with the ends and the order of R37 and a lookup
guess not above the symbol (R148). The counter is R143's: down by one, to 0 only with a rebuild, no other model's. -/
def Obligations.UpdateCountsThenRebuilds : Prop :=
  (∀ (P : Parameters) (c : ModelClass) (M : AdaptiveModel) (sym : Nat), M.frequency.length = c.alphabet → sym < c.alphabet →
    (2 ≤ M.adaptCounter →
      (updateModel P c M sym).frequency.getD sym 0 = M.frequency.getD sym 0 + 31 ∧
      (∀ k, k ≠ sym → (updateModel P c M sym).frequency.getD k 0 = M.frequency.getD k 0) ∧
      (updateModel P c M sym).adaptCounter = M.adaptCounter - 1 ∧
      (updateModel P c M sym).cdf = M.cdf ∧ (updateModel P c M sym).lookup = M.lookup) ∧
    (M.adaptCounter = 1 →
      updateModel P c M sym =
        rebuildModel P c { M with frequency := M.frequency.set sym (M.frequency.getD sym 0 + 31), adaptCounter := 0 } sym)) ∧
  ∀ (P : Parameters) (m : ModelId) (s : State), (s.model m).cdf.length = m.cls.alphabet + 1 → (s.model m).bound 0 = 0 →
    (s.model m).bound m.cls.alphabet = 32768 → (s.model m).cdf.Pairwise (· ≤ ·) →
    (∀ t, nextSymbol m s = some t →
      (s.model m).lookup.getD ((s.state1.toNat % 32768) >>> Params.lookupShift m.cls) 0 ≤ t) →
    ∃ sym u, decodeSymbol P m s = .ok (sym, u) ∧ sym < m.cls.alphabet ∧ nextSymbol m s = some sym ∧
      u.state1 = BitVec.ofNat 32 (decodedState1 (s.model m) sym s.state1.toNat) ∧
      u.model m = updateModel P m.cls (s.model m) sym ∧ ∀ k, k ≠ m → u.model k = s.model k

/-- R146: the frequencies a rebuild sums are 32769 in all, so `cdf[n]` stays 32768, and `cdf[0]` stays 0. HALF is the floor (log
16). -/
def Obligations.RebuildTotalIsFixed : Prop :=
  ∀ (c : ModelClass) (M : AdaptiveModel) (sym : Nat), ModelInv c M → sym < c.alphabet → M.adaptCounter = 1 →
    (biasedFrequency c (countSymbol M sym) sym).sum = 32769 ∧
    (updateModel Params.default c M sym).bound c.alphabet = 32768 ∧ (updateModel Params.default c M sym).bound 0 = 0

/-- R37, R149: every symbol decode keeps the model invariants, strictly rising tables and the frequency total among them (HALF is
the floor, log 16). The lookup table has no margin, the default of LOOKUP_MARGIN (log 22). -/
def Obligations.UpdateKeepsModelInvariant : Prop :=
  ∀ (c : ModelClass) (M : AdaptiveModel) (sym : Nat), ModelInv c M → sym < c.alphabet →
    ModelInv c (updateModel Params.default c M sym)

/-- R144, R145, R147: REBUILD completes; each bound becomes the floor of the mean of the running frequency sum (bias included) and
the old bound; frequencies return to 1, the counter to 1024, the lookup table is filled anew; only that model changes. The floor
is HALF's default (log 16). A symbol outside the alphabet gets no bias, the model's choice (log 38). -/
def Obligations.RebuildSmoothsTable : Prop :=
  ∀ (m : ModelId) (sym : BitVec 9) (s : State), (s.model m).frequency.length = m.cls.alphabet →
    (s.model m).cdf.length = m.cls.alphabet + 1 →
    ∃ M, exec (.rebuild m sym) s = .next (s.setModel m M) ∧
      M.cdf.length = m.cls.alphabet + 1 ∧ M.bound 0 = (s.model m).bound 0 ∧
      (∀ k, k < m.cls.alphabet →
        M.bound (k + 1) =
          ((((s.model m).frequency.take (k + 1)).sum + if sym.toNat ≤ k then Params.bias m.cls else 0)
            + (s.model m).bound (k + 1)) / 2) ∧
      M.frequency = List.replicate m.cls.alphabet 1 ∧ M.adaptCounter = 1024 ∧
      (∀ b t, b < Params.lookupSize m.cls → symOf M.cdf (b <<< Params.lookupShift m.cls) = some t →
        M.lookup.getD b 0 = t)

/-! ### The coder -/

/-- R161, R63: READ16 returns the unit at the cursor (in `ret`, log 9) and advances the cursor by 2; with fewer than two bytes
left it fails and the cursor stays. That the byte at the lower offset is the low half is BYTE_ORDER, the model's choice of log 13.
What the registers hold after the failure is the model's choice (log 6). A cursor above its end counts as nothing left (log 38).
That an unspecified byte of OUT reads as a new free value is the model's choice (log 4). -/
def Obligations.Read16ReturnsUnit : Prop :=
  ∀ s : State, s.srcEnd.toNat ≤ s.compSize.toNat →
    (inputLeft s < 2 → exec .read16 s = .next (raiseFailure (.inputTruncation s.srcCur) s)) ∧
    (2 ≤ inputLeft s → ∃ t, exec .read16 s = .next t ∧
      t.ret.toNat = (inValue s s.srcCur.toNat).toNat + 256 * (inValue s (s.srcCur.toNat + 1)).toNat ∧
      t.srcCur.toNat = s.srcCur.toNat + 2 ∧
      t = { s with ret := t.ret, srcCur := t.srcCur })

/-- R163: RENORM refills `state1` by one unit exactly when it is below 0x10000, and swaps always; at 0x10000 no input is touched;
a refill without two bytes left fails. A refill's unit is little-endian (log 13). What the registers hold after the failure is the
model's choice (log 6). A cursor above its end counts as nothing left (log 38). That an unspecified byte of OUT reads as a new
free value is the model's choice (log 4). -/
def Obligations.RenormRefillsAndSwaps : Prop :=
  ∀ s : State, s.srcEnd.toNat ≤ s.compSize.toNat →
    (0x10000 ≤ s.state1.toNat → exec .renorm s = .next { s with state1 := s.state2, state2 := s.state1 }) ∧
    (s.state1.toNat < 0x10000 → 2 ≤ inputLeft s →
      ∃ t, exec .renorm s = .next t ∧
        t.state2.toNat = s.state1.toNat * 65536 + (unitAt s s.srcCur.toNat).toNat ∧
        (2 ≤ s.state1.toNat → 0x20000 ≤ t.state2.toNat) ∧
        t = { s with state1 := s.state2, state2 := t.state2, srcCur := s.srcCur + 2#32 }) ∧
    (s.state1.toNat < 0x10000 → inputLeft s < 2 → exec .renorm s = .next (raiseFailure (.inputTruncation s.srcCur) s))

/-- R166, R167: RAWBITS returns the `k` low bits of `state1` (in `ret`, log 9), shifts them out and renormalizes, also for 0 bits,
where a ready coder is only swapped; no model is touched (R168). The low bits and the unconditional `Renorm` are the spec's decision
D21 (log 34); a refill's unit is little-endian (log 13). -/
def Obligations.RawbitsTakesLowBits : Prop :=
  ∀ (k : BitVec 4) (s : State), s.srcEnd.toNat ≤ s.compSize.toNat → renormReady (withoutLowBits k.toNat s) →
    exec (.rawbits k) s = .next
      { afterRenorm (withoutLowBits k.toNat s) with ret := BitVec.ofNat 32 (s.state1.toNat % 2 ^ k.toNat) } ∧
    (k = 0#4 → 0x10000 ≤ s.state1.toNat →
      exec (.rawbits k) s = .next { s with state1 := s.state2, state2 := s.state1, ret := 0#32 })

/-! ### Encoding -/

/-- R82, R83, R87, R88, R101: a few words written out from the table decode to their operations; 300, 40 and 21 to none (R95). -/
def Obligations.WrittenWordsDecode : Prop :=
  decode .magic16 0b0111010110110001 = .ok .magic ∧ decode .marker 0 = .ok .qraw ∧
  decode .litSym 0b001000001 = .ok (.lit 0x41#8) ∧ decode .litSym 0b100000011 = .ok (.matchs 3#5) ∧
  decode .litSym 0b100101011 = .ok (.matchx 11#4) ∧ decode .offSym 0b000110 = .ok (.dcache 6#3) ∧
  decode .offSym 0b001010 = .ok (.dnewLow 2#3) ∧ decode .offSym 0b011001 = .ok (.dnewMid 9#4) ∧
  decode .offSym 0b100111 = .ok (.dnewHigh 7#3) ∧ decode .oblSym 0b10100 = .ok .nbits ∧
  decode .litSym 300 = .error .outsideLiteralAlphabet ∧ decode .offSym 40 = .error .outsideOffsetLowAlphabet ∧
  decode .oblSym 21 = .error .outsideBitLengthAlphabet

/-- R82 to R89: for every well-formed operation that a word selects, with every operand, decoding its word gives it back. -/
def Obligations.DecodeOfEncode : Prop :=
  ∀ (i : Instr) (f : Format) (w : Nat), i.wf = true → encode i = some (f, w) → decode f w = .ok i

/-- R87, R88: a literal or OffsetLow symbol stands for one operation, which is well formed, and that operation encodes to it. -/
def Obligations.SymbolWordsHaveOneMeaning : Prop :=
  ∀ (f : Format) (w : Nat) (i : Instr), (f = .litSym ∨ f = .offSym) → decode f w = .ok i →
    i.wf = true ∧ encode i = some (f, w)

/-! ### The machine -/

/-- R10, R31, R99: a step runs the operation that phase, stage, marker, cursor and decoded symbol select. An operation that a
symbol selects runs in the state after the symbol's decode and `Renorm` (R210, log 3). The stages and the carried operands are the
model's own (log 2). It is said of the machine at the spec's defaults of the open parameters (log 13 to 23, log 35). -/
def Obligations.StepRunsSelectedOperation : Prop :=
  ∀ s : State, s.hostScript = [] →
    (s.phase = .magic → step s = exec .magic s) ∧
    (s.phase = .qstart → s.stage = .head → step s = exec .qstart s) ∧
    (s.phase = .qstart → s.stage = .raw → step s = exec .qraw s) ∧
    (s.phase = .qstart → s.stage = .coded → step s = exec .qhdr s) ∧
    (s.phase = .qfirst → step s = exec .firstlit s) ∧
    (s.phase = .qbody → s.stage = .head → s.dstQuantumEnd ≤ s.dstCur → step s = exec .qend s) ∧
    (∀ sym u i, s.phase = .qbody → s.stage = .head → s.dstCur < s.dstQuantumEnd →
      decodeAndRenorm Params.default (.lit (modelIndex s.dstCur)) s = .ok (sym, u) → decode .litSym sym = .ok i → step s = exec i u) ∧
    (∀ sym u i, s.phase = .qbody → s.stage = .distance →
      decodeAndRenorm Params.default (.offLow (modelIndex s.dstCur)) s = .ok (sym, u) → decode .offSym sym = .ok i →
      step s = exec i u) ∧
    (s.phase = .qbody → s.stage = .copy → step s = exec (.copy s.copyLength s.matchDist) s)

/-- The invariant holds at reset (R46). -/
def Obligations.ResetMeetsInvariant : Prop := Inv State.reset

/-- R27, R28, R30, R37, R116, R188, R213, R227: every step, of the engine or of the host, keeps the invariant. It is said of the
machine at the spec's defaults of the open parameters (log 13 to 23, log 35). -/
def Obligations.StepKeepsInvariant : Prop :=
  ∀ s t : State, Inv s → step s = .next t → Inv t

/-- R69, R95: from a state that meets the invariant no step accesses a byte outside IN or OUT, computes a negative offset, runs
past a table or meets a symbol outside its alphabet, whatever IN holds. It is said of the machine at the spec's defaults of the
open parameters (log 13 to 23, log 35). That such an access would be a fault is log 24. -/
def Obligations.StepNeverFaults : Prop :=
  ∀ (s : State) (f : Fault), Inv s → step s ≠ .fault f

/-- R69, R72, R77, R256: no engine step changes IN, the sizes, the host's own fields, or any byte at or above DECOMP_SIZE, written
or not. It is said of the machine at the spec's defaults of the open parameters (log 13 to 23, log 35). -/
def Obligations.EngineTouchesOnlyOutput : Prop :=
  ∀ s t : State, engineStep Params.default s = .next t →
    t.inMem = s.inMem ∧ t.compSize = s.compSize ∧ t.decompSize = s.decompSize ∧ t.hostScript = s.hostScript ∧
      t.hostData = s.hostData ∧ ∀ a, s.decompSize.toNat ≤ a → memRead t.outMem a = memRead s.outMem a ∧ outValue t a = outValue s a

/-- R28, R30, R116: while a decode runs both cursors only grow and stay inside their spaces. It is said of the machine at the
spec's defaults of the open parameters (log 13 to 23, log 35). -/
def Obligations.CursorsOnlyGrow : Prop :=
  ∀ s t : State, Inv s → busy s = true → engineStep Params.default s = .next t → (busy t = true ∨ t.phase = .doneOk) →
    s.srcCur ≤ t.srcCur ∧ t.srcCur ≤ t.srcEnd ∧ s.dstCur ≤ t.dstCur ∧ t.dstCur ≤ t.dstEnd

/-- R71: every output byte below the cursor has been written in every step, and DONE_OK is reached only with the output full. It
is said of the machine at the spec's defaults of the open parameters (log 13 to 23, log 35). -/
def Obligations.DoneOkMeansOutputFull : Prop :=
  ∀ s t : State, Inv s → outWritten s → busy s = true → engineStep Params.default s = .next t →
    ((busy t = true ∨ t.phase = .doneOk) → outWritten t) ∧
    (t.phase = .doneOk → ∀ a, a < t.decompSize.toNat → (memRead t.outMem a).isSome = true)

/-- R118: a running decode left to the engine ends, within `stepsLeft` steps, in DONE_OK or DONE_FAIL. It is said of the machine
at the spec's defaults of the open parameters (log 13 to 23, log 35). -/
def Obligations.DecodeTerminates : Prop :=
  ∀ s : State, Inv s → busy s = true → s.hostScript = [] →
    ∃ t, Host.Core.run Sys2Proof.core (stepsLeft s) s = .next t ∧ (t.phase = .doneOk ∨ t.phase = .doneFail)

/-- R45, R46, R256, R281: what the spec leaves without a value in the decoder's registers never matters: two states that agree on
everything else step alike. The values the model leaves in them (log 1, log 6, log 36) never show. EXCEPTED are the two size
registers, which the host and START can read right after reset (their value there is log 1's), and the free bytes of IN and OUT
(log 4, log 5): two states must agree on those. It is said of the machine at the spec's defaults of the open parameters (log 13 to
23, log 35). -/
def Obligations.UnspecifiedValuesNeverMatter : Prop :=
  ∀ s t : State, liveState s = liveState t → mapNext liveState (step s) = mapNext liveState (step t)

/-- R41: two states whose caches agree in rank order step alike, whatever permutations hold that order. It is said of the machine
at the spec's defaults of the open parameters (log 13 to 23, log 35). -/
def Obligations.CacheSlotsAreInvisible : Prop :=
  ∀ s t : State, maskIsPermutation s.distMask → maskIsPermutation t.distMask → cacheNormal s = cacheNormal t →
    mapNext cacheNormal (step s) = mapNext cacheNormal (step t)

/-- R210, R237: the machine's operations one by one do what the lzstep of R210 does in one piece, with its temporaries passed as
values: some number of steps from the head of the body, at most three, ends in the state the pseudocode ends in, the model's
carriers apart (log 2, log 3). It is said of the machine at the spec's defaults of the open parameters (log 13 to 23, log 35).
That an unspecified byte of OUT reads as a new free value is the model's choice (log 4). What the registers hold after a failure
is the model's choice (log 6). -/
def Obligations.OperationsComposeLzstep : Prop :=
  ∀ s : State, Inv s → s.hostScript = [] → s.phase = .qbody → s.stage = .head → s.dstCur < s.dstQuantumEnd →
    ∃ k, 1 ≤ k ∧ k ≤ 3 ∧
      mapNext withoutCarriers (Host.Core.run Sys2Proof.core k s) = mapNext withoutCarriers (conclude (pseudoLzstep s))
end

