-- ==== Sys2Proof/Laws/Memory.lean ====
section
/-! SUPPORT. The basic laws of the memory lists: read after write, other offsets, and that every operation keeps the form. -/

namespace Sys2Proof.Machine

@[simp] theorem memRead_nil (a : Nat) : memRead [] a = none := rfl

theorem memRead_cons (k : Nat) (b : Byte) (m : Memory) (a : Nat) :
    memRead ((k, b) :: m) a = if k = a then some b else memRead m a := rfl

/-- A byte just written reads back. -/
@[simp] theorem memRead_memWrite_same (m : Memory) (a : Nat) (b : Byte) : memRead (memWrite m a b) a = some b := by
  induction m with
  | nil => simp [memWrite, memRead]
  | cons c m ih =>
    obtain ⟨k, x⟩ := c
    simp only [memWrite]
    split
    · simp [memRead]
    · split
      · simp [memRead]
      · rename_i _ hne
        simp [memRead, ih, Ne.symm hne]

/-- A write leaves every other offset alone. -/
theorem memRead_memWrite_other (m : Memory) (a a' : Nat) (b : Byte) (h : a' ≠ a) :
    memRead (memWrite m a b) a' = memRead m a' := by
  induction m with
  | nil => simp [memWrite, memRead, Ne.symm h]
  | cons c m ih =>
    obtain ⟨k, x⟩ := c
    simp only [memWrite]
    split
    · simp [memRead, Ne.symm h]
    · split
      · rename_i _ hk
        subst hk
        simp [memRead, Ne.symm h]
      · simp [memRead, ih]

/-- The keys after a write are the old ones and the new one. -/
theorem mem_memWrite {m : Memory} {a : Nat} {b : Byte} {c : Host.Cell} (h : c ∈ memWrite m a b) : c = (a, b) ∨ c ∈ m := by
  induction m with
  | nil => simpa [memWrite] using h
  | cons d m ih =>
    obtain ⟨k, x⟩ := d
    simp only [memWrite] at h
    split at h
    · simpa using h
    · split at h
      · rcases List.mem_cons.mp h with h | h
        · exact .inl h
        · exact .inr (List.mem_cons_of_mem _ h)
      · rcases List.mem_cons.mp h with h | h
        · exact .inr (h ▸ List.mem_cons_self)
        · rcases ih h with h | h
          · exact .inl h
          · exact .inr (List.mem_cons_of_mem _ h)

/-- A write keeps the canonical form. -/
theorem memWrite_wf {m : Memory} (h : Memory.wf m) (a : Nat) (b : Byte) : Memory.wf (memWrite m a b) := by
  induction m with
  | nil => simp [memWrite, Memory.wf]
  | cons c m ih =>
    obtain ⟨k, x⟩ := c
    rw [Memory.wf, List.pairwise_cons] at h
    simp only [memWrite]
    split
    · rename_i hlt
      refine List.pairwise_cons.mpr ⟨?_, List.pairwise_cons.mpr h⟩
      intro d hd
      rcases List.mem_cons.mp hd with rfl | hd
      · exact hlt
      · exact hlt.trans (h.1 d hd)
    · split
      · rename_i _ heq
        subst heq
        exact List.pairwise_cons.mpr ⟨h.1, h.2⟩
      · rename_i hge hne
        refine List.pairwise_cons.mpr ⟨?_, ih h.2⟩
        intro d hd
        rcases mem_memWrite hd with rfl | hd
        · show k < a
          omega
        · exact h.1 d hd

/-- Forgetting a space keeps the canonical form. -/
theorem memForget_wf {m : Memory} (h : Memory.wf m) (size : Nat) : Memory.wf (memForget m size) :=
  List.Pairwise.filter _ h

/-- A forgotten offset holds no byte (R72). -/
theorem memRead_memForget_low (m : Memory) (size a : Nat) (h : a < size) : memRead (memForget m size) a = none := by
  induction m with
  | nil => rfl
  | cons c m ih =>
    obtain ⟨k, x⟩ := c
    simp only [memForget, List.filter_cons] at ih ⊢
    split
    · rename_i hk
      have : size ≤ k := by simpa using hk
      rw [memRead_cons, if_neg (by omega)]
      exact ih
    · exact ih

/-- Offsets outside the space keep their bytes (R69). -/
theorem memRead_memForget_high (m : Memory) (size a : Nat) (h : size ≤ a) :
    memRead (memForget m size) a = memRead m a := by
  induction m with
  | nil => rfl
  | cons c m ih =>
    obtain ⟨k, x⟩ := c
    simp only [memForget, List.filter_cons] at ih ⊢
    split
    · rw [memRead_cons, memRead_cons, ih]
    · rename_i hk
      have : ¬ size ≤ k := by simpa using hk
      rw [memRead_cons, if_neg (by omega)]
      exact ih

/-- The reset spaces have the canonical form. -/
theorem reset_memories_wf : Memory.wf State.reset.inMem ∧ Memory.wf State.reset.outMem := by
  constructor <;> exact List.Pairwise.nil

end Sys2Proof.Machine
end

