-- ==== Sys2Proof/Laws/State.lean ====
section
/-! SUPPORT. One lemma per field per update of the state, so that no later proof unfolds a record update. -/

namespace Sys2Proof.Machine

/-! ### setState1 -/

@[simp] theorem setState1_compSize (v : Word) (s : State) : (setState1 v s).compSize = s.compSize := rfl
@[simp] theorem setState1_decompSize (v : Word) (s : State) : (setState1 v s).decompSize = s.decompSize := rfl
@[simp] theorem setState1_phase (v : Word) (s : State) : (setState1 v s).phase = s.phase := rfl
@[simp] theorem setState1_failCause (v : Word) (s : State) : (setState1 v s).failCause = s.failCause := rfl
@[simp] theorem setState1_state1 (v : Word) (s : State) : (setState1 v s).state1 = v := rfl
@[simp] theorem setState1_state2 (v : Word) (s : State) : (setState1 v s).state2 = s.state2 := rfl
@[simp] theorem setState1_srcCur (v : Word) (s : State) : (setState1 v s).srcCur = s.srcCur := rfl
@[simp] theorem setState1_srcEnd (v : Word) (s : State) : (setState1 v s).srcEnd = s.srcEnd := rfl
@[simp] theorem setState1_dstStart (v : Word) (s : State) : (setState1 v s).dstStart = s.dstStart := rfl
@[simp] theorem setState1_dstCur (v : Word) (s : State) : (setState1 v s).dstCur = s.dstCur := rfl
@[simp] theorem setState1_dstEnd (v : Word) (s : State) : (setState1 v s).dstEnd = s.dstEnd := rfl
@[simp] theorem setState1_dstQuantumEnd (v : Word) (s : State) : (setState1 v s).dstQuantumEnd = s.dstQuantumEnd := rfl
@[simp] theorem setState1_firstLiteralPending (v : Word) (s : State) : (setState1 v s).firstLiteralPending = s.firstLiteralPending := rfl
@[simp] theorem setState1_lit (v : Word) (s : State) : (setState1 v s).lit = s.lit := rfl
@[simp] theorem setState1_offLow (v : Word) (s : State) : (setState1 v s).offLow = s.offLow := rfl
@[simp] theorem setState1_obl (v : Word) (s : State) : (setState1 v s).obl = s.obl := rfl
@[simp] theorem setState1_recent (v : Word) (s : State) : (setState1 v s).recent = s.recent := rfl
@[simp] theorem setState1_distMask (v : Word) (s : State) : (setState1 v s).distMask = s.distMask := rfl
@[simp] theorem setState1_lastCopyOffset (v : Word) (s : State) : (setState1 v s).lastCopyOffset = s.lastCopyOffset := rfl
@[simp] theorem setState1_inMem (v : Word) (s : State) : (setState1 v s).inMem = s.inMem := rfl
@[simp] theorem setState1_outMem (v : Word) (s : State) : (setState1 v s).outMem = s.outMem := rfl
@[simp] theorem setState1_stage (v : Word) (s : State) : (setState1 v s).stage = s.stage := rfl
@[simp] theorem setState1_copyLength (v : Word) (s : State) : (setState1 v s).copyLength = s.copyLength := rfl
@[simp] theorem setState1_matchDist (v : Word) (s : State) : (setState1 v s).matchDist = s.matchDist := rfl
@[simp] theorem setState1_ret (v : Word) (s : State) : (setState1 v s).ret = s.ret := rfl
@[simp] theorem setState1_outForgotten (v : Word) (s : State) : (setState1 v s).outForgotten = s.outForgotten := rfl
@[simp] theorem setState1_hostScript (v : Word) (s : State) : (setState1 v s).hostScript = s.hostScript := rfl
@[simp] theorem setState1_hostData (v : Word) (s : State) : (setState1 v s).hostData = s.hostData := rfl

/-! ### setStates -/

@[simp] theorem setStates_compSize (v1 v2 : Word) (s : State) : (setStates v1 v2 s).compSize = s.compSize := rfl
@[simp] theorem setStates_decompSize (v1 v2 : Word) (s : State) : (setStates v1 v2 s).decompSize = s.decompSize := rfl
@[simp] theorem setStates_phase (v1 v2 : Word) (s : State) : (setStates v1 v2 s).phase = s.phase := rfl
@[simp] theorem setStates_failCause (v1 v2 : Word) (s : State) : (setStates v1 v2 s).failCause = s.failCause := rfl
@[simp] theorem setStates_state1 (v1 v2 : Word) (s : State) : (setStates v1 v2 s).state1 = v1 := rfl
@[simp] theorem setStates_state2 (v1 v2 : Word) (s : State) : (setStates v1 v2 s).state2 = v2 := rfl
@[simp] theorem setStates_srcCur (v1 v2 : Word) (s : State) : (setStates v1 v2 s).srcCur = s.srcCur := rfl
@[simp] theorem setStates_srcEnd (v1 v2 : Word) (s : State) : (setStates v1 v2 s).srcEnd = s.srcEnd := rfl
@[simp] theorem setStates_dstStart (v1 v2 : Word) (s : State) : (setStates v1 v2 s).dstStart = s.dstStart := rfl
@[simp] theorem setStates_dstCur (v1 v2 : Word) (s : State) : (setStates v1 v2 s).dstCur = s.dstCur := rfl
@[simp] theorem setStates_dstEnd (v1 v2 : Word) (s : State) : (setStates v1 v2 s).dstEnd = s.dstEnd := rfl
@[simp] theorem setStates_dstQuantumEnd (v1 v2 : Word) (s : State) : (setStates v1 v2 s).dstQuantumEnd = s.dstQuantumEnd := rfl
@[simp] theorem setStates_firstLiteralPending (v1 v2 : Word) (s : State) : (setStates v1 v2 s).firstLiteralPending = s.firstLiteralPending := rfl
@[simp] theorem setStates_lit (v1 v2 : Word) (s : State) : (setStates v1 v2 s).lit = s.lit := rfl
@[simp] theorem setStates_offLow (v1 v2 : Word) (s : State) : (setStates v1 v2 s).offLow = s.offLow := rfl
@[simp] theorem setStates_obl (v1 v2 : Word) (s : State) : (setStates v1 v2 s).obl = s.obl := rfl
@[simp] theorem setStates_recent (v1 v2 : Word) (s : State) : (setStates v1 v2 s).recent = s.recent := rfl
@[simp] theorem setStates_distMask (v1 v2 : Word) (s : State) : (setStates v1 v2 s).distMask = s.distMask := rfl
@[simp] theorem setStates_lastCopyOffset (v1 v2 : Word) (s : State) : (setStates v1 v2 s).lastCopyOffset = s.lastCopyOffset := rfl
@[simp] theorem setStates_inMem (v1 v2 : Word) (s : State) : (setStates v1 v2 s).inMem = s.inMem := rfl
@[simp] theorem setStates_outMem (v1 v2 : Word) (s : State) : (setStates v1 v2 s).outMem = s.outMem := rfl
@[simp] theorem setStates_stage (v1 v2 : Word) (s : State) : (setStates v1 v2 s).stage = s.stage := rfl
@[simp] theorem setStates_copyLength (v1 v2 : Word) (s : State) : (setStates v1 v2 s).copyLength = s.copyLength := rfl
@[simp] theorem setStates_matchDist (v1 v2 : Word) (s : State) : (setStates v1 v2 s).matchDist = s.matchDist := rfl
@[simp] theorem setStates_ret (v1 v2 : Word) (s : State) : (setStates v1 v2 s).ret = s.ret := rfl
@[simp] theorem setStates_outForgotten (v1 v2 : Word) (s : State) : (setStates v1 v2 s).outForgotten = s.outForgotten := rfl
@[simp] theorem setStates_hostScript (v1 v2 : Word) (s : State) : (setStates v1 v2 s).hostScript = s.hostScript := rfl
@[simp] theorem setStates_hostData (v1 v2 : Word) (s : State) : (setStates v1 v2 s).hostData = s.hostData := rfl

/-! ### setSrcCur -/

@[simp] theorem setSrcCur_compSize (v : Word) (s : State) : (setSrcCur v s).compSize = s.compSize := rfl
@[simp] theorem setSrcCur_decompSize (v : Word) (s : State) : (setSrcCur v s).decompSize = s.decompSize := rfl
@[simp] theorem setSrcCur_phase (v : Word) (s : State) : (setSrcCur v s).phase = s.phase := rfl
@[simp] theorem setSrcCur_failCause (v : Word) (s : State) : (setSrcCur v s).failCause = s.failCause := rfl
@[simp] theorem setSrcCur_state1 (v : Word) (s : State) : (setSrcCur v s).state1 = s.state1 := rfl
@[simp] theorem setSrcCur_state2 (v : Word) (s : State) : (setSrcCur v s).state2 = s.state2 := rfl
@[simp] theorem setSrcCur_srcCur (v : Word) (s : State) : (setSrcCur v s).srcCur = v := rfl
@[simp] theorem setSrcCur_srcEnd (v : Word) (s : State) : (setSrcCur v s).srcEnd = s.srcEnd := rfl
@[simp] theorem setSrcCur_dstStart (v : Word) (s : State) : (setSrcCur v s).dstStart = s.dstStart := rfl
@[simp] theorem setSrcCur_dstCur (v : Word) (s : State) : (setSrcCur v s).dstCur = s.dstCur := rfl
@[simp] theorem setSrcCur_dstEnd (v : Word) (s : State) : (setSrcCur v s).dstEnd = s.dstEnd := rfl
@[simp] theorem setSrcCur_dstQuantumEnd (v : Word) (s : State) : (setSrcCur v s).dstQuantumEnd = s.dstQuantumEnd := rfl
@[simp] theorem setSrcCur_firstLiteralPending (v : Word) (s : State) : (setSrcCur v s).firstLiteralPending = s.firstLiteralPending := rfl
@[simp] theorem setSrcCur_lit (v : Word) (s : State) : (setSrcCur v s).lit = s.lit := rfl
@[simp] theorem setSrcCur_offLow (v : Word) (s : State) : (setSrcCur v s).offLow = s.offLow := rfl
@[simp] theorem setSrcCur_obl (v : Word) (s : State) : (setSrcCur v s).obl = s.obl := rfl
@[simp] theorem setSrcCur_recent (v : Word) (s : State) : (setSrcCur v s).recent = s.recent := rfl
@[simp] theorem setSrcCur_distMask (v : Word) (s : State) : (setSrcCur v s).distMask = s.distMask := rfl
@[simp] theorem setSrcCur_lastCopyOffset (v : Word) (s : State) : (setSrcCur v s).lastCopyOffset = s.lastCopyOffset := rfl
@[simp] theorem setSrcCur_inMem (v : Word) (s : State) : (setSrcCur v s).inMem = s.inMem := rfl
@[simp] theorem setSrcCur_outMem (v : Word) (s : State) : (setSrcCur v s).outMem = s.outMem := rfl
@[simp] theorem setSrcCur_stage (v : Word) (s : State) : (setSrcCur v s).stage = s.stage := rfl
@[simp] theorem setSrcCur_copyLength (v : Word) (s : State) : (setSrcCur v s).copyLength = s.copyLength := rfl
@[simp] theorem setSrcCur_matchDist (v : Word) (s : State) : (setSrcCur v s).matchDist = s.matchDist := rfl
@[simp] theorem setSrcCur_ret (v : Word) (s : State) : (setSrcCur v s).ret = s.ret := rfl
@[simp] theorem setSrcCur_outForgotten (v : Word) (s : State) : (setSrcCur v s).outForgotten = s.outForgotten := rfl
@[simp] theorem setSrcCur_hostScript (v : Word) (s : State) : (setSrcCur v s).hostScript = s.hostScript := rfl
@[simp] theorem setSrcCur_hostData (v : Word) (s : State) : (setSrcCur v s).hostData = s.hostData := rfl

/-! ### setQuantumEnd -/

@[simp] theorem setQuantumEnd_compSize (v : Word) (s : State) : (setQuantumEnd v s).compSize = s.compSize := rfl
@[simp] theorem setQuantumEnd_decompSize (v : Word) (s : State) : (setQuantumEnd v s).decompSize = s.decompSize := rfl
@[simp] theorem setQuantumEnd_phase (v : Word) (s : State) : (setQuantumEnd v s).phase = s.phase := rfl
@[simp] theorem setQuantumEnd_failCause (v : Word) (s : State) : (setQuantumEnd v s).failCause = s.failCause := rfl
@[simp] theorem setQuantumEnd_state1 (v : Word) (s : State) : (setQuantumEnd v s).state1 = s.state1 := rfl
@[simp] theorem setQuantumEnd_state2 (v : Word) (s : State) : (setQuantumEnd v s).state2 = s.state2 := rfl
@[simp] theorem setQuantumEnd_srcCur (v : Word) (s : State) : (setQuantumEnd v s).srcCur = s.srcCur := rfl
@[simp] theorem setQuantumEnd_srcEnd (v : Word) (s : State) : (setQuantumEnd v s).srcEnd = s.srcEnd := rfl
@[simp] theorem setQuantumEnd_dstStart (v : Word) (s : State) : (setQuantumEnd v s).dstStart = s.dstStart := rfl
@[simp] theorem setQuantumEnd_dstCur (v : Word) (s : State) : (setQuantumEnd v s).dstCur = s.dstCur := rfl
@[simp] theorem setQuantumEnd_dstEnd (v : Word) (s : State) : (setQuantumEnd v s).dstEnd = s.dstEnd := rfl
@[simp] theorem setQuantumEnd_dstQuantumEnd (v : Word) (s : State) : (setQuantumEnd v s).dstQuantumEnd = v := rfl
@[simp] theorem setQuantumEnd_firstLiteralPending (v : Word) (s : State) : (setQuantumEnd v s).firstLiteralPending = s.firstLiteralPending := rfl
@[simp] theorem setQuantumEnd_lit (v : Word) (s : State) : (setQuantumEnd v s).lit = s.lit := rfl
@[simp] theorem setQuantumEnd_offLow (v : Word) (s : State) : (setQuantumEnd v s).offLow = s.offLow := rfl
@[simp] theorem setQuantumEnd_obl (v : Word) (s : State) : (setQuantumEnd v s).obl = s.obl := rfl
@[simp] theorem setQuantumEnd_recent (v : Word) (s : State) : (setQuantumEnd v s).recent = s.recent := rfl
@[simp] theorem setQuantumEnd_distMask (v : Word) (s : State) : (setQuantumEnd v s).distMask = s.distMask := rfl
@[simp] theorem setQuantumEnd_lastCopyOffset (v : Word) (s : State) : (setQuantumEnd v s).lastCopyOffset = s.lastCopyOffset := rfl
@[simp] theorem setQuantumEnd_inMem (v : Word) (s : State) : (setQuantumEnd v s).inMem = s.inMem := rfl
@[simp] theorem setQuantumEnd_outMem (v : Word) (s : State) : (setQuantumEnd v s).outMem = s.outMem := rfl
@[simp] theorem setQuantumEnd_stage (v : Word) (s : State) : (setQuantumEnd v s).stage = s.stage := rfl
@[simp] theorem setQuantumEnd_copyLength (v : Word) (s : State) : (setQuantumEnd v s).copyLength = s.copyLength := rfl
@[simp] theorem setQuantumEnd_matchDist (v : Word) (s : State) : (setQuantumEnd v s).matchDist = s.matchDist := rfl
@[simp] theorem setQuantumEnd_ret (v : Word) (s : State) : (setQuantumEnd v s).ret = s.ret := rfl
@[simp] theorem setQuantumEnd_outForgotten (v : Word) (s : State) : (setQuantumEnd v s).outForgotten = s.outForgotten := rfl
@[simp] theorem setQuantumEnd_hostScript (v : Word) (s : State) : (setQuantumEnd v s).hostScript = s.hostScript := rfl
@[simp] theorem setQuantumEnd_hostData (v : Word) (s : State) : (setQuantumEnd v s).hostData = s.hostData := rfl

/-! ### setDistMask -/

@[simp] theorem setDistMask_compSize (mask : BitVec 24) (s : State) : (setDistMask mask s).compSize = s.compSize := rfl
@[simp] theorem setDistMask_decompSize (mask : BitVec 24) (s : State) : (setDistMask mask s).decompSize = s.decompSize := rfl
@[simp] theorem setDistMask_phase (mask : BitVec 24) (s : State) : (setDistMask mask s).phase = s.phase := rfl
@[simp] theorem setDistMask_failCause (mask : BitVec 24) (s : State) : (setDistMask mask s).failCause = s.failCause := rfl
@[simp] theorem setDistMask_state1 (mask : BitVec 24) (s : State) : (setDistMask mask s).state1 = s.state1 := rfl
@[simp] theorem setDistMask_state2 (mask : BitVec 24) (s : State) : (setDistMask mask s).state2 = s.state2 := rfl
@[simp] theorem setDistMask_srcCur (mask : BitVec 24) (s : State) : (setDistMask mask s).srcCur = s.srcCur := rfl
@[simp] theorem setDistMask_srcEnd (mask : BitVec 24) (s : State) : (setDistMask mask s).srcEnd = s.srcEnd := rfl
@[simp] theorem setDistMask_dstStart (mask : BitVec 24) (s : State) : (setDistMask mask s).dstStart = s.dstStart := rfl
@[simp] theorem setDistMask_dstCur (mask : BitVec 24) (s : State) : (setDistMask mask s).dstCur = s.dstCur := rfl
@[simp] theorem setDistMask_dstEnd (mask : BitVec 24) (s : State) : (setDistMask mask s).dstEnd = s.dstEnd := rfl
@[simp] theorem setDistMask_dstQuantumEnd (mask : BitVec 24) (s : State) : (setDistMask mask s).dstQuantumEnd = s.dstQuantumEnd := rfl
@[simp] theorem setDistMask_firstLiteralPending (mask : BitVec 24) (s : State) : (setDistMask mask s).firstLiteralPending = s.firstLiteralPending := rfl
@[simp] theorem setDistMask_lit (mask : BitVec 24) (s : State) : (setDistMask mask s).lit = s.lit := rfl
@[simp] theorem setDistMask_offLow (mask : BitVec 24) (s : State) : (setDistMask mask s).offLow = s.offLow := rfl
@[simp] theorem setDistMask_obl (mask : BitVec 24) (s : State) : (setDistMask mask s).obl = s.obl := rfl
@[simp] theorem setDistMask_recent (mask : BitVec 24) (s : State) : (setDistMask mask s).recent = s.recent := rfl
@[simp] theorem setDistMask_distMask (mask : BitVec 24) (s : State) : (setDistMask mask s).distMask = mask := rfl
@[simp] theorem setDistMask_lastCopyOffset (mask : BitVec 24) (s : State) : (setDistMask mask s).lastCopyOffset = s.lastCopyOffset := rfl
@[simp] theorem setDistMask_inMem (mask : BitVec 24) (s : State) : (setDistMask mask s).inMem = s.inMem := rfl
@[simp] theorem setDistMask_outMem (mask : BitVec 24) (s : State) : (setDistMask mask s).outMem = s.outMem := rfl
@[simp] theorem setDistMask_stage (mask : BitVec 24) (s : State) : (setDistMask mask s).stage = s.stage := rfl
@[simp] theorem setDistMask_copyLength (mask : BitVec 24) (s : State) : (setDistMask mask s).copyLength = s.copyLength := rfl
@[simp] theorem setDistMask_matchDist (mask : BitVec 24) (s : State) : (setDistMask mask s).matchDist = s.matchDist := rfl
@[simp] theorem setDistMask_ret (mask : BitVec 24) (s : State) : (setDistMask mask s).ret = s.ret := rfl
@[simp] theorem setDistMask_outForgotten (mask : BitVec 24) (s : State) : (setDistMask mask s).outForgotten = s.outForgotten := rfl
@[simp] theorem setDistMask_hostScript (mask : BitVec 24) (s : State) : (setDistMask mask s).hostScript = s.hostScript := rfl
@[simp] theorem setDistMask_hostData (mask : BitVec 24) (s : State) : (setDistMask mask s).hostData = s.hostData := rfl

/-! ### setRecent -/

@[simp] theorem setRecent_compSize (r : Vector Word 8) (s : State) : (setRecent r s).compSize = s.compSize := rfl
@[simp] theorem setRecent_decompSize (r : Vector Word 8) (s : State) : (setRecent r s).decompSize = s.decompSize := rfl
@[simp] theorem setRecent_phase (r : Vector Word 8) (s : State) : (setRecent r s).phase = s.phase := rfl
@[simp] theorem setRecent_failCause (r : Vector Word 8) (s : State) : (setRecent r s).failCause = s.failCause := rfl
@[simp] theorem setRecent_state1 (r : Vector Word 8) (s : State) : (setRecent r s).state1 = s.state1 := rfl
@[simp] theorem setRecent_state2 (r : Vector Word 8) (s : State) : (setRecent r s).state2 = s.state2 := rfl
@[simp] theorem setRecent_srcCur (r : Vector Word 8) (s : State) : (setRecent r s).srcCur = s.srcCur := rfl
@[simp] theorem setRecent_srcEnd (r : Vector Word 8) (s : State) : (setRecent r s).srcEnd = s.srcEnd := rfl
@[simp] theorem setRecent_dstStart (r : Vector Word 8) (s : State) : (setRecent r s).dstStart = s.dstStart := rfl
@[simp] theorem setRecent_dstCur (r : Vector Word 8) (s : State) : (setRecent r s).dstCur = s.dstCur := rfl
@[simp] theorem setRecent_dstEnd (r : Vector Word 8) (s : State) : (setRecent r s).dstEnd = s.dstEnd := rfl
@[simp] theorem setRecent_dstQuantumEnd (r : Vector Word 8) (s : State) : (setRecent r s).dstQuantumEnd = s.dstQuantumEnd := rfl
@[simp] theorem setRecent_firstLiteralPending (r : Vector Word 8) (s : State) : (setRecent r s).firstLiteralPending = s.firstLiteralPending := rfl
@[simp] theorem setRecent_lit (r : Vector Word 8) (s : State) : (setRecent r s).lit = s.lit := rfl
@[simp] theorem setRecent_offLow (r : Vector Word 8) (s : State) : (setRecent r s).offLow = s.offLow := rfl
@[simp] theorem setRecent_obl (r : Vector Word 8) (s : State) : (setRecent r s).obl = s.obl := rfl
@[simp] theorem setRecent_recent (r : Vector Word 8) (s : State) : (setRecent r s).recent = r := rfl
@[simp] theorem setRecent_distMask (r : Vector Word 8) (s : State) : (setRecent r s).distMask = s.distMask := rfl
@[simp] theorem setRecent_lastCopyOffset (r : Vector Word 8) (s : State) : (setRecent r s).lastCopyOffset = s.lastCopyOffset := rfl
@[simp] theorem setRecent_inMem (r : Vector Word 8) (s : State) : (setRecent r s).inMem = s.inMem := rfl
@[simp] theorem setRecent_outMem (r : Vector Word 8) (s : State) : (setRecent r s).outMem = s.outMem := rfl
@[simp] theorem setRecent_stage (r : Vector Word 8) (s : State) : (setRecent r s).stage = s.stage := rfl
@[simp] theorem setRecent_copyLength (r : Vector Word 8) (s : State) : (setRecent r s).copyLength = s.copyLength := rfl
@[simp] theorem setRecent_matchDist (r : Vector Word 8) (s : State) : (setRecent r s).matchDist = s.matchDist := rfl
@[simp] theorem setRecent_ret (r : Vector Word 8) (s : State) : (setRecent r s).ret = s.ret := rfl
@[simp] theorem setRecent_outForgotten (r : Vector Word 8) (s : State) : (setRecent r s).outForgotten = s.outForgotten := rfl
@[simp] theorem setRecent_hostScript (r : Vector Word 8) (s : State) : (setRecent r s).hostScript = s.hostScript := rfl
@[simp] theorem setRecent_hostData (r : Vector Word 8) (s : State) : (setRecent r s).hostData = s.hostData := rfl

/-! ### setLastCopy -/

@[simp] theorem setLastCopy_compSize (d : Word) (s : State) : (setLastCopy d s).compSize = s.compSize := rfl
@[simp] theorem setLastCopy_decompSize (d : Word) (s : State) : (setLastCopy d s).decompSize = s.decompSize := rfl
@[simp] theorem setLastCopy_phase (d : Word) (s : State) : (setLastCopy d s).phase = s.phase := rfl
@[simp] theorem setLastCopy_failCause (d : Word) (s : State) : (setLastCopy d s).failCause = s.failCause := rfl
@[simp] theorem setLastCopy_state1 (d : Word) (s : State) : (setLastCopy d s).state1 = s.state1 := rfl
@[simp] theorem setLastCopy_state2 (d : Word) (s : State) : (setLastCopy d s).state2 = s.state2 := rfl
@[simp] theorem setLastCopy_srcCur (d : Word) (s : State) : (setLastCopy d s).srcCur = s.srcCur := rfl
@[simp] theorem setLastCopy_srcEnd (d : Word) (s : State) : (setLastCopy d s).srcEnd = s.srcEnd := rfl
@[simp] theorem setLastCopy_dstStart (d : Word) (s : State) : (setLastCopy d s).dstStart = s.dstStart := rfl
@[simp] theorem setLastCopy_dstCur (d : Word) (s : State) : (setLastCopy d s).dstCur = s.dstCur := rfl
@[simp] theorem setLastCopy_dstEnd (d : Word) (s : State) : (setLastCopy d s).dstEnd = s.dstEnd := rfl
@[simp] theorem setLastCopy_dstQuantumEnd (d : Word) (s : State) : (setLastCopy d s).dstQuantumEnd = s.dstQuantumEnd := rfl
@[simp] theorem setLastCopy_firstLiteralPending (d : Word) (s : State) : (setLastCopy d s).firstLiteralPending = s.firstLiteralPending := rfl
@[simp] theorem setLastCopy_lit (d : Word) (s : State) : (setLastCopy d s).lit = s.lit := rfl
@[simp] theorem setLastCopy_offLow (d : Word) (s : State) : (setLastCopy d s).offLow = s.offLow := rfl
@[simp] theorem setLastCopy_obl (d : Word) (s : State) : (setLastCopy d s).obl = s.obl := rfl
@[simp] theorem setLastCopy_recent (d : Word) (s : State) : (setLastCopy d s).recent = s.recent := rfl
@[simp] theorem setLastCopy_distMask (d : Word) (s : State) : (setLastCopy d s).distMask = s.distMask := rfl
@[simp] theorem setLastCopy_lastCopyOffset (d : Word) (s : State) : (setLastCopy d s).lastCopyOffset = d := rfl
@[simp] theorem setLastCopy_inMem (d : Word) (s : State) : (setLastCopy d s).inMem = s.inMem := rfl
@[simp] theorem setLastCopy_outMem (d : Word) (s : State) : (setLastCopy d s).outMem = s.outMem := rfl
@[simp] theorem setLastCopy_stage (d : Word) (s : State) : (setLastCopy d s).stage = s.stage := rfl
@[simp] theorem setLastCopy_copyLength (d : Word) (s : State) : (setLastCopy d s).copyLength = s.copyLength := rfl
@[simp] theorem setLastCopy_matchDist (d : Word) (s : State) : (setLastCopy d s).matchDist = s.matchDist := rfl
@[simp] theorem setLastCopy_ret (d : Word) (s : State) : (setLastCopy d s).ret = s.ret := rfl
@[simp] theorem setLastCopy_outForgotten (d : Word) (s : State) : (setLastCopy d s).outForgotten = s.outForgotten := rfl
@[simp] theorem setLastCopy_hostScript (d : Word) (s : State) : (setLastCopy d s).hostScript = s.hostScript := rfl
@[simp] theorem setLastCopy_hostData (d : Word) (s : State) : (setLastCopy d s).hostData = s.hostData := rfl

/-! ### setOut -/

@[simp] theorem setOut_compSize (m : Memory) (s : State) : (setOut m s).compSize = s.compSize := rfl
@[simp] theorem setOut_decompSize (m : Memory) (s : State) : (setOut m s).decompSize = s.decompSize := rfl
@[simp] theorem setOut_phase (m : Memory) (s : State) : (setOut m s).phase = s.phase := rfl
@[simp] theorem setOut_failCause (m : Memory) (s : State) : (setOut m s).failCause = s.failCause := rfl
@[simp] theorem setOut_state1 (m : Memory) (s : State) : (setOut m s).state1 = s.state1 := rfl
@[simp] theorem setOut_state2 (m : Memory) (s : State) : (setOut m s).state2 = s.state2 := rfl
@[simp] theorem setOut_srcCur (m : Memory) (s : State) : (setOut m s).srcCur = s.srcCur := rfl
@[simp] theorem setOut_srcEnd (m : Memory) (s : State) : (setOut m s).srcEnd = s.srcEnd := rfl
@[simp] theorem setOut_dstStart (m : Memory) (s : State) : (setOut m s).dstStart = s.dstStart := rfl
@[simp] theorem setOut_dstCur (m : Memory) (s : State) : (setOut m s).dstCur = s.dstCur := rfl
@[simp] theorem setOut_dstEnd (m : Memory) (s : State) : (setOut m s).dstEnd = s.dstEnd := rfl
@[simp] theorem setOut_dstQuantumEnd (m : Memory) (s : State) : (setOut m s).dstQuantumEnd = s.dstQuantumEnd := rfl
@[simp] theorem setOut_firstLiteralPending (m : Memory) (s : State) : (setOut m s).firstLiteralPending = s.firstLiteralPending := rfl
@[simp] theorem setOut_lit (m : Memory) (s : State) : (setOut m s).lit = s.lit := rfl
@[simp] theorem setOut_offLow (m : Memory) (s : State) : (setOut m s).offLow = s.offLow := rfl
@[simp] theorem setOut_obl (m : Memory) (s : State) : (setOut m s).obl = s.obl := rfl
@[simp] theorem setOut_recent (m : Memory) (s : State) : (setOut m s).recent = s.recent := rfl
@[simp] theorem setOut_distMask (m : Memory) (s : State) : (setOut m s).distMask = s.distMask := rfl
@[simp] theorem setOut_lastCopyOffset (m : Memory) (s : State) : (setOut m s).lastCopyOffset = s.lastCopyOffset := rfl
@[simp] theorem setOut_inMem (m : Memory) (s : State) : (setOut m s).inMem = s.inMem := rfl
@[simp] theorem setOut_outMem (m : Memory) (s : State) : (setOut m s).outMem = m := rfl
@[simp] theorem setOut_stage (m : Memory) (s : State) : (setOut m s).stage = s.stage := rfl
@[simp] theorem setOut_copyLength (m : Memory) (s : State) : (setOut m s).copyLength = s.copyLength := rfl
@[simp] theorem setOut_matchDist (m : Memory) (s : State) : (setOut m s).matchDist = s.matchDist := rfl
@[simp] theorem setOut_ret (m : Memory) (s : State) : (setOut m s).ret = s.ret := rfl
@[simp] theorem setOut_outForgotten (m : Memory) (s : State) : (setOut m s).outForgotten = s.outForgotten := rfl
@[simp] theorem setOut_hostScript (m : Memory) (s : State) : (setOut m s).hostScript = s.hostScript := rfl
@[simp] theorem setOut_hostData (m : Memory) (s : State) : (setOut m s).hostData = s.hostData := rfl

/-! ### setRet -/

@[simp] theorem setRet_compSize (v : Word) (s : State) : (setRet v s).compSize = s.compSize := rfl
@[simp] theorem setRet_decompSize (v : Word) (s : State) : (setRet v s).decompSize = s.decompSize := rfl
@[simp] theorem setRet_phase (v : Word) (s : State) : (setRet v s).phase = s.phase := rfl
@[simp] theorem setRet_failCause (v : Word) (s : State) : (setRet v s).failCause = s.failCause := rfl
@[simp] theorem setRet_state1 (v : Word) (s : State) : (setRet v s).state1 = s.state1 := rfl
@[simp] theorem setRet_state2 (v : Word) (s : State) : (setRet v s).state2 = s.state2 := rfl
@[simp] theorem setRet_srcCur (v : Word) (s : State) : (setRet v s).srcCur = s.srcCur := rfl
@[simp] theorem setRet_srcEnd (v : Word) (s : State) : (setRet v s).srcEnd = s.srcEnd := rfl
@[simp] theorem setRet_dstStart (v : Word) (s : State) : (setRet v s).dstStart = s.dstStart := rfl
@[simp] theorem setRet_dstCur (v : Word) (s : State) : (setRet v s).dstCur = s.dstCur := rfl
@[simp] theorem setRet_dstEnd (v : Word) (s : State) : (setRet v s).dstEnd = s.dstEnd := rfl
@[simp] theorem setRet_dstQuantumEnd (v : Word) (s : State) : (setRet v s).dstQuantumEnd = s.dstQuantumEnd := rfl
@[simp] theorem setRet_firstLiteralPending (v : Word) (s : State) : (setRet v s).firstLiteralPending = s.firstLiteralPending := rfl
@[simp] theorem setRet_lit (v : Word) (s : State) : (setRet v s).lit = s.lit := rfl
@[simp] theorem setRet_offLow (v : Word) (s : State) : (setRet v s).offLow = s.offLow := rfl
@[simp] theorem setRet_obl (v : Word) (s : State) : (setRet v s).obl = s.obl := rfl
@[simp] theorem setRet_recent (v : Word) (s : State) : (setRet v s).recent = s.recent := rfl
@[simp] theorem setRet_distMask (v : Word) (s : State) : (setRet v s).distMask = s.distMask := rfl
@[simp] theorem setRet_lastCopyOffset (v : Word) (s : State) : (setRet v s).lastCopyOffset = s.lastCopyOffset := rfl
@[simp] theorem setRet_inMem (v : Word) (s : State) : (setRet v s).inMem = s.inMem := rfl
@[simp] theorem setRet_outMem (v : Word) (s : State) : (setRet v s).outMem = s.outMem := rfl
@[simp] theorem setRet_stage (v : Word) (s : State) : (setRet v s).stage = s.stage := rfl
@[simp] theorem setRet_copyLength (v : Word) (s : State) : (setRet v s).copyLength = s.copyLength := rfl
@[simp] theorem setRet_matchDist (v : Word) (s : State) : (setRet v s).matchDist = s.matchDist := rfl
@[simp] theorem setRet_ret (v : Word) (s : State) : (setRet v s).ret = v := rfl
@[simp] theorem setRet_outForgotten (v : Word) (s : State) : (setRet v s).outForgotten = s.outForgotten := rfl
@[simp] theorem setRet_hostScript (v : Word) (s : State) : (setRet v s).hostScript = s.hostScript := rfl
@[simp] theorem setRet_hostData (v : Word) (s : State) : (setRet v s).hostData = s.hostData := rfl

/-! ### advanceSrc -/

@[simp] theorem advanceSrc_compSize (n : Nat) (s : State) : (advanceSrc n s).compSize = s.compSize := rfl
@[simp] theorem advanceSrc_decompSize (n : Nat) (s : State) : (advanceSrc n s).decompSize = s.decompSize := rfl
@[simp] theorem advanceSrc_phase (n : Nat) (s : State) : (advanceSrc n s).phase = s.phase := rfl
@[simp] theorem advanceSrc_failCause (n : Nat) (s : State) : (advanceSrc n s).failCause = s.failCause := rfl
@[simp] theorem advanceSrc_state1 (n : Nat) (s : State) : (advanceSrc n s).state1 = s.state1 := rfl
@[simp] theorem advanceSrc_state2 (n : Nat) (s : State) : (advanceSrc n s).state2 = s.state2 := rfl
@[simp] theorem advanceSrc_srcCur (n : Nat) (s : State) : (advanceSrc n s).srcCur = s.srcCur + BitVec.ofNat 32 n := rfl
@[simp] theorem advanceSrc_srcEnd (n : Nat) (s : State) : (advanceSrc n s).srcEnd = s.srcEnd := rfl
@[simp] theorem advanceSrc_dstStart (n : Nat) (s : State) : (advanceSrc n s).dstStart = s.dstStart := rfl
@[simp] theorem advanceSrc_dstCur (n : Nat) (s : State) : (advanceSrc n s).dstCur = s.dstCur := rfl
@[simp] theorem advanceSrc_dstEnd (n : Nat) (s : State) : (advanceSrc n s).dstEnd = s.dstEnd := rfl
@[simp] theorem advanceSrc_dstQuantumEnd (n : Nat) (s : State) : (advanceSrc n s).dstQuantumEnd = s.dstQuantumEnd := rfl
@[simp] theorem advanceSrc_firstLiteralPending (n : Nat) (s : State) : (advanceSrc n s).firstLiteralPending = s.firstLiteralPending := rfl
@[simp] theorem advanceSrc_lit (n : Nat) (s : State) : (advanceSrc n s).lit = s.lit := rfl
@[simp] theorem advanceSrc_offLow (n : Nat) (s : State) : (advanceSrc n s).offLow = s.offLow := rfl
@[simp] theorem advanceSrc_obl (n : Nat) (s : State) : (advanceSrc n s).obl = s.obl := rfl
@[simp] theorem advanceSrc_recent (n : Nat) (s : State) : (advanceSrc n s).recent = s.recent := rfl
@[simp] theorem advanceSrc_distMask (n : Nat) (s : State) : (advanceSrc n s).distMask = s.distMask := rfl
@[simp] theorem advanceSrc_lastCopyOffset (n : Nat) (s : State) : (advanceSrc n s).lastCopyOffset = s.lastCopyOffset := rfl
@[simp] theorem advanceSrc_inMem (n : Nat) (s : State) : (advanceSrc n s).inMem = s.inMem := rfl
@[simp] theorem advanceSrc_outMem (n : Nat) (s : State) : (advanceSrc n s).outMem = s.outMem := rfl
@[simp] theorem advanceSrc_stage (n : Nat) (s : State) : (advanceSrc n s).stage = s.stage := rfl
@[simp] theorem advanceSrc_copyLength (n : Nat) (s : State) : (advanceSrc n s).copyLength = s.copyLength := rfl
@[simp] theorem advanceSrc_matchDist (n : Nat) (s : State) : (advanceSrc n s).matchDist = s.matchDist := rfl
@[simp] theorem advanceSrc_ret (n : Nat) (s : State) : (advanceSrc n s).ret = s.ret := rfl
@[simp] theorem advanceSrc_outForgotten (n : Nat) (s : State) : (advanceSrc n s).outForgotten = s.outForgotten := rfl
@[simp] theorem advanceSrc_hostScript (n : Nat) (s : State) : (advanceSrc n s).hostScript = s.hostScript := rfl
@[simp] theorem advanceSrc_hostData (n : Nat) (s : State) : (advanceSrc n s).hostData = s.hostData := rfl

/-! ### advanceDst -/

@[simp] theorem advanceDst_compSize (n : Nat) (s : State) : (advanceDst n s).compSize = s.compSize := rfl
@[simp] theorem advanceDst_decompSize (n : Nat) (s : State) : (advanceDst n s).decompSize = s.decompSize := rfl
@[simp] theorem advanceDst_phase (n : Nat) (s : State) : (advanceDst n s).phase = s.phase := rfl
@[simp] theorem advanceDst_failCause (n : Nat) (s : State) : (advanceDst n s).failCause = s.failCause := rfl
@[simp] theorem advanceDst_state1 (n : Nat) (s : State) : (advanceDst n s).state1 = s.state1 := rfl
@[simp] theorem advanceDst_state2 (n : Nat) (s : State) : (advanceDst n s).state2 = s.state2 := rfl
@[simp] theorem advanceDst_srcCur (n : Nat) (s : State) : (advanceDst n s).srcCur = s.srcCur := rfl
@[simp] theorem advanceDst_srcEnd (n : Nat) (s : State) : (advanceDst n s).srcEnd = s.srcEnd := rfl
@[simp] theorem advanceDst_dstStart (n : Nat) (s : State) : (advanceDst n s).dstStart = s.dstStart := rfl
@[simp] theorem advanceDst_dstCur (n : Nat) (s : State) : (advanceDst n s).dstCur = s.dstCur + BitVec.ofNat 32 n := rfl
@[simp] theorem advanceDst_dstEnd (n : Nat) (s : State) : (advanceDst n s).dstEnd = s.dstEnd := rfl
@[simp] theorem advanceDst_dstQuantumEnd (n : Nat) (s : State) : (advanceDst n s).dstQuantumEnd = s.dstQuantumEnd := rfl
@[simp] theorem advanceDst_firstLiteralPending (n : Nat) (s : State) : (advanceDst n s).firstLiteralPending = s.firstLiteralPending := rfl
@[simp] theorem advanceDst_lit (n : Nat) (s : State) : (advanceDst n s).lit = s.lit := rfl
@[simp] theorem advanceDst_offLow (n : Nat) (s : State) : (advanceDst n s).offLow = s.offLow := rfl
@[simp] theorem advanceDst_obl (n : Nat) (s : State) : (advanceDst n s).obl = s.obl := rfl
@[simp] theorem advanceDst_recent (n : Nat) (s : State) : (advanceDst n s).recent = s.recent := rfl
@[simp] theorem advanceDst_distMask (n : Nat) (s : State) : (advanceDst n s).distMask = s.distMask := rfl
@[simp] theorem advanceDst_lastCopyOffset (n : Nat) (s : State) : (advanceDst n s).lastCopyOffset = s.lastCopyOffset := rfl
@[simp] theorem advanceDst_inMem (n : Nat) (s : State) : (advanceDst n s).inMem = s.inMem := rfl
@[simp] theorem advanceDst_outMem (n : Nat) (s : State) : (advanceDst n s).outMem = s.outMem := rfl
@[simp] theorem advanceDst_stage (n : Nat) (s : State) : (advanceDst n s).stage = s.stage := rfl
@[simp] theorem advanceDst_copyLength (n : Nat) (s : State) : (advanceDst n s).copyLength = s.copyLength := rfl
@[simp] theorem advanceDst_matchDist (n : Nat) (s : State) : (advanceDst n s).matchDist = s.matchDist := rfl
@[simp] theorem advanceDst_ret (n : Nat) (s : State) : (advanceDst n s).ret = s.ret := rfl
@[simp] theorem advanceDst_outForgotten (n : Nat) (s : State) : (advanceDst n s).outForgotten = s.outForgotten := rfl
@[simp] theorem advanceDst_hostScript (n : Nat) (s : State) : (advanceDst n s).hostScript = s.hostScript := rfl
@[simp] theorem advanceDst_hostData (n : Nat) (s : State) : (advanceDst n s).hostData = s.hostData := rfl

/-! ### swapStates -/

@[simp] theorem swapStates_compSize (s : State) : (swapStates s).compSize = s.compSize := rfl
@[simp] theorem swapStates_decompSize (s : State) : (swapStates s).decompSize = s.decompSize := rfl
@[simp] theorem swapStates_phase (s : State) : (swapStates s).phase = s.phase := rfl
@[simp] theorem swapStates_failCause (s : State) : (swapStates s).failCause = s.failCause := rfl
@[simp] theorem swapStates_state1 (s : State) : (swapStates s).state1 = s.state2 := rfl
@[simp] theorem swapStates_state2 (s : State) : (swapStates s).state2 = s.state1 := rfl
@[simp] theorem swapStates_srcCur (s : State) : (swapStates s).srcCur = s.srcCur := rfl
@[simp] theorem swapStates_srcEnd (s : State) : (swapStates s).srcEnd = s.srcEnd := rfl
@[simp] theorem swapStates_dstStart (s : State) : (swapStates s).dstStart = s.dstStart := rfl
@[simp] theorem swapStates_dstCur (s : State) : (swapStates s).dstCur = s.dstCur := rfl
@[simp] theorem swapStates_dstEnd (s : State) : (swapStates s).dstEnd = s.dstEnd := rfl
@[simp] theorem swapStates_dstQuantumEnd (s : State) : (swapStates s).dstQuantumEnd = s.dstQuantumEnd := rfl
@[simp] theorem swapStates_firstLiteralPending (s : State) : (swapStates s).firstLiteralPending = s.firstLiteralPending := rfl
@[simp] theorem swapStates_lit (s : State) : (swapStates s).lit = s.lit := rfl
@[simp] theorem swapStates_offLow (s : State) : (swapStates s).offLow = s.offLow := rfl
@[simp] theorem swapStates_obl (s : State) : (swapStates s).obl = s.obl := rfl
@[simp] theorem swapStates_recent (s : State) : (swapStates s).recent = s.recent := rfl
@[simp] theorem swapStates_distMask (s : State) : (swapStates s).distMask = s.distMask := rfl
@[simp] theorem swapStates_lastCopyOffset (s : State) : (swapStates s).lastCopyOffset = s.lastCopyOffset := rfl
@[simp] theorem swapStates_inMem (s : State) : (swapStates s).inMem = s.inMem := rfl
@[simp] theorem swapStates_outMem (s : State) : (swapStates s).outMem = s.outMem := rfl
@[simp] theorem swapStates_stage (s : State) : (swapStates s).stage = s.stage := rfl
@[simp] theorem swapStates_copyLength (s : State) : (swapStates s).copyLength = s.copyLength := rfl
@[simp] theorem swapStates_matchDist (s : State) : (swapStates s).matchDist = s.matchDist := rfl
@[simp] theorem swapStates_ret (s : State) : (swapStates s).ret = s.ret := rfl
@[simp] theorem swapStates_outForgotten (s : State) : (swapStates s).outForgotten = s.outForgotten := rfl
@[simp] theorem swapStates_hostScript (s : State) : (swapStates s).hostScript = s.hostScript := rfl
@[simp] theorem swapStates_hostData (s : State) : (swapStates s).hostData = s.hostData := rfl

/-! ### setFirstLiteral -/

@[simp] theorem setFirstLiteral_compSize (b : Bool) (s : State) : (setFirstLiteral b s).compSize = s.compSize := rfl
@[simp] theorem setFirstLiteral_decompSize (b : Bool) (s : State) : (setFirstLiteral b s).decompSize = s.decompSize := rfl
@[simp] theorem setFirstLiteral_phase (b : Bool) (s : State) : (setFirstLiteral b s).phase = s.phase := rfl
@[simp] theorem setFirstLiteral_failCause (b : Bool) (s : State) : (setFirstLiteral b s).failCause = s.failCause := rfl
@[simp] theorem setFirstLiteral_state1 (b : Bool) (s : State) : (setFirstLiteral b s).state1 = s.state1 := rfl
@[simp] theorem setFirstLiteral_state2 (b : Bool) (s : State) : (setFirstLiteral b s).state2 = s.state2 := rfl
@[simp] theorem setFirstLiteral_srcCur (b : Bool) (s : State) : (setFirstLiteral b s).srcCur = s.srcCur := rfl
@[simp] theorem setFirstLiteral_srcEnd (b : Bool) (s : State) : (setFirstLiteral b s).srcEnd = s.srcEnd := rfl
@[simp] theorem setFirstLiteral_dstStart (b : Bool) (s : State) : (setFirstLiteral b s).dstStart = s.dstStart := rfl
@[simp] theorem setFirstLiteral_dstCur (b : Bool) (s : State) : (setFirstLiteral b s).dstCur = s.dstCur := rfl
@[simp] theorem setFirstLiteral_dstEnd (b : Bool) (s : State) : (setFirstLiteral b s).dstEnd = s.dstEnd := rfl
@[simp] theorem setFirstLiteral_dstQuantumEnd (b : Bool) (s : State) : (setFirstLiteral b s).dstQuantumEnd = s.dstQuantumEnd := rfl
@[simp] theorem setFirstLiteral_firstLiteralPending (b : Bool) (s : State) : (setFirstLiteral b s).firstLiteralPending = b := rfl
@[simp] theorem setFirstLiteral_lit (b : Bool) (s : State) : (setFirstLiteral b s).lit = s.lit := rfl
@[simp] theorem setFirstLiteral_offLow (b : Bool) (s : State) : (setFirstLiteral b s).offLow = s.offLow := rfl
@[simp] theorem setFirstLiteral_obl (b : Bool) (s : State) : (setFirstLiteral b s).obl = s.obl := rfl
@[simp] theorem setFirstLiteral_recent (b : Bool) (s : State) : (setFirstLiteral b s).recent = s.recent := rfl
@[simp] theorem setFirstLiteral_distMask (b : Bool) (s : State) : (setFirstLiteral b s).distMask = s.distMask := rfl
@[simp] theorem setFirstLiteral_lastCopyOffset (b : Bool) (s : State) : (setFirstLiteral b s).lastCopyOffset = s.lastCopyOffset := rfl
@[simp] theorem setFirstLiteral_inMem (b : Bool) (s : State) : (setFirstLiteral b s).inMem = s.inMem := rfl
@[simp] theorem setFirstLiteral_outMem (b : Bool) (s : State) : (setFirstLiteral b s).outMem = s.outMem := rfl
@[simp] theorem setFirstLiteral_stage (b : Bool) (s : State) : (setFirstLiteral b s).stage = s.stage := rfl
@[simp] theorem setFirstLiteral_copyLength (b : Bool) (s : State) : (setFirstLiteral b s).copyLength = s.copyLength := rfl
@[simp] theorem setFirstLiteral_matchDist (b : Bool) (s : State) : (setFirstLiteral b s).matchDist = s.matchDist := rfl
@[simp] theorem setFirstLiteral_ret (b : Bool) (s : State) : (setFirstLiteral b s).ret = s.ret := rfl
@[simp] theorem setFirstLiteral_outForgotten (b : Bool) (s : State) : (setFirstLiteral b s).outForgotten = s.outForgotten := rfl
@[simp] theorem setFirstLiteral_hostScript (b : Bool) (s : State) : (setFirstLiteral b s).hostScript = s.hostScript := rfl
@[simp] theorem setFirstLiteral_hostData (b : Bool) (s : State) : (setFirstLiteral b s).hostData = s.hostData := rfl

/-! ### gotoPhase -/

@[simp] theorem gotoPhase_compSize (p : Phase) (s : State) : (gotoPhase p s).compSize = s.compSize := rfl
@[simp] theorem gotoPhase_decompSize (p : Phase) (s : State) : (gotoPhase p s).decompSize = s.decompSize := rfl
@[simp] theorem gotoPhase_phase (p : Phase) (s : State) : (gotoPhase p s).phase = p := rfl
@[simp] theorem gotoPhase_failCause (p : Phase) (s : State) : (gotoPhase p s).failCause = s.failCause := rfl
@[simp] theorem gotoPhase_state1 (p : Phase) (s : State) : (gotoPhase p s).state1 = s.state1 := rfl
@[simp] theorem gotoPhase_state2 (p : Phase) (s : State) : (gotoPhase p s).state2 = s.state2 := rfl
@[simp] theorem gotoPhase_srcCur (p : Phase) (s : State) : (gotoPhase p s).srcCur = s.srcCur := rfl
@[simp] theorem gotoPhase_srcEnd (p : Phase) (s : State) : (gotoPhase p s).srcEnd = s.srcEnd := rfl
@[simp] theorem gotoPhase_dstStart (p : Phase) (s : State) : (gotoPhase p s).dstStart = s.dstStart := rfl
@[simp] theorem gotoPhase_dstCur (p : Phase) (s : State) : (gotoPhase p s).dstCur = s.dstCur := rfl
@[simp] theorem gotoPhase_dstEnd (p : Phase) (s : State) : (gotoPhase p s).dstEnd = s.dstEnd := rfl
@[simp] theorem gotoPhase_dstQuantumEnd (p : Phase) (s : State) : (gotoPhase p s).dstQuantumEnd = s.dstQuantumEnd := rfl
@[simp] theorem gotoPhase_firstLiteralPending (p : Phase) (s : State) : (gotoPhase p s).firstLiteralPending = s.firstLiteralPending := rfl
@[simp] theorem gotoPhase_lit (p : Phase) (s : State) : (gotoPhase p s).lit = s.lit := rfl
@[simp] theorem gotoPhase_offLow (p : Phase) (s : State) : (gotoPhase p s).offLow = s.offLow := rfl
@[simp] theorem gotoPhase_obl (p : Phase) (s : State) : (gotoPhase p s).obl = s.obl := rfl
@[simp] theorem gotoPhase_recent (p : Phase) (s : State) : (gotoPhase p s).recent = s.recent := rfl
@[simp] theorem gotoPhase_distMask (p : Phase) (s : State) : (gotoPhase p s).distMask = s.distMask := rfl
@[simp] theorem gotoPhase_lastCopyOffset (p : Phase) (s : State) : (gotoPhase p s).lastCopyOffset = s.lastCopyOffset := rfl
@[simp] theorem gotoPhase_inMem (p : Phase) (s : State) : (gotoPhase p s).inMem = s.inMem := rfl
@[simp] theorem gotoPhase_outMem (p : Phase) (s : State) : (gotoPhase p s).outMem = s.outMem := rfl
@[simp] theorem gotoPhase_stage (p : Phase) (s : State) : (gotoPhase p s).stage = .head := rfl
@[simp] theorem gotoPhase_copyLength (p : Phase) (s : State) : (gotoPhase p s).copyLength = s.copyLength := rfl
@[simp] theorem gotoPhase_matchDist (p : Phase) (s : State) : (gotoPhase p s).matchDist = s.matchDist := rfl
@[simp] theorem gotoPhase_ret (p : Phase) (s : State) : (gotoPhase p s).ret = s.ret := rfl
@[simp] theorem gotoPhase_outForgotten (p : Phase) (s : State) : (gotoPhase p s).outForgotten = s.outForgotten := rfl
@[simp] theorem gotoPhase_hostScript (p : Phase) (s : State) : (gotoPhase p s).hostScript = s.hostScript := rfl
@[simp] theorem gotoPhase_hostData (p : Phase) (s : State) : (gotoPhase p s).hostData = s.hostData := rfl

/-! ### gotoStage -/

@[simp] theorem gotoStage_compSize (st : Stage) (s : State) : (gotoStage st s).compSize = s.compSize := rfl
@[simp] theorem gotoStage_decompSize (st : Stage) (s : State) : (gotoStage st s).decompSize = s.decompSize := rfl
@[simp] theorem gotoStage_phase (st : Stage) (s : State) : (gotoStage st s).phase = s.phase := rfl
@[simp] theorem gotoStage_failCause (st : Stage) (s : State) : (gotoStage st s).failCause = s.failCause := rfl
@[simp] theorem gotoStage_state1 (st : Stage) (s : State) : (gotoStage st s).state1 = s.state1 := rfl
@[simp] theorem gotoStage_state2 (st : Stage) (s : State) : (gotoStage st s).state2 = s.state2 := rfl
@[simp] theorem gotoStage_srcCur (st : Stage) (s : State) : (gotoStage st s).srcCur = s.srcCur := rfl
@[simp] theorem gotoStage_srcEnd (st : Stage) (s : State) : (gotoStage st s).srcEnd = s.srcEnd := rfl
@[simp] theorem gotoStage_dstStart (st : Stage) (s : State) : (gotoStage st s).dstStart = s.dstStart := rfl
@[simp] theorem gotoStage_dstCur (st : Stage) (s : State) : (gotoStage st s).dstCur = s.dstCur := rfl
@[simp] theorem gotoStage_dstEnd (st : Stage) (s : State) : (gotoStage st s).dstEnd = s.dstEnd := rfl
@[simp] theorem gotoStage_dstQuantumEnd (st : Stage) (s : State) : (gotoStage st s).dstQuantumEnd = s.dstQuantumEnd := rfl
@[simp] theorem gotoStage_firstLiteralPending (st : Stage) (s : State) : (gotoStage st s).firstLiteralPending = s.firstLiteralPending := rfl
@[simp] theorem gotoStage_lit (st : Stage) (s : State) : (gotoStage st s).lit = s.lit := rfl
@[simp] theorem gotoStage_offLow (st : Stage) (s : State) : (gotoStage st s).offLow = s.offLow := rfl
@[simp] theorem gotoStage_obl (st : Stage) (s : State) : (gotoStage st s).obl = s.obl := rfl
@[simp] theorem gotoStage_recent (st : Stage) (s : State) : (gotoStage st s).recent = s.recent := rfl
@[simp] theorem gotoStage_distMask (st : Stage) (s : State) : (gotoStage st s).distMask = s.distMask := rfl
@[simp] theorem gotoStage_lastCopyOffset (st : Stage) (s : State) : (gotoStage st s).lastCopyOffset = s.lastCopyOffset := rfl
@[simp] theorem gotoStage_inMem (st : Stage) (s : State) : (gotoStage st s).inMem = s.inMem := rfl
@[simp] theorem gotoStage_outMem (st : Stage) (s : State) : (gotoStage st s).outMem = s.outMem := rfl
@[simp] theorem gotoStage_stage (st : Stage) (s : State) : (gotoStage st s).stage = st := rfl
@[simp] theorem gotoStage_copyLength (st : Stage) (s : State) : (gotoStage st s).copyLength = s.copyLength := rfl
@[simp] theorem gotoStage_matchDist (st : Stage) (s : State) : (gotoStage st s).matchDist = s.matchDist := rfl
@[simp] theorem gotoStage_ret (st : Stage) (s : State) : (gotoStage st s).ret = s.ret := rfl
@[simp] theorem gotoStage_outForgotten (st : Stage) (s : State) : (gotoStage st s).outForgotten = s.outForgotten := rfl
@[simp] theorem gotoStage_hostScript (st : Stage) (s : State) : (gotoStage st s).hostScript = s.hostScript := rfl
@[simp] theorem gotoStage_hostData (st : Stage) (s : State) : (gotoStage st s).hostData = s.hostData := rfl

/-! ### forgetOut -/

@[simp] theorem forgetOut_compSize (s : State) : (forgetOut s).compSize = s.compSize := rfl
@[simp] theorem forgetOut_decompSize (s : State) : (forgetOut s).decompSize = s.decompSize := rfl
@[simp] theorem forgetOut_phase (s : State) : (forgetOut s).phase = s.phase := rfl
@[simp] theorem forgetOut_failCause (s : State) : (forgetOut s).failCause = s.failCause := rfl
@[simp] theorem forgetOut_state1 (s : State) : (forgetOut s).state1 = s.state1 := rfl
@[simp] theorem forgetOut_state2 (s : State) : (forgetOut s).state2 = s.state2 := rfl
@[simp] theorem forgetOut_srcCur (s : State) : (forgetOut s).srcCur = s.srcCur := rfl
@[simp] theorem forgetOut_srcEnd (s : State) : (forgetOut s).srcEnd = s.srcEnd := rfl
@[simp] theorem forgetOut_dstStart (s : State) : (forgetOut s).dstStart = s.dstStart := rfl
@[simp] theorem forgetOut_dstCur (s : State) : (forgetOut s).dstCur = s.dstCur := rfl
@[simp] theorem forgetOut_dstEnd (s : State) : (forgetOut s).dstEnd = s.dstEnd := rfl
@[simp] theorem forgetOut_dstQuantumEnd (s : State) : (forgetOut s).dstQuantumEnd = s.dstQuantumEnd := rfl
@[simp] theorem forgetOut_firstLiteralPending (s : State) : (forgetOut s).firstLiteralPending = s.firstLiteralPending := rfl
@[simp] theorem forgetOut_lit (s : State) : (forgetOut s).lit = s.lit := rfl
@[simp] theorem forgetOut_offLow (s : State) : (forgetOut s).offLow = s.offLow := rfl
@[simp] theorem forgetOut_obl (s : State) : (forgetOut s).obl = s.obl := rfl
@[simp] theorem forgetOut_recent (s : State) : (forgetOut s).recent = s.recent := rfl
@[simp] theorem forgetOut_distMask (s : State) : (forgetOut s).distMask = s.distMask := rfl
@[simp] theorem forgetOut_lastCopyOffset (s : State) : (forgetOut s).lastCopyOffset = s.lastCopyOffset := rfl
@[simp] theorem forgetOut_inMem (s : State) : (forgetOut s).inMem = s.inMem := rfl
@[simp] theorem forgetOut_outMem (s : State) : (forgetOut s).outMem = memForget s.outMem s.decompSize.toNat := rfl
@[simp] theorem forgetOut_stage (s : State) : (forgetOut s).stage = s.stage := rfl
@[simp] theorem forgetOut_copyLength (s : State) : (forgetOut s).copyLength = s.copyLength := rfl
@[simp] theorem forgetOut_matchDist (s : State) : (forgetOut s).matchDist = s.matchDist := rfl
@[simp] theorem forgetOut_ret (s : State) : (forgetOut s).ret = s.ret := rfl
@[simp] theorem forgetOut_outForgotten (s : State) : (forgetOut s).outForgotten = s.decompSize.toNat :: s.outForgotten := rfl
@[simp] theorem forgetOut_hostScript (s : State) : (forgetOut s).hostScript = s.hostScript := rfl
@[simp] theorem forgetOut_hostData (s : State) : (forgetOut s).hostData = s.hostData := rfl

/-! ### raiseFailure -/

@[simp] theorem raiseFailure_compSize (c : FailCause) (s : State) : (raiseFailure c s).compSize = s.compSize := rfl
@[simp] theorem raiseFailure_decompSize (c : FailCause) (s : State) : (raiseFailure c s).decompSize = s.decompSize := rfl
@[simp] theorem raiseFailure_phase (c : FailCause) (s : State) : (raiseFailure c s).phase = .doneFail := rfl
@[simp] theorem raiseFailure_failCause (c : FailCause) (s : State) : (raiseFailure c s).failCause = c := rfl
@[simp] theorem raiseFailure_state1 (c : FailCause) (s : State) : (raiseFailure c s).state1 = s.state1 := rfl
@[simp] theorem raiseFailure_state2 (c : FailCause) (s : State) : (raiseFailure c s).state2 = s.state2 := rfl
@[simp] theorem raiseFailure_srcCur (c : FailCause) (s : State) : (raiseFailure c s).srcCur = s.srcCur := rfl
@[simp] theorem raiseFailure_srcEnd (c : FailCause) (s : State) : (raiseFailure c s).srcEnd = s.srcEnd := rfl
@[simp] theorem raiseFailure_dstStart (c : FailCause) (s : State) : (raiseFailure c s).dstStart = s.dstStart := rfl
@[simp] theorem raiseFailure_dstCur (c : FailCause) (s : State) : (raiseFailure c s).dstCur = s.dstCur := rfl
@[simp] theorem raiseFailure_dstEnd (c : FailCause) (s : State) : (raiseFailure c s).dstEnd = s.dstEnd := rfl
@[simp] theorem raiseFailure_dstQuantumEnd (c : FailCause) (s : State) : (raiseFailure c s).dstQuantumEnd = s.dstQuantumEnd := rfl
@[simp] theorem raiseFailure_firstLiteralPending (c : FailCause) (s : State) : (raiseFailure c s).firstLiteralPending = s.firstLiteralPending := rfl
@[simp] theorem raiseFailure_lit (c : FailCause) (s : State) : (raiseFailure c s).lit = s.lit := rfl
@[simp] theorem raiseFailure_offLow (c : FailCause) (s : State) : (raiseFailure c s).offLow = s.offLow := rfl
@[simp] theorem raiseFailure_obl (c : FailCause) (s : State) : (raiseFailure c s).obl = s.obl := rfl
@[simp] theorem raiseFailure_recent (c : FailCause) (s : State) : (raiseFailure c s).recent = s.recent := rfl
@[simp] theorem raiseFailure_distMask (c : FailCause) (s : State) : (raiseFailure c s).distMask = s.distMask := rfl
@[simp] theorem raiseFailure_lastCopyOffset (c : FailCause) (s : State) : (raiseFailure c s).lastCopyOffset = s.lastCopyOffset := rfl
@[simp] theorem raiseFailure_inMem (c : FailCause) (s : State) : (raiseFailure c s).inMem = s.inMem := rfl
@[simp] theorem raiseFailure_outMem (c : FailCause) (s : State) : (raiseFailure c s).outMem = memForget s.outMem s.decompSize.toNat := rfl
@[simp] theorem raiseFailure_stage (c : FailCause) (s : State) : (raiseFailure c s).stage = .head := rfl
@[simp] theorem raiseFailure_copyLength (c : FailCause) (s : State) : (raiseFailure c s).copyLength = s.copyLength := rfl
@[simp] theorem raiseFailure_matchDist (c : FailCause) (s : State) : (raiseFailure c s).matchDist = s.matchDist := rfl
@[simp] theorem raiseFailure_ret (c : FailCause) (s : State) : (raiseFailure c s).ret = s.ret := rfl
@[simp] theorem raiseFailure_outForgotten (c : FailCause) (s : State) : (raiseFailure c s).outForgotten = s.decompSize.toNat :: s.outForgotten := rfl
@[simp] theorem raiseFailure_hostScript (c : FailCause) (s : State) : (raiseFailure c s).hostScript = s.hostScript := rfl
@[simp] theorem raiseFailure_hostData (c : FailCause) (s : State) : (raiseFailure c s).hostData = s.hostData := rfl

/-! ### lengthDecoded -/

@[simp] theorem lengthDecoded_compSize (len : Nat) (s : State) : (lengthDecoded len s).compSize = s.compSize := rfl
@[simp] theorem lengthDecoded_decompSize (len : Nat) (s : State) : (lengthDecoded len s).decompSize = s.decompSize := rfl
@[simp] theorem lengthDecoded_phase (len : Nat) (s : State) : (lengthDecoded len s).phase = s.phase := rfl
@[simp] theorem lengthDecoded_failCause (len : Nat) (s : State) : (lengthDecoded len s).failCause = s.failCause := rfl
@[simp] theorem lengthDecoded_state1 (len : Nat) (s : State) : (lengthDecoded len s).state1 = s.state1 := rfl
@[simp] theorem lengthDecoded_state2 (len : Nat) (s : State) : (lengthDecoded len s).state2 = s.state2 := rfl
@[simp] theorem lengthDecoded_srcCur (len : Nat) (s : State) : (lengthDecoded len s).srcCur = s.srcCur := rfl
@[simp] theorem lengthDecoded_srcEnd (len : Nat) (s : State) : (lengthDecoded len s).srcEnd = s.srcEnd := rfl
@[simp] theorem lengthDecoded_dstStart (len : Nat) (s : State) : (lengthDecoded len s).dstStart = s.dstStart := rfl
@[simp] theorem lengthDecoded_dstCur (len : Nat) (s : State) : (lengthDecoded len s).dstCur = s.dstCur := rfl
@[simp] theorem lengthDecoded_dstEnd (len : Nat) (s : State) : (lengthDecoded len s).dstEnd = s.dstEnd := rfl
@[simp] theorem lengthDecoded_dstQuantumEnd (len : Nat) (s : State) : (lengthDecoded len s).dstQuantumEnd = s.dstQuantumEnd := rfl
@[simp] theorem lengthDecoded_firstLiteralPending (len : Nat) (s : State) : (lengthDecoded len s).firstLiteralPending = s.firstLiteralPending := rfl
@[simp] theorem lengthDecoded_lit (len : Nat) (s : State) : (lengthDecoded len s).lit = s.lit := rfl
@[simp] theorem lengthDecoded_offLow (len : Nat) (s : State) : (lengthDecoded len s).offLow = s.offLow := rfl
@[simp] theorem lengthDecoded_obl (len : Nat) (s : State) : (lengthDecoded len s).obl = s.obl := rfl
@[simp] theorem lengthDecoded_recent (len : Nat) (s : State) : (lengthDecoded len s).recent = s.recent := rfl
@[simp] theorem lengthDecoded_distMask (len : Nat) (s : State) : (lengthDecoded len s).distMask = s.distMask := rfl
@[simp] theorem lengthDecoded_lastCopyOffset (len : Nat) (s : State) : (lengthDecoded len s).lastCopyOffset = s.lastCopyOffset := rfl
@[simp] theorem lengthDecoded_inMem (len : Nat) (s : State) : (lengthDecoded len s).inMem = s.inMem := rfl
@[simp] theorem lengthDecoded_outMem (len : Nat) (s : State) : (lengthDecoded len s).outMem = s.outMem := rfl
@[simp] theorem lengthDecoded_stage (len : Nat) (s : State) : (lengthDecoded len s).stage = .distance := rfl
@[simp] theorem lengthDecoded_copyLength (len : Nat) (s : State) : (lengthDecoded len s).copyLength = BitVec.ofNat 32 len := rfl
@[simp] theorem lengthDecoded_matchDist (len : Nat) (s : State) : (lengthDecoded len s).matchDist = s.matchDist := rfl
@[simp] theorem lengthDecoded_ret (len : Nat) (s : State) : (lengthDecoded len s).ret = s.ret := rfl
@[simp] theorem lengthDecoded_outForgotten (len : Nat) (s : State) : (lengthDecoded len s).outForgotten = s.outForgotten := rfl
@[simp] theorem lengthDecoded_hostScript (len : Nat) (s : State) : (lengthDecoded len s).hostScript = s.hostScript := rfl
@[simp] theorem lengthDecoded_hostData (len : Nat) (s : State) : (lengthDecoded len s).hostData = s.hostData := rfl

/-! ### distanceDecoded -/

@[simp] theorem distanceDecoded_compSize (d : Word) (s : State) : (distanceDecoded d s).compSize = s.compSize := rfl
@[simp] theorem distanceDecoded_decompSize (d : Word) (s : State) : (distanceDecoded d s).decompSize = s.decompSize := rfl
@[simp] theorem distanceDecoded_phase (d : Word) (s : State) : (distanceDecoded d s).phase = s.phase := rfl
@[simp] theorem distanceDecoded_failCause (d : Word) (s : State) : (distanceDecoded d s).failCause = s.failCause := rfl
@[simp] theorem distanceDecoded_state1 (d : Word) (s : State) : (distanceDecoded d s).state1 = s.state1 := rfl
@[simp] theorem distanceDecoded_state2 (d : Word) (s : State) : (distanceDecoded d s).state2 = s.state2 := rfl
@[simp] theorem distanceDecoded_srcCur (d : Word) (s : State) : (distanceDecoded d s).srcCur = s.srcCur := rfl
@[simp] theorem distanceDecoded_srcEnd (d : Word) (s : State) : (distanceDecoded d s).srcEnd = s.srcEnd := rfl
@[simp] theorem distanceDecoded_dstStart (d : Word) (s : State) : (distanceDecoded d s).dstStart = s.dstStart := rfl
@[simp] theorem distanceDecoded_dstCur (d : Word) (s : State) : (distanceDecoded d s).dstCur = s.dstCur := rfl
@[simp] theorem distanceDecoded_dstEnd (d : Word) (s : State) : (distanceDecoded d s).dstEnd = s.dstEnd := rfl
@[simp] theorem distanceDecoded_dstQuantumEnd (d : Word) (s : State) : (distanceDecoded d s).dstQuantumEnd = s.dstQuantumEnd := rfl
@[simp] theorem distanceDecoded_firstLiteralPending (d : Word) (s : State) : (distanceDecoded d s).firstLiteralPending = s.firstLiteralPending := rfl
@[simp] theorem distanceDecoded_lit (d : Word) (s : State) : (distanceDecoded d s).lit = s.lit := rfl
@[simp] theorem distanceDecoded_offLow (d : Word) (s : State) : (distanceDecoded d s).offLow = s.offLow := rfl
@[simp] theorem distanceDecoded_obl (d : Word) (s : State) : (distanceDecoded d s).obl = s.obl := rfl
@[simp] theorem distanceDecoded_recent (d : Word) (s : State) : (distanceDecoded d s).recent = s.recent := rfl
@[simp] theorem distanceDecoded_distMask (d : Word) (s : State) : (distanceDecoded d s).distMask = s.distMask := rfl
@[simp] theorem distanceDecoded_lastCopyOffset (d : Word) (s : State) : (distanceDecoded d s).lastCopyOffset = s.lastCopyOffset := rfl
@[simp] theorem distanceDecoded_inMem (d : Word) (s : State) : (distanceDecoded d s).inMem = s.inMem := rfl
@[simp] theorem distanceDecoded_outMem (d : Word) (s : State) : (distanceDecoded d s).outMem = s.outMem := rfl
@[simp] theorem distanceDecoded_stage (d : Word) (s : State) : (distanceDecoded d s).stage = .copy := rfl
@[simp] theorem distanceDecoded_copyLength (d : Word) (s : State) : (distanceDecoded d s).copyLength = s.copyLength := rfl
@[simp] theorem distanceDecoded_matchDist (d : Word) (s : State) : (distanceDecoded d s).matchDist = d := rfl
@[simp] theorem distanceDecoded_ret (d : Word) (s : State) : (distanceDecoded d s).ret = s.ret := rfl
@[simp] theorem distanceDecoded_outForgotten (d : Word) (s : State) : (distanceDecoded d s).outForgotten = s.outForgotten := rfl
@[simp] theorem distanceDecoded_hostScript (d : Word) (s : State) : (distanceDecoded d s).hostScript = s.hostScript := rfl
@[simp] theorem distanceDecoded_hostData (d : Word) (s : State) : (distanceDecoded d s).hostData = s.hostData := rfl

/-! ### setModel -/

@[simp] theorem setModel_compSize (s : State) (m : ModelId) (M : AdaptiveModel) : (s.setModel m M).compSize = s.compSize := by
  cases m <;> rfl
@[simp] theorem setModel_decompSize (s : State) (m : ModelId) (M : AdaptiveModel) : (s.setModel m M).decompSize = s.decompSize := by
  cases m <;> rfl
@[simp] theorem setModel_phase (s : State) (m : ModelId) (M : AdaptiveModel) : (s.setModel m M).phase = s.phase := by
  cases m <;> rfl
@[simp] theorem setModel_failCause (s : State) (m : ModelId) (M : AdaptiveModel) : (s.setModel m M).failCause = s.failCause := by
  cases m <;> rfl
@[simp] theorem setModel_state1 (s : State) (m : ModelId) (M : AdaptiveModel) : (s.setModel m M).state1 = s.state1 := by
  cases m <;> rfl
@[simp] theorem setModel_state2 (s : State) (m : ModelId) (M : AdaptiveModel) : (s.setModel m M).state2 = s.state2 := by
  cases m <;> rfl
@[simp] theorem setModel_srcCur (s : State) (m : ModelId) (M : AdaptiveModel) : (s.setModel m M).srcCur = s.srcCur := by
  cases m <;> rfl
@[simp] theorem setModel_srcEnd (s : State) (m : ModelId) (M : AdaptiveModel) : (s.setModel m M).srcEnd = s.srcEnd := by
  cases m <;> rfl
@[simp] theorem setModel_dstStart (s : State) (m : ModelId) (M : AdaptiveModel) : (s.setModel m M).dstStart = s.dstStart := by
  cases m <;> rfl
@[simp] theorem setModel_dstCur (s : State) (m : ModelId) (M : AdaptiveModel) : (s.setModel m M).dstCur = s.dstCur := by
  cases m <;> rfl
@[simp] theorem setModel_dstEnd (s : State) (m : ModelId) (M : AdaptiveModel) : (s.setModel m M).dstEnd = s.dstEnd := by
  cases m <;> rfl
@[simp] theorem setModel_dstQuantumEnd (s : State) (m : ModelId) (M : AdaptiveModel) : (s.setModel m M).dstQuantumEnd = s.dstQuantumEnd := by
  cases m <;> rfl
@[simp] theorem setModel_firstLiteralPending (s : State) (m : ModelId) (M : AdaptiveModel) : (s.setModel m M).firstLiteralPending = s.firstLiteralPending := by
  cases m <;> rfl
@[simp] theorem setModel_recent (s : State) (m : ModelId) (M : AdaptiveModel) : (s.setModel m M).recent = s.recent := by
  cases m <;> rfl
@[simp] theorem setModel_distMask (s : State) (m : ModelId) (M : AdaptiveModel) : (s.setModel m M).distMask = s.distMask := by
  cases m <;> rfl
@[simp] theorem setModel_lastCopyOffset (s : State) (m : ModelId) (M : AdaptiveModel) : (s.setModel m M).lastCopyOffset = s.lastCopyOffset := by
  cases m <;> rfl
@[simp] theorem setModel_inMem (s : State) (m : ModelId) (M : AdaptiveModel) : (s.setModel m M).inMem = s.inMem := by
  cases m <;> rfl
@[simp] theorem setModel_outMem (s : State) (m : ModelId) (M : AdaptiveModel) : (s.setModel m M).outMem = s.outMem := by
  cases m <;> rfl
@[simp] theorem setModel_stage (s : State) (m : ModelId) (M : AdaptiveModel) : (s.setModel m M).stage = s.stage := by
  cases m <;> rfl
@[simp] theorem setModel_copyLength (s : State) (m : ModelId) (M : AdaptiveModel) : (s.setModel m M).copyLength = s.copyLength := by
  cases m <;> rfl
@[simp] theorem setModel_matchDist (s : State) (m : ModelId) (M : AdaptiveModel) : (s.setModel m M).matchDist = s.matchDist := by
  cases m <;> rfl
@[simp] theorem setModel_ret (s : State) (m : ModelId) (M : AdaptiveModel) : (s.setModel m M).ret = s.ret := by
  cases m <;> rfl
@[simp] theorem setModel_outForgotten (s : State) (m : ModelId) (M : AdaptiveModel) : (s.setModel m M).outForgotten = s.outForgotten := by
  cases m <;> rfl
@[simp] theorem setModel_hostScript (s : State) (m : ModelId) (M : AdaptiveModel) : (s.setModel m M).hostScript = s.hostScript := by
  cases m <;> rfl
@[simp] theorem setModel_hostData (s : State) (m : ModelId) (M : AdaptiveModel) : (s.setModel m M).hostData = s.hostData := by
  cases m <;> rfl

/-- Reading back the model just written. -/
@[simp] theorem model_setModel_same (s : State) (m : ModelId) (M : AdaptiveModel) : (s.setModel m M).model m = M := by
  cases m <;> simp [State.setModel, State.model]

/-- The instances share nothing (R34). -/
theorem model_setModel_other (s : State) (m k : ModelId) (M : AdaptiveModel) (h : k ≠ m) :
    (s.setModel m M).model k = s.model k := by
  cases m <;> cases k <;> simp_all [State.setModel, State.model]
  all_goals
    rw [Vector.getElem_set_ne]
    intro hp
    exact h (Fin.ext hp.symm)

end Sys2Proof.Machine
end

