-- ==== Sys2Proof/Laws/Ops.lean ====
section
/-! SUPPORT. For each shared operation, once, everything it can do: the lemmas `…_ok` and `…_short` run it forward, the lemmas
`…_inv` say what follows when it answers. They hold under any parameters `P` (R7). -/

namespace Sys2Proof.Machine

variable {P : Parameters}

/-! ### Sequencing -/

@[simp] theorem bind_ok {α β : Type} (a : α) (f : α → Except Stop β) : (Except.ok a >>= f) = f a := rfl

@[simp] theorem bind_error {α β : Type} (x : Stop) (f : α → Except Stop β) : (Except.error x >>= f) = .error x := rfl

/-- A sequence that answers, answered in its first part. -/
theorem bind_inv {α β : Type} {r : Except Stop α} {f : α → Except Stop β} {b : β} (h : (r >>= f) = .ok b) :
    ∃ a, r = .ok a ∧ f a = .ok b := by
  cases r with
  | error x => cases h
  | ok a => exact ⟨a, rfl, h⟩

@[simp] theorem conclude_ok (s : State) : conclude (.ok s) = .next s := rfl

@[simp] theorem conclude_failed (s : State) : conclude (.error (.failed s)) = .next s := rfl

@[simp] theorem conclude_fault (f : Fault) : conclude (.error (.fault f)) = .fault f := rfl

/-! ### Bytes of the two spaces -/

theorem inByte_ok {a : Nat} {s : State} (h : a < s.compSize.toNat) : inByte a s = .ok (inValue s a) := by
  simp [inByte, h]

theorem outByteBack_ok {pos d : Nat} {s : State} (h : d ≤ pos) (hs : pos - d < s.decompSize.toNat) :
    outByteBack pos d s = .ok (outValue s (pos - d)) := by
  simp [outByteBack, hs, Nat.not_lt.mpr h]

theorem outWrite_ok {a : Nat} {b : Byte} {s : State} (h : a < s.decompSize.toNat) :
    outWrite a b s = .ok (setOut (memWrite s.outMem a b) s) := by
  simp [outWrite, h]

theorem outWrite_inv {a : Nat} {b : Byte} {s t : State} (h : outWrite a b s = .ok t) :
    a < s.decompSize.toNat ∧ t = setOut (memWrite s.outMem a b) s := by
  unfold outWrite at h
  split at h
  · exact ⟨‹_›, by cases h; rfl⟩
  · cases h

/-- The byte of OUT at the offset just written. -/
theorem outValue_write_same (s : State) (a : Nat) (b : Byte) :
    outValue (setOut (memWrite s.outMem a b) s) a = b := by
  simp [outValue]

/-- The byte of OUT at any other offset. -/
theorem outValue_write_other (s : State) (a a' : Nat) (b : Byte) (h : a' ≠ a) :
    outValue (setOut (memWrite s.outMem a b) s) a' = outValue s a' := by
  simp [outValue, outEpoch, memRead_memWrite_other _ _ _ _ h]

/-! ### The copy loops -/

/-- The copy from IN, run forward (R182): it answers, only OUT changes, the bytes are those of IN, no other offset changes. -/
theorem copyFromIn_ok (n : Nat) : ∀ (src dst : Nat) (s : State),
    src + n ≤ s.compSize.toNat → dst + n ≤ s.decompSize.toNat →
    ∃ m, copyFromIn n src dst s = .ok (setOut m s) ∧
      (∀ i, i < n → memRead m (dst + i) = some (inValue s (src + i))) ∧
      (∀ a, (a < dst ∨ dst + n ≤ a) → memRead m a = memRead s.outMem a) ∧
      (Memory.wf s.outMem → Memory.wf m) := by
  induction n with
  | zero => intro src dst s _ _; exact ⟨s.outMem, rfl, by simp, by simp, id⟩
  | succ n ih =>
    intro src dst s hs hd
    obtain ⟨m, hm, hin, hout, hwf⟩ := ih (src + 1) (dst + 1)
      (setOut (memWrite s.outMem dst (inValue s src)) s) (by simpa using (by omega)) (by simpa using (by omega))
    refine ⟨m, ?_, ?_, ?_, fun h => hwf (memWrite_wf h _ _)⟩
    · simp only [copyFromIn, inByte_ok (show src < s.compSize.toNat by omega), bind_ok,
        outWrite_ok (show dst < s.decompSize.toNat by omega)]
      exact hm
    · intro i hi
      cases i with
      | zero =>
        rw [hout _ (by omega)]
        simp
      | succ i =>
        have := hin i (by omega)
        rw [show dst + 1 + i = dst + (i + 1) by omega, show src + 1 + i = src + (i + 1) by omega] at this
        exact this
    · intro a ha
      rw [hout a (by omega)]
      exact memRead_memWrite_other _ _ _ _ (by omega)

/-- The copy inside OUT, run forward (R235): it answers, only OUT changes, each byte is the byte `d` before it after the copy, no
other offset changes. -/
theorem copyWithinOut_ok (n : Nat) : ∀ (dst d : Nat) (s : State),
    1 ≤ d → d ≤ dst → dst + n ≤ s.decompSize.toNat →
    ∃ m, copyWithinOut n dst d s = .ok (setOut m s) ∧
      (∀ i, i < n → memRead m (dst + i) = some (outValue (setOut m s) (dst + i - d))) ∧
      (∀ a, (a < dst ∨ dst + n ≤ a) → memRead m a = memRead s.outMem a) ∧
      (Memory.wf s.outMem → Memory.wf m) := by
  induction n with
  | zero => intro dst d s _ _ _; exact ⟨s.outMem, rfl, by simp, by simp, id⟩
  | succ n ih =>
    intro dst d s h1 hd hn
    obtain ⟨m, hm, hin, hout, hwf⟩ := ih (dst + 1) d
      (setOut (memWrite s.outMem dst (outValue s (dst - d))) s) h1 (by omega) (by simpa using (by omega))
    refine ⟨m, ?_, ?_, ?_, fun h => hwf (memWrite_wf h _ _)⟩
    · simp only [copyWithinOut, outByteBack_ok hd (show dst - d < s.decompSize.toNat by omega), bind_ok,
        outWrite_ok (show dst < s.decompSize.toNat by omega)]
      exact hm
    · intro i hi
      cases i with
      | zero =>
        rw [hout _ (by omega)]
        simp only [Nat.add_zero, setOut_outMem, setOut_outForgotten, memRead_memWrite_same, outValue, outEpoch]
        rw [hout (dst - d) (by omega), setOut_outMem, memRead_memWrite_other _ _ _ _ (by omega)]
      | succ i =>
        have := hin i (by omega)
        rw [show dst + 1 + i = dst + (i + 1) by omega] at this
        exact this
    · intro a ha
      rw [hout a (by omega)]
      exact memRead_memWrite_other _ _ _ _ (by omega)

/-- When the copy from IN answers, only OUT changed, below the end of the space. -/
theorem copyFromIn_inv (n : Nat) : ∀ {src dst : Nat} {s t : State}, copyFromIn n src dst s = .ok t →
    t = setOut t.outMem s ∧ (Memory.wf s.outMem → Memory.wf t.outMem) ∧
      ∀ a, s.decompSize.toNat ≤ a → memRead t.outMem a = memRead s.outMem a := by
  induction n with
  | zero => intro src dst s t h; cases h; exact ⟨rfl, id, fun _ _ => rfl⟩
  | succ n ih =>
    intro src dst s t h
    obtain ⟨b, _, h⟩ := bind_inv h
    obtain ⟨u, hu, h⟩ := bind_inv h
    obtain ⟨hlt, rfl⟩ := outWrite_inv hu
    obtain ⟨ht, hwf, hr⟩ := ih h
    refine ⟨ht, fun hw => hwf (memWrite_wf hw _ _), fun a ha => ?_⟩
    rw [hr a ha]
    exact memRead_memWrite_other _ _ _ _ (by omega)

/-- When the copy inside OUT answers, only OUT changed, below the end of the space. -/
theorem copyWithinOut_inv (n : Nat) : ∀ {dst d : Nat} {s t : State}, copyWithinOut n dst d s = .ok t →
    t = setOut t.outMem s ∧ (Memory.wf s.outMem → Memory.wf t.outMem) ∧
      ∀ a, s.decompSize.toNat ≤ a → memRead t.outMem a = memRead s.outMem a := by
  induction n with
  | zero => intro dst d s t h; cases h; exact ⟨rfl, id, fun _ _ => rfl⟩
  | succ n ih =>
    intro dst d s t h
    obtain ⟨b, _, h⟩ := bind_inv h
    obtain ⟨u, hu, h⟩ := bind_inv h
    obtain ⟨hlt, rfl⟩ := outWrite_inv hu
    obtain ⟨ht, hwf, hr⟩ := ih h
    refine ⟨ht, fun hw => hwf (memWrite_wf hw _ _), fun a ha => ?_⟩
    rw [hr a ha]
    exact memRead_memWrite_other _ _ _ _ (by omega)

/-! ### The input cursor -/

theorem peek16_short {s : State} (h : inputLeft s < 2) :
    peek16 P s = .error (.failed (raiseFailure (.inputTruncation s.srcCur) s)) := by
  simp [peek16, h]

theorem peek16_ok {s : State} (h : 2 ≤ inputLeft s) (he : s.srcEnd.toNat ≤ s.compSize.toNat) :
    peek16 P s = .ok (unitAt s s.srcCur.toNat P) := by
  have h' : ¬ inputLeft s < 2 := by omega
  simp only [inputLeft] at h
  simp only [peek16, h', if_false, inByte_ok (show s.srcCur.toNat < s.compSize.toNat by omega),
    inByte_ok (show s.srcCur.toNat + 1 < s.compSize.toNat by omega), bind_ok]
  rfl

theorem peek16_inv {s : State} {v : StreamUnit} (h : peek16 P s = .ok v) :
    2 ≤ inputLeft s ∧ v = unitAt s s.srcCur.toNat P := by
  unfold peek16 at h
  split at h
  · cases h
  · refine ⟨by omega, ?_⟩
    obtain ⟨b0, h0, h⟩ := bind_inv h
    obtain ⟨b1, h1, h⟩ := bind_inv h
    unfold inByte at h0 h1
    split at h0 <;> cases h0
    split at h1 <;> cases h1
    cases h
    rfl

theorem readUnit_short {s : State} (h : inputLeft s < 2) :
    readUnit P s = .error (.failed (raiseFailure (.inputTruncation s.srcCur) s)) := by
  simp [readUnit, peek16_short h]

theorem readUnit_ok {s : State} (h : 2 ≤ inputLeft s) (he : s.srcEnd.toNat ≤ s.compSize.toNat) :
    readUnit P s = .ok (unitAt s s.srcCur.toNat P, advanceSrc 2 s) := by
  simp [readUnit, peek16_ok h he]

/-- Everything `Read16` does when it answers (R161). -/
theorem readUnit_inv {s t : State} {v : StreamUnit} (h : readUnit P s = .ok (v, t)) :
    2 ≤ inputLeft s ∧ v = unitAt s s.srcCur.toNat P ∧ t = advanceSrc 2 s := by
  obtain ⟨w, hw, h⟩ := bind_inv h
  obtain ⟨hl, rfl⟩ := peek16_inv hw
  cases h
  exact ⟨hl, rfl, rfl⟩

/-- The cursor after a unit, while input is left (R28: it cannot wrap). -/
theorem srcCur_advanceSrc {s : State} {n : Nat} (h : n ≤ inputLeft s) :
    (advanceSrc n s).srcCur.toNat = s.srcCur.toNat + n := by
  simp only [inputLeft] at h
  have h1 := s.srcEnd.isLt
  have h2 := s.srcCur.isLt
  simp only [advanceSrc_srcCur, BitVec.toNat_add, BitVec.toNat_ofNat]
  omega

theorem inputLeft_advanceSrc {s : State} {n : Nat} (h : n ≤ inputLeft s) :
    inputLeft (advanceSrc n s) = inputLeft s - n := by
  have := srcCur_advanceSrc h
  simp only [inputLeft, advanceSrc_srcEnd] at *
  omega

/-! ### The renormalizer -/

theorem renormalize_swap {s : State} (h : 0x10000 ≤ s.state1.toNat) : renormalize P s = .ok (swapStates s) := by
  have : ¬ s.state1 < Params.stateLow := by
    simp only [BitVec.lt_def, Params.stateLow, BitVec.toNat_ofNat]
    omega
  simp [renormalize, this]

theorem renormalize_refill {s : State} (h : s.state1.toNat < 0x10000) (hl : 2 ≤ inputLeft s)
    (he : s.srcEnd.toNat ≤ s.compSize.toNat) :
    renormalize P s = .ok (swapStates
      (setState1 (foldUnit s.state1 (unitAt s s.srcCur.toNat P)) (advanceSrc 2 s))) := by
  have : s.state1 < Params.stateLow := by
    simp only [BitVec.lt_def, Params.stateLow, BitVec.toNat_ofNat]
    omega
  simp only [renormalize, this, if_true, readUnit_ok hl he, bind_ok]
  rfl

theorem renormalize_short {s : State} (h : s.state1.toNat < 0x10000) (hl : inputLeft s < 2) :
    renormalize P s = .error (.failed (raiseFailure (.inputTruncation s.srcCur) s)) := by
  have : s.state1 < Params.stateLow := by
    simp only [BitVec.lt_def, Params.stateLow, BitVec.toNat_ofNat]
    omega
  simp [renormalize, this, readUnit_short hl]

/-- Everything `Renorm` does when it answers (R163): a swap, after one refill when `state1` was low. -/
theorem renormalize_inv {s t : State} (h : renormalize P s = .ok t) :
    (0x10000 ≤ s.state1.toNat ∧ t = swapStates s) ∨
    (s.state1.toNat < 0x10000 ∧ 2 ≤ inputLeft s ∧
      t = swapStates (setState1 (foldUnit s.state1 (unitAt s s.srcCur.toNat P)) (advanceSrc 2 s))) := by
  unfold renormalize at h
  split at h
  · rename_i hlt
    simp only [BitVec.lt_def, Params.stateLow, BitVec.toNat_ofNat] at hlt
    obtain ⟨⟨w, u⟩, hw, h⟩ := bind_inv h
    obtain ⟨hl, rfl, rfl⟩ := readUnit_inv hw
    cases h
    exact .inr ⟨by omega, hl, rfl⟩
  · rename_i hge
    simp only [BitVec.lt_def, Params.stateLow, BitVec.toNat_ofNat] at hge
    cases h
    exact .inl ⟨by omega, rfl⟩

/-- A folded unit, as a number (R163): exact while the register is below 0x10000. -/
theorem toNat_foldUnit {x : Word} (w : StreamUnit) (h : x.toNat < 0x10000) :
    (foldUnit x w).toNat = x.toNat * 0x10000 + w.toNat := by
  have hw := w.isLt
  simp only [foldUnit, BitVec.toNat_or, BitVec.toNat_shiftLeft, BitVec.toNat_setWidth]
  rw [Nat.mod_eq_of_lt (show x.toNat <<< 16 < 2 ^ 32 by rw [Nat.shiftLeft_eq]; omega),
    Nat.mod_eq_of_lt (show w.toNat < 2 ^ 32 by omega), ← Nat.shiftLeft_add_eq_or_of_lt hw, Nat.shiftLeft_eq]

/-- Everything `RawBits` does when it answers (R166). -/
theorem rawBits_inv {k v : Nat} {s t : State} (h : rawBits P k s = .ok (v, t)) :
    v = s.state1.toNat % 2 ^ k ∧ renormalize P (setState1 (s.state1 >>> k) s) = .ok t := by
  obtain ⟨u, hu, h⟩ := bind_inv h
  cases h
  exact ⟨rfl, hu⟩

theorem rawBits_ok {k : Nat} {s t : State} (h : renormalize P (setState1 (s.state1 >>> k) s) = .ok t) :
    rawBits P k s = .ok (s.state1.toNat % 2 ^ k, t) := by
  simp [rawBits, h]

/-- A `Renorm` that has its input leaves the state `afterRenorm` names (R163). -/
theorem renormalize_ready {s : State} (he : s.srcEnd.toNat ≤ s.compSize.toNat) (h : renormReady s) :
    renormalize P s = .ok (afterRenorm s P) := by
  unfold afterRenorm
  split
  · rename_i hx
    have hl : 2 ≤ inputLeft s := by
      rcases h with h | h
      · omega
      · exact h
    rw [renormalize_refill hx hl he]
    have : foldUnit s.state1 (unitAt s s.srcCur.toNat P) =
        BitVec.ofNat 32 (s.state1.toNat * 0x10000 + (unitAt s s.srcCur.toNat P).toNat) := by
      rw [← toNat_foldUnit _ hx]
      simp
    rw [this]
    rfl
  · rw [renormalize_swap (by omega)]
    rfl

/-- A `Renorm` that has not its input fails at the cursor and changes nothing before (R163, R251). -/
theorem renormalize_notReady {s : State} (h : ¬ renormReady s) : renormalize P s = .error (.failed (truncated s)) := by
  simp only [renormReady, not_or, not_le] at h
  exact renormalize_short h.1 h.2

/-- The shift of `RawBits` in the terms of the claims (R166). -/
theorem setState1_shift (k : Nat) (s : State) : setState1 (s.state1 >>> k) s = withoutLowBits k s := by
  unfold withoutLowBits setState1
  congr 1
  apply BitVec.eq_of_toNat_eq
  simp only [BitVec.toNat_ushiftRight, Nat.shiftRight_eq_div_pow, BitVec.toNat_ofNat]
  exact (Nat.mod_eq_of_lt (lt_of_le_of_lt (Nat.div_le_self _ _) s.state1.isLt)).symm

/-! ### The header's chunks (R186) -/

theorem pullIfLow_low {x : Word} {s : State} (h : x.toNat < 65536) (hl : 2 ≤ inputLeft s)
    (he : s.srcEnd.toNat ≤ s.compSize.toNat) :
    pullIfLow P x s = .ok (foldUnit x (unitAt s s.srcCur.toNat P), advanceSrc 2 s) := by
  have : x < Params.stateLow := by
    simp only [BitVec.lt_def, Params.stateLow, BitVec.toNat_ofNat]
    omega
  simp only [pullIfLow, this, if_true, readUnit_ok hl he, bind_ok]

theorem pullIfLow_high {x : Word} {s : State} (h : 65536 ≤ x.toNat) : pullIfLow P x s = .ok (x, s) := by
  have : ¬ x < Params.stateLow := by
    simp only [BitVec.lt_def, Params.stateLow, BitVec.toNat_ofNat]
    omega
  simp only [pullIfLow, this, if_false]

/-! ### Symbols -/

/-- What `symFrom` finds is the first bound above the residue, from the start on. -/
theorem symFrom_some {cs : List Nat} : ∀ {r t k : Nat}, symFrom cs r t = some k →
    t ≤ k ∧ k - t < cs.length ∧ r < cs.getD (k - t) 0 ∧ ∀ j, j < k - t → cs.getD j 0 ≤ r := by
  induction cs with
  | nil => intro r t k h; cases h
  | cons c cs ih =>
    intro r t k h
    unfold symFrom at h
    split at h
    · cases h
      refine ⟨le_refl _, by simp, by simpa, by simp⟩
    · obtain ⟨h1, h2, h3, h4⟩ := ih h
      have hk : k - t = (k - (t + 1)) + 1 := by omega
      refine ⟨by omega, by rw [hk]; simpa using h2, by rw [hk]; simpa using h3, ?_⟩
      intro j hj
      cases j with
      | zero => simp only [List.getD_cons_zero]; omega
      | succ j => simpa using h4 j (by omega)

/-- The first bound above the residue is what `symFrom` finds. -/
theorem symFrom_eq {cs : List Nat} : ∀ {r t k : Nat}, k < cs.length → r < cs.getD k 0 → (∀ j, j < k → cs.getD j 0 ≤ r) →
    symFrom cs r t = some (t + k) := by
  induction cs with
  | nil => intro r t k h; simp at h
  | cons c cs ih =>
    intro r t k hk hr hj
    unfold symFrom
    cases k with
    | zero => simp only [List.getD_cons_zero] at hr; simp [hr]
    | succ k =>
      have h0 : ¬ r < c := by simpa using hj 0 (by omega)
      simp only [h0, if_false]
      rw [ih (by simpa using hk) (by simpa using hr) (fun j h => by simpa using hj (j + 1) (by omega))]
      congr 1
      omega

/-- `Sym` names the symbol whose interval holds the residue (R148), when the table starts at 0. -/
theorem symOf_some {cdf : List Nat} {r k : Nat} (h : symOf cdf r = some k) :
    k + 1 < cdf.length ∧ r < cdf.getD (k + 1) 0 ∧ ∀ j, 1 ≤ j → j ≤ k → cdf.getD j 0 ≤ r := by
  obtain ⟨_, h2, h3, h4⟩ := symFrom_some h
  simp only [Nat.sub_zero, List.length_drop] at h2 h3 h4
  refine ⟨by omega, by simpa [List.getD_eq_getElem?_getD, Nat.add_comm] using h3, ?_⟩
  intro j hj hk
  have := h4 (j - 1) (by omega)
  simp only [List.getD_eq_getElem?_getD, List.getElem?_drop] at this ⊢
  rwa [show 1 + (j - 1) = j by omega] at this

theorem symOf_eq {cdf : List Nat} {r k : Nat} (h1 : k + 1 < cdf.length) (h2 : r < cdf.getD (k + 1) 0)
    (h3 : ∀ j, 1 ≤ j → j ≤ k → cdf.getD j 0 ≤ r) : symOf cdf r = some k := by
  have := symFrom_eq (cs := cdf.drop 1) (r := r) (t := 0) (k := k) (by simp; omega)
    (by simpa [List.getD_eq_getElem?_getD, Nat.add_comm] using h2)
    (fun j hj => by
      have := h3 (j + 1) (by omega) (by omega)
      simpa [List.getD_eq_getElem?_getD, Nat.add_comm] using this)
  simpa [symOf] using this

/-- Everything `DecodeSym` does when it answers (R140): a symbol found by the search, the new coder state, its own model. -/
theorem decodeSymbol_inv {m : ModelId} {s t : State} {sym : Nat} (h : decodeSymbol P m s = .ok (sym, t)) :
    searchSymbol m.cls (s.model m) (s.state1.toNat % 32768) = some sym ∧
      t = State.setModel (setState1 (BitVec.ofNat 32 (nextCoderState s.state1.toNat (s.model m).cdf sym)) s) m
        (updateModel P m.cls (s.model m) sym) := by
  unfold decodeSymbol at h
  split at h
  · cases h
  · rename_i hs
    cases h
    exact ⟨hs, rfl⟩

theorem decodeSymbol_ok {m : ModelId} {s : State} {sym : Nat}
    (h : searchSymbol m.cls (s.model m) (s.state1.toNat % 32768) = some sym) :
    decodeSymbol P m s = .ok (sym,
      State.setModel (setState1 (BitVec.ofNat 32 (nextCoderState s.state1.toNat (s.model m).cdf sym)) s) m
        (updateModel P m.cls (s.model m) sym)) := by
  have h' : searchSymbol m.cls (s.model m) (s.state1.toNat % Params.probTotal) = some sym := h
  simp only [decodeSymbol, h']

/-- A decode of a symbol does not fail (R140: no failures); it can only fault on a broken table. -/
theorem decodeSymbol_error {m : ModelId} {s : State} {x : Stop} (h : decodeSymbol P m s = .error x) :
    x = .fault (.searchPastTable (s.state1.toNat % 32768)) ∧
      searchSymbol m.cls (s.model m) (s.state1.toNat % 32768) = none := by
  unfold decodeSymbol at h
  split at h
  · rename_i hs
    cases h
    exact ⟨rfl, hs⟩
  · cases h

theorem decodeAndRenorm_inv {m : ModelId} {s t : State} {sym : Nat} (h : decodeAndRenorm P m s = .ok (sym, t)) :
    ∃ u, decodeSymbol P m s = .ok (sym, u) ∧ renormalize P u = .ok t := by
  obtain ⟨⟨k, u⟩, hu, h⟩ := bind_inv h
  obtain ⟨v, hv, h⟩ := bind_inv h
  cases h
  exact ⟨u, hu, hv⟩

/-! ### Control -/

/-- Everything `AfterQuantum` does (R115): the next quantum, the end, or the failure that `TRAILING_INPUT = fail` asks for. -/
theorem afterQuantum_cases (s : State) :
    (s.dstCur < s.dstEnd ∧ afterQuantum P s = .ok (gotoPhase .qstart s)) ∨
    (¬ s.dstCur < s.dstEnd ∧ endAccepted P s = true ∧ afterQuantum P s = .ok (gotoPhase .doneOk s)) ∨
    (¬ s.dstCur < s.dstEnd ∧ endAccepted P s = false ∧
      afterQuantum P s = .error (.failed (raiseFailure (.trailingInput s.srcCur) s))) := by
  unfold afterQuantum
  split
  · exact .inl ⟨‹_›, rfl⟩
  · cases h : endAccepted P s
    · exact .inr (.inr ⟨‹_›, rfl, rfl⟩)
    · exact .inr (.inl ⟨‹_›, rfl, rfl⟩)

/-- With `TRAILING_INPUT = ignore` the end of the output is always accepted (R117). -/
theorem endAccepted_ignore (s : State) (h : P.trailingInput = .ignore) : endAccepted P s = true := by
  simp [endAccepted, h]

/-- With `TRAILING_INPUT = fail` it is accepted exactly when the input is used up (D14). -/
theorem endAccepted_fail (s : State) (h : P.trailingInput = .fail) : endAccepted P s = decide (s.srcCur = s.srcEnd) := by
  simp [endAccepted, h]

/-- `AfterQuantum` at the spec's defaults (R115, R117; log 23). -/
theorem afterQuantum_default (s : State) :
    afterQuantum Params.default s = .ok (gotoPhase (if s.dstCur < s.dstEnd then .qstart else .doneOk) s) := by
  unfold afterQuantum
  split <;> simp_all [endAccepted_ignore (P := Params.default) s rfl]

/-! ### OUT becoming unspecified (R72) -/

/-- Below the size OUT has, the byte becomes a new free value; at or above it, nothing changes (R69, R72). -/
theorem outValue_forgetOut (s : State) (a : Nat) :
    outValue (forgetOut s) a =
      if a < s.decompSize.toNat then Config.freeOutByte (outEpoch s a + 1) a else outValue s a := by
  split
  · rename_i h
    simp [outValue, outEpoch, memRead_memForget_low _ _ _ h, h]
  · rename_i h
    simp [outValue, outEpoch, memRead_memForget_high _ _ _ (Nat.le_of_not_lt h), h]

/-- A failure does to OUT what `forgetOut` does (R256, R72). -/
theorem outValue_raiseFailure (c : FailCause) (s : State) (a : Nat) :
    outValue (raiseFailure c s) a = outValue (forgetOut s) a := rfl

/-! ### The lookup table (R147) and the initial models (R130) -/

/-- In a table that starts at 0 and ends at 32768, every residue has its symbol. -/
theorem symOf_exists {cdf : List Nat} {n r : Nat} (hl : cdf.length = n + 1) (hlast : cdf.getD n 0 = 32768) (h0 : cdf.getD 0 0 = 0)
    (hr : r < 32768) : ∃ k, symOf cdf r = some k ∧ k < n ∧ cdf.getD k 0 ≤ r ∧ r < cdf.getD (k + 1) 0 := by
  have hn : n ≠ 0 := by
    rintro rfl
    omega
  have hex : ∃ k, r < cdf.getD (k + 1) 0 := ⟨n - 1, by rw [show n - 1 + 1 = n by omega]; omega⟩
  classical
  have hk := Nat.find_spec hex
  have hmin : ∀ j, j < Nat.find hex → cdf.getD (j + 1) 0 ≤ r := fun j hj => Nat.le_of_not_lt (Nat.find_min hex hj)
  have hlt : Nat.find hex < n := by
    have : Nat.find hex ≤ n - 1 := Nat.find_min' hex (by rw [show n - 1 + 1 = n by omega]; omega)
    omega
  have hall : ∀ j, 1 ≤ j → j ≤ Nat.find hex → cdf.getD j 0 ≤ r := by
    intro j h1 h2
    have := hmin (j - 1) (by omega)
    rwa [show j - 1 + 1 = j by omega] at this
  refine ⟨Nat.find hex, symOf_eq (by omega) hk hall, hlt, ?_, hk⟩
  rcases Nat.eq_zero_or_pos (Nat.find hex) with hz | hz
  · rw [hz, h0]; omega
  · exact hall _ hz le_rfl

/-- After `FillLookup` every block holds the symbol of its first residue (R147). -/
theorem fillLookup_owns {c : ModelClass} {cdf : List Nat} {n : Nat} (hl : cdf.length = n + 1) (hlast : cdf.getD n 0 = 32768)
    (h0 : cdf.getD 0 0 = 0) (b : Nat) (hb : b < Params.lookupSize c) :
    symOf cdf (b <<< Params.lookupShift c) = some ((fillLookup P c cdf).getD b 0) ∧
      cdf.getD ((fillLookup P c cdf).getD b 0) 0 ≤ b <<< Params.lookupShift c ∧
      b <<< Params.lookupShift c < cdf.getD ((fillLookup P c cdf).getD b 0 + 1) 0 := by
  have hr : b <<< Params.lookupShift c < 32768 := by
    cases c <;> simp only [Params.lookupSize, Params.lookupShift, Params.probTotal, Nat.shiftLeft_eq, Nat.shiftRight_eq_div_pow] at * <;>
      omega
  obtain ⟨k, hk, _, h1, h2⟩ := symOf_exists hl hlast h0 hr
  have hg : (fillLookup P c cdf).getD b 0 = k := by
    simp [fillLookup, List.getD_eq_getElem?_getD, List.getElem?_append_left, hb, hk]
  rw [hg]
  exact ⟨hk, h1, h2⟩

/-- A fresh model at the spec's defaults meets the invariants of R37. -/
theorem initModel_inv (c : ModelClass) : ModelInv c (initModel Params.default c) := by
  have hl : (Params.initCdf c).length = c.alphabet + 1 := by cases c <;> simp [Params.initCdf, ModelClass.alphabet]
  have h0 : (Params.initCdf c).getD 0 0 = 0 := by cases c <;> decide +kernel
  have hlast : (Params.initCdf c).getD c.alphabet 0 = 32768 := by cases c <;> decide +kernel
  exact
    { frequencyLength := by simp [initModel]
      cdfLength := hl
      lookupLength := by simp [initModel, fillLookup, Params.default, Params.lookupMargin]
      cdfFirst := h0
      cdfLast := hlast
      cdfRising := by cases c <;> decide +kernel
      lookupOwns := fun b hb => (fillLookup_owns hl hlast h0 b hb).2
      frequencyPositive := by
        intro f hf
        simp only [initModel, List.mem_replicate] at hf
        omega
      counterLow := by simp [initModel, Params.adaptInterval]
      counterHigh := by simp [initModel, Params.adaptInterval]
      frequencyTotal := by simp [initModel, Params.adaptInterval] }

end Sys2Proof.Machine
end

