-- ==== Sys2Proof/Laws/Models.lean ====
section
/-! SUPPORT. What the operations on the adaptive models do, entry by entry, and that each instance has storage of its own. -/

namespace Sys2Proof.Machine

/-- Reading one instance after replacing one (R34). -/
theorem setModel_model (s : State) (m k : ModelId) (M : AdaptiveModel) :
    (s.setModel m M).model k = if k = m then M else s.model k := by
  split
  · subst k
    cases m <;> simp [State.setModel, State.model]
  · rename_i hk
    cases m <;> cases k <;> first
      | exact absurd rfl hk
      | rfl
      | (simp only [State.setModel, State.model]
         rw [Vector.getElem_set_ne]
         intro e
         exact hk (by congr 1; exact Fin.ext e.symm))

/-! ### The smoothing pass (R144) -/

theorem smoothCdf_length (h : Int → Int) : ∀ (fs cs : List Nat) (sum : Nat), fs.length = cs.length →
    (smoothCdf h sum fs cs).length = cs.length := by
  intro fs
  induction fs with
  | nil => intro cs sum _; simp [smoothCdf]
  | cons f fs ih =>
    intro cs sum hl
    cases cs with
    | nil => simp at hl
    | cons c cs =>
      simp only [smoothCdf, List.length_cons]
      rw [ih cs (sum + f) (by simpa using hl)]

/-- Each entry becomes the floor of the mean of the running sum and the old entry (R145, log 16). -/
theorem smoothCdf_getD : ∀ (fs cs : List Nat) (sum k : Nat), fs.length = cs.length → k < cs.length →
    (smoothCdf Params.half sum fs cs).getD k 0 = (sum + (fs.take (k + 1)).sum + cs.getD k 0) / 2 := by
  intro fs
  induction fs with
  | nil => intro cs sum k hl hk; simp at hl; omega
  | cons f fs ih =>
    intro cs sum k hl hk
    cases cs with
    | nil => simp at hk
    | cons c cs =>
      cases k with
      | zero =>
        simp only [smoothCdf, List.getD_cons_zero, Params.half, List.take_succ_cons, List.take_zero, List.sum_cons,
          List.sum_nil]
        omega
      | succ k =>
        simp only [smoothCdf, List.getD_cons_succ, List.take_succ_cons, List.sum_cons]
        rw [ih cs (sum + f) k (by simpa using hl) (by simpa using hk)]
        congr 1
        omega

/-! ### Frequency sums -/

theorem sum_modify : ∀ (l : List Nat) (i d : Nat), i < l.length → (l.modify i (· + d)).sum = l.sum + d := by
  intro l
  induction l with
  | nil => intro i d h; simp at h
  | cons a l ih =>
    intro i d h
    cases i with
    | zero => simp; omega
    | succ i =>
      simp only [List.modify_succ_cons, List.sum_cons]
      rw [ih i d (by simpa using h)]
      omega

theorem sum_take_modify (l : List Nat) (i d k : Nat) (h : k ≤ l.length) :
    ((l.modify i (· + d)).take k).sum = (l.take k).sum + if i < k then d else 0 := by
  rw [List.take_modify]
  split
  · exact sum_modify _ _ _ (by simp; omega)
  · rw [List.modify_eq_self (by simp; omega)]
    simp

theorem sum_take_succ (l : List Nat) (k : Nat) (h : k < l.length) : (l.take (k + 1)).sum = (l.take k).sum + l[k] := by
  rw [List.take_succ_eq_append_getElem h, List.sum_append]
  simp

/-- A decode adds 31 to the total (R142). -/
theorem countSymbol_sum (M : AdaptiveModel) (sym : Nat) (h : sym < M.frequency.length) :
    (countSymbol M sym).frequency.sum = M.frequency.sum + 31 := sum_modify _ _ _ h

/-! ### The rebuilt table (R144) -/

variable {P : Parameters}

/-- With the floor as HALF (log 16), entry by entry. -/
theorem rebuiltCdf_getD (hP : P.half = Params.half) (c : ModelClass) (M : AdaptiveModel) (sym k : Nat) (hf : M.frequency.length = c.alphabet)
    (hc : M.cdf.length = c.alphabet + 1) (hk : k < c.alphabet) :
    (rebuiltCdf P c M sym).getD (k + 1) 0 =
      ((M.frequency.take (k + 1)).sum + (if sym ≤ k then Params.bias c else 0) + M.cdf.getD (k + 1) 0) / 2 := by
  have h1 : (M.cdf.take 1).length = 1 := by simp; omega
  rw [List.getD_eq_getElem?_getD, rebuiltCdf, hP, List.getElem?_append_right (by omega), h1, ← List.getD_eq_getElem?_getD,
    Nat.add_sub_cancel, smoothCdf_getD _ _ _ _ (by simp [biasedFrequency]; omega) (by simp; omega)]
  rw [biasedFrequency, sum_take_modify _ _ _ _ (by omega)]
  have : (M.cdf.drop 1).getD k 0 = M.cdf.getD (k + 1) 0 := by simp [List.getD_eq_getElem?_getD]
  rw [this, Nat.zero_add]
  have : (sym < k + 1) = (sym ≤ k) := by simp
  simp only [this]

theorem rebuiltCdf_length (c : ModelClass) (M : AdaptiveModel) (sym : Nat) (hf : M.frequency.length = c.alphabet)
    (hc : M.cdf.length = c.alphabet + 1) : (rebuiltCdf P c M sym).length = c.alphabet + 1 := by
  rw [rebuiltCdf, List.length_append, smoothCdf_length _ _ _ _ (by simp [biasedFrequency]; omega)]
  simp
  omega

theorem rebuiltCdf_zero (c : ModelClass) (M : AdaptiveModel) (sym : Nat) (hc : M.cdf.length = c.alphabet + 1) :
    (rebuiltCdf P c M sym).getD 0 0 = M.cdf.getD 0 0 := by
  cases h : M.cdf with
  | nil => simp [h] at hc
  | cons a l => simp [rebuiltCdf, h]

/-- The bounds of a table that meets the invariant rise strictly (R37). -/
theorem bound_lt {c : ModelClass} {M : AdaptiveModel} (h : ModelInv c M) {i j : Nat} (hij : i < j) (hj : j ≤ c.alphabet) :
    M.bound i < M.bound j := by
  have hl := h.cdfLength
  have := List.pairwise_iff_getElem.mp h.cdfRising i j (by omega) (by omega) hij
  simp only [AdaptiveModel.bound, List.getD_eq_getElem?_getD, List.getElem?_eq_getElem (show i < M.cdf.length by omega),
    List.getElem?_eq_getElem (show j < M.cdf.length by omega), Option.getD_some]
  exact this

end Sys2Proof.Machine
end

