-- ==== Sys2Proof/Laws/PerInstr.lean ====
section
/-! SUPPORT. Statements made per operation, one lemma per constructor of `Instr`. -/

namespace Sys2Proof.Laws

/-- The bits of a word of a format (R23, R82, R83, R87 to R89). -/
def formatWidth : Format → Nat
  | .hostCmd => 32
  | .magic16 => 16
  | .marker => 16
  | .litSym => 9
  | .offSym => 6
  | .oblSym => 5

/-- The word of a well-formed operation fits in its format, and the decoder refuses no such word. -/
def EncodeFits.Statement (i : Instr) : Prop :=
  ∀ (f : Format) (w : Nat), i.wf = true → encode i = some (f, w) →
    w < 2 ^ formatWidth f ∧ ∃ j, decode f w = .ok j

theorem EncodeFits.start : EncodeFits.Statement .start := by
  intro f w hw h
  cases h
  exact ⟨by decide, _, rfl⟩

theorem EncodeFits.magic : EncodeFits.Statement .magic := by
  intro f w hw h
  cases h
  exact ⟨by decide, _, rfl⟩

theorem EncodeFits.qstart : EncodeFits.Statement .qstart := by
  intro f w hw h
  cases h

theorem EncodeFits.qraw : EncodeFits.Statement .qraw := by
  intro f w hw h
  cases h
  exact ⟨by decide, _, rfl⟩

theorem EncodeFits.qhdr : EncodeFits.Statement .qhdr := by
  intro f w hw h
  cases h
  exact ⟨by decide, _, rfl⟩

theorem EncodeFits.firstlit : EncodeFits.Statement .firstlit := by
  intro f w hw h
  cases h

theorem EncodeFits.qend : EncodeFits.Statement .qend := by
  intro f w hw h
  cases h

theorem EncodeFits.lit (delta : BitVec 8) : EncodeFits.Statement (.lit delta) := by
  intro f w hw h
  cases h
  have hb := delta.isLt
  refine ⟨by simp only [formatWidth]; omega, ?_⟩
  simp only [decode]
  split_ifs <;> exact ⟨_, rfl⟩

theorem EncodeFits.matchs (code : BitVec 5) : EncodeFits.Statement (.matchs code) := by
  intro f w hw h
  cases h
  have hb := code.isLt
  refine ⟨by simp only [formatWidth]; omega, ?_⟩
  simp only [decode]
  split_ifs <;> first | exact ⟨_, rfl⟩ | omega

theorem EncodeFits.matchx (code : BitVec 4) : EncodeFits.Statement (.matchx code) := by
  intro f w hw h
  cases h
  have hb := code.isLt
  have hc : code.toNat ≤ 11 := by simpa [Instr.wf] using hw
  refine ⟨by simp only [formatWidth]; omega, ?_⟩
  simp only [decode]
  split_ifs <;> first | exact ⟨_, rfl⟩ | omega

theorem EncodeFits.dcache (rank : BitVec 3) : EncodeFits.Statement (.dcache rank) := by
  intro f w hw h
  cases h
  have hb := rank.isLt
  refine ⟨by simp only [formatWidth]; omega, ?_⟩
  simp only [decode]
  split_ifs <;> exact ⟨_, rfl⟩

theorem EncodeFits.dnewLow (code : BitVec 3) : EncodeFits.Statement (.dnewLow code) := by
  intro f w hw h
  cases h
  have hb := code.isLt
  refine ⟨by simp only [formatWidth]; omega, ?_⟩
  simp only [decode]
  split_ifs <;> first | exact ⟨_, rfl⟩ | omega

theorem EncodeFits.dnewMid (code : BitVec 4) : EncodeFits.Statement (.dnewMid code) := by
  intro f w hw h
  cases h
  have hb := code.isLt
  refine ⟨by simp only [formatWidth]; omega, ?_⟩
  simp only [decode]
  split_ifs <;> first | exact ⟨_, rfl⟩ | omega

theorem EncodeFits.dnewHigh (code : BitVec 3) : EncodeFits.Statement (.dnewHigh code) := by
  intro f w hw h
  cases h
  have hb := code.isLt
  refine ⟨by simp only [formatWidth]; omega, ?_⟩
  simp only [decode]
  split_ifs <;> first | exact ⟨_, rfl⟩ | omega

theorem EncodeFits.nbits : EncodeFits.Statement .nbits := by
  intro f w hw h
  cases h
  exact ⟨by decide, _, rfl⟩

theorem EncodeFits.copy (len dist : Word) : EncodeFits.Statement (.copy len dist) := by
  intro f w hw h
  cases h

theorem EncodeFits.decodesym (m : ModelId) : EncodeFits.Statement (.decodesym m) := by
  intro f w hw h
  cases h

theorem EncodeFits.rebuild (m : ModelId) (sym : BitVec 9) : EncodeFits.Statement (.rebuild m sym) := by
  intro f w hw h
  cases h

theorem EncodeFits.renorm : EncodeFits.Statement .renorm := by
  intro f w hw h
  cases h

theorem EncodeFits.rawbits (k : BitVec 4) : EncodeFits.Statement (.rawbits k) := by
  intro f w hw h
  cases h

theorem EncodeFits.read16 : EncodeFits.Statement .read16 := by
  intro f w hw h
  cases h

end Sys2Proof.Laws
end

