-- ==== Sys2Proof/Tests/Slice0.lean ====
section
/-! SUPPORT. The model's own tests. Expected values come from spec/ (95_test_vectors.md V1 to V45, P1, P2; the patterns of
30_encoding.md R101), each test naming its source; then, for every statement with hypotheses, a state and operands that meet them. -/

open Sys2Proof Sys2Proof.Machine

namespace Sys2Proof.Tests

/- One declaration at a time: tests that wait for each other's kernel checks otherwise hold a thread each. -/
set_option Elab.async false

/-! ### Helpers -/

/-- A space that holds the given bytes from offset 0 on. -/
def bytes (l : List Nat) : Memory := l.zipIdx.map fun c => (c.2, BitVec.ofNat 8 c.1)

/-- A field of the next state, where there is one. -/
def got {α : Type} (f : State → α) (o : Host.Outcome State Fault Refusal) : Option α :=
  match o with
  | .next s => some (f s)
  | .fault _ => none
  | .refused _ => none

/-- Why a step was refused. -/
def refusal (o : Host.Outcome State Fault Refusal) : Option Refusal :=
  match o with
  | .next _ => none
  | .fault _ => none
  | .refused r => some r

/-- Two coder states and the input bytes from the cursor on (V17 to V32). -/
def coder (x1 x2 : Word) (input : List Nat) : State :=
  { State.reset with
    compSize := BitVec.ofNat 32 input.length, srcEnd := BitVec.ofNat 32 input.length, inMem := bytes input
    state1 := x1, state2 := x2 }

/-- Output bytes already written, the cursor after them, and the sizes of the output and of the quantum. -/
def writing (out : List Nat) (size quantum : Nat) (s : State) : State :=
  { s with
    outMem := bytes out, dstCur := BitVec.ofNat 32 out.length, decompSize := BitVec.ofNat 32 size
    dstEnd := BitVec.ofNat 32 size, dstQuantumEnd := BitVec.ofNat 32 quantum }

/-- The block with its two sizes and its input, as the host leaves it before START. -/
def loaded (input : List Nat) (comp decomp : Nat) : State :=
  { State.reset with compSize := BitVec.ofNat 32 comp, decompSize := BitVec.ofNat 32 decomp, inMem := bytes input }

/-- What the host does next. -/
def scripted (es : List HostEvent) (s : State) : State := { s with hostScript := es }

/-- A running decode at the head of the body, about to fetch the literal symbol 0x41. -/
def running : State := State.reset.withFetchWord 16 0x41

/-- A running decode in which the distance symbol 8 of DNEW comes next. -/
def seeking : State := State.reset.withFetchWord 32 0x08

/-- The coder and the OBL model of V32a's state inside DNEW of P2: `state1 = 0x000304CE` decodes the OBL symbol 0. -/
def inDnew : State :=
  { coder 0x000304CE#32 0x01087C3C#32 [0xAE, 0x00] with
    obl := initModel Params.default .offsetBitLength, recent := Vector.replicate 8 1#32, distMask := 0xFAC688#24 }

/-- The coder inside the first DNEW of P5, with the OBL symbol 16 and the direct unit 0. -/
def inLongDnew : State :=
  { inDnew with state1 := 0x49B8E5CD#32, state2 := 0x2955ECC4#32, inMem := bytes [0, 0] }

/-- The coder inside a DNEW of 15 raw bits with no input left: `state1` holds the lower bound 23405 of the OBL symbol 15. -/
def inRawBits : State :=
  { coder 0x00205B6D#32 0x00010000#32 [] with obl := initModel Params.default .offsetBitLength }

/-- A fresh OBL model whose symbol 20 has been decoded 1023 times (V13): the next decode rebuilds. -/
def nearRebuild : AdaptiveModel :=
  { initModel Params.default .offsetBitLength with frequency := List.replicate 20 1 ++ [1 + 31 * 1023], adaptCounter := 1 }

/-! ### Well-formedness refuses each ill-formed term -/

theorem test_wf_matchx_low : (Instr.matchx 0#4).wf = true := by decide
theorem test_wf_matchx_high : (Instr.matchx 11#4).wf = true := by decide
theorem test_wf_matchx_twelve_refused : (Instr.matchx 12#4).wf = false := by decide
theorem test_wf_copy_low : (Instr.copy 2#32 1#32).wf = true := by decide
theorem test_wf_copy_high : (Instr.copy 8223#32 1#32).wf = true := by decide
theorem test_wf_copy_one_refused : (Instr.copy 1#32 1#32).wf = false := by decide
theorem test_wf_copy_8224_refused : (Instr.copy 8224#32 1#32).wf = false := by decide
theorem test_wf_rebuild_last : (Instr.rebuild (.lit 3) 299#9).wf = true := by decide
theorem test_wf_rebuild_lit_300_refused : (Instr.rebuild (.lit 0) 300#9).wf = false := by decide
theorem test_wf_rebuild_offlow_40_refused : (Instr.rebuild (.offLow 0) 40#9).wf = false := by decide
theorem test_wf_rebuild_obl_21_refused : (Instr.rebuild .obl 21#9).wf = false := by decide

/-! ### Words written out from the patterns of R101 -/

theorem test_decode_start : decode .hostCmd 0b1 = .ok .start := by decide
theorem test_decode_no_command : decode .hostCmd 0b0 = .error .noCommand := by decide
theorem test_decode_reserved_ctrl : decode .hostCmd 0b11 = .error .reservedCtrlBit := by decide
theorem test_decode_magic : decode .magic16 0b0111010110110001 = .ok .magic := by decide
theorem test_decode_not_magic : decode .magic16 0b1011000101110101 = .error .notMagic := by decide
theorem test_decode_qraw : decode .marker 0b0000000000000000 = .ok .qraw := by decide
theorem test_decode_qhdr : decode .marker 0b0000000000000101 = .ok .qhdr := by decide
theorem test_decode_lit : decode .litSym 0b001000001 = .ok (.lit 0x41#8) := by decide
theorem test_decode_lit_last : decode .litSym 0b011111111 = .ok (.lit 0xFF#8) := by decide
theorem test_decode_matchs : decode .litSym 0b100000011 = .ok (.matchs 3#5) := by decide
theorem test_decode_matchs_last : decode .litSym 0b100011111 = .ok (.matchs 31#5) := by decide
theorem test_decode_matchx : decode .litSym 0b100100010 = .ok (.matchx 2#4) := by decide
theorem test_decode_matchx_last : decode .litSym 0b100101011 = .ok (.matchx 11#4) := by decide
theorem test_decode_lit_300_refused : decode .litSym 0b100101100 = .error .outsideLiteralAlphabet := by decide
theorem test_decode_dcache : decode .offSym 0b000110 = .ok (.dcache 6#3) := by decide
theorem test_decode_dnewLow : decode .offSym 0b001010 = .ok (.dnewLow 2#3) := by decide
theorem test_decode_dnewMid : decode .offSym 0b011001 = .ok (.dnewMid 9#4) := by decide
theorem test_decode_dnewHigh : decode .offSym 0b100111 = .ok (.dnewHigh 7#3) := by decide
theorem test_decode_off_40_refused : decode .offSym 0b101000 = .error .outsideOffsetLowAlphabet := by decide
theorem test_decode_nbits : decode .oblSym 0b10100 = .ok .nbits := by decide
theorem test_decode_obl_21_refused : decode .oblSym 0b10101 = .error .outsideBitLengthAlphabet := by decide

/-! ### Operations on the spec's vectors -/

/-- P1's sizes: START enters MAGIC with the cursors at 0 and the ends at the sizes (R112). -/
theorem test_start :
    got (fun s => (s.phase, s.srcEnd, s.dstEnd, s.distMask, s.obl.adaptCounter)) (exec .start (loaded [] 7 3)) =
      some (.magic, 7#32, 3#32, 0xFAC688#24, 1024) := by decide +kernel

/-- F6b: DECOMP_SIZE 0. -/
theorem test_start_precondition :
    got (fun s => (s.phase, s.failCause)) (exec .start (loaded [] 7 0)) = some (.doneFail, .precondition) := by decide +kernel

/-- P1. -/
theorem test_magic :
    got (fun s => (s.phase, s.srcCur)) (exec .magic (coder 0#32 0#32 [0xB1, 0x75])) = some (.qstart, 2#32) := by decide +kernel

/-- F3: the two bytes swapped. -/
theorem test_magic_swapped :
    got (fun s => (s.failCause, s.srcCur)) (exec .magic (coder 0#32 0#32 [0x75, 0xB1])) =
      some (.formatMagic 0xB175#16, 2#32) := by decide +kernel

/-- V33 (65785, 131324), relative: 65536. -/
theorem test_qstart_coded :
    got (fun s => (s.stage, s.dstQuantumEnd, s.srcCur))
      (exec .qstart { coder 0#32 0#32 [5, 0] with dstCur := 65785#32, dstEnd := 131324#32 }) =
      some (.coded, 131321#32, 0#32) := by decide +kernel

/-- P1's QSTART: three bytes, marker 0. -/
theorem test_qstart_raw :
    got (fun s => (s.stage, s.dstQuantumEnd)) (exec .qstart (writing [] 3 0 (coder 0#32 0#32 [0, 0]))) =
      some (.raw, 3#32) := by decide +kernel

/-- P1's QRAW. -/
theorem test_qraw :
    got (fun s => (s.phase, s.outMem, s.srcCur, s.dstCur))
      (exec .qraw (writing [] 3 3 (coder 0#32 0#32 [0, 0, 0x48, 0x69, 0x21]))) =
      some (.doneOk, bytes [0x48, 0x69, 0x21], 5#32, 3#32) := by decide +kernel

/-- F7a: two of three bytes. -/
theorem test_qraw_short :
    got (fun s => (s.failCause, s.outMem)) (exec .qraw (writing [] 3 3 (coder 0#32 0#32 [0, 0, 0x48, 0x69]))) =
      some (.inputTruncation 2#32, []) := by decide +kernel

/-- V23: both chunks are pulled. -/
theorem test_qhdr_two_chunks :
    got (fun s => (s.state1, s.state2, s.srcCur, s.firstLiteralPending))
      (exec .qhdr (coder 0#32 0#32 [0x07, 0, 0xFF, 0xFF, 0, 0xC0, 1, 0, 0x34, 0x12])) =
      some (0xFFFF0001#32, 0xC0001234#32, 10#32, true) := by decide +kernel

/-- V22: chunk x2 only. -/
theorem test_qhdr_second_chunk :
    got (fun s => (s.state1, s.state2, s.srcCur))
      (exec .qhdr (coder 0#32 0#32 [0xF2, 0, 0xA4, 0x34, 0x78, 0x56, 0xDE, 0xBC])) =
      some (0xF2345678#32, 0x001ABCDE#32, 8#32) := by decide +kernel

/-- V34, after V20, with the unit 0x1234 next. -/
theorem test_firstlit_refill :
    got (fun s => (s.outMem, s.state1, s.state2, s.phase))
      (exec .firstlit { writing [] 4 4 (coder 0x00012345#32 0x0001ABCD#32 [0x34, 0x12]) with firstLiteralPending := true }) =
      some (bytes [0x45], 0x0001ABCD#32, 0x01231234#32, .qbody) := by decide +kernel

/-- R190 step 1: the flag is clear. -/
theorem test_firstlit_clear :
    got (fun s => (s.outMem, s.state1, s.phase)) (exec .firstlit (writing [] 4 4 (coder 0x00012345#32 0#32 []))) =
      some ([], 0x00012345#32, .qbody) := by decide +kernel

/-- V35. -/
theorem test_qend_passes :
    got (·.phase) (exec .qend (coder 0x10000#32 0x10000#32 [])) = some .doneOk := by decide +kernel

/-- V35. -/
theorem test_qend_second_state :
    got (·.failCause) (exec .qend (coder 0x10000#32 0x10001#32 [])) =
      some (.formatEndstate 0x10000#32 0x10001#32) := by decide +kernel

/-- V40: delta 0xFF on the base byte 0x02, one back. -/
theorem test_lit_wraps :
    got (fun s => (s.outMem, s.dstCur))
      (exec (.lit 0xFF#8) { writing [0x07, 0x02] 4 4 State.reset with lastCopyOffset := 1#32 }) =
      some (bytes [0x07, 0x02, 0x01], 3#32) := by decide +kernel

/-- R212: the base byte is `lastCopyOffset` back. -/
theorem test_lit_base :
    got (·.outMem) (exec (.lit 1#8) { writing [0x41, 0x02] 4 4 State.reset with lastCopyOffset := 2#32 }) =
      some (bytes [0x41, 0x02, 0x42]) := by decide +kernel

/-- V41: symbols 256 and 287. -/
theorem test_matchs :
    got (fun s => (s.copyLength, s.stage)) (exec (.matchs 0#5) State.reset) = some (2#32, .distance) ∧
      got (·.copyLength) (exec (.matchs 31#5) State.reset) = some 33#32 := by decide +kernel

/-- V19d inside P4: symbol 299 with extra 4095. -/
theorem test_matchx :
    got (fun s => (s.copyLength, s.state1, s.state2)) (exec (.matchx 11#4) (coder 0x0002AFFF#32 0x00078002#32 [0xFF, 0xFF])) =
      some (8223#32, 0x00078002#32, 0x002AFFFF#32) := by decide +kernel

/-- V41: symbol 290 with extra 0 (P3). -/
theorem test_matchx_three_bits :
    got (·.copyLength) (exec (.matchx 2#4) (coder 0x00020028#32 0x00138057#32 [0x7F, 0x83])) = some 40#32 := by decide +kernel

/-- P5's hit at rank 7. -/
theorem test_dcache :
    got (fun s => (s.matchDist, s.distMask))
      (exec (.dcache 7#3) { State.reset with distMask := 0xFAC688#24, recent := #v[1, 1, 1, 1, 1, 1, 2109466, 2097121] }) =
      some (2097121#32, 0xD63447#24) := by decide +kernel

/-- P2's DNEW: symbol 10, OBL symbol 0, distance 3. -/
theorem test_dnewLow :
    got (fun s => (s.matchDist, s.recent, s.state1, s.state2, s.srcCur)) (exec (.dnewLow 2#3) inDnew) =
      some (3#32, #v[1, 1, 1, 1, 1, 1, 3, 1], 0x295E00AE#32, 0x01087C3C#32, 2#32) := by decide +kernel

/-- V42 (0, 0, osym) with the symbol 25: 32 + 25 - 39. -/
theorem test_dnewMid : got (·.matchDist) (exec (.dnewMid 9#4) inDnew) = some 18#32 := by decide +kernel

/-- V42 (0, 0, 39) gives 32. -/
theorem test_dnewHigh : got (·.matchDist) (exec (.dnewHigh 7#3) inDnew) = some 32#32 := by decide +kernel

/-- P5's first DNEW: `nb` = 16, `RawBits(0)`, the direct unit 0, distance 2097121. -/
theorem test_dnew_long :
    got (fun s => (s.matchDist, s.state1, s.state2, s.srcCur)) (exec (.dnewLow 0#3) inLongDnew) =
      some (2097121#32, 0x03827CDF#32, 0x2955ECC4#32, 2#32) := by decide +kernel

/-- P5: the OBL decode of its first DNEW. -/
theorem test_nbits :
    got (fun s => (s.ret, s.state1, s.state2)) (exec .nbits inLongDnew) = some (16#32, 0x2955ECC4#32, 0x03827CDF#32) := by
  decide +kernel

/-- V45: length 5 at distance 2. -/
theorem test_copy_overlap :
    got (fun s => (s.outMem, s.dstCur, s.lastCopyOffset)) (exec (.copy 5#32 2#32) (writing [0x61, 0x62, 0x63] 8 8 State.reset)) =
      some (bytes [0x61, 0x62, 0x63, 0x62, 0x63, 0x62, 0x63, 0x62], 8#32, 2#32) := by decide +kernel

/-- V45: distance 4 at cursor 3, also when the length is too large. -/
theorem test_copy_distance :
    got (·.failCause) (exec (.copy 9#32 4#32) (writing [0x61, 0x62, 0x63] 8 8 State.reset)) =
      some (.invalidDistance 4#32 3#32) := by decide +kernel

/-- V4 on a fresh LIT model: 36 corrections, the new state is 2. -/
theorem test_decodesym_lit :
    got (fun s => (s.ret, s.state1))
      (exec (.decodesym (.lit 2)) { State.reset with state1 := 0x00017FFF#32, lit := Vector.replicate 4 (initModel Params.default .literal) }) =
      some (299#32, 2#32) := by decide +kernel

/-- V1 on a fresh OFFLOW model, with the counter. -/
theorem test_decodesym_offLow :
    got (fun s => (s.ret, s.state1, (s.offLow[1]).adaptCounter, (s.offLow[0]).adaptCounter))
      (exec (.decodesym (.offLow 1))
        { State.reset with state1 := 0x00012345#32, offLow := Vector.replicate 4 (initModel Params.default .offsetLow) }) =
      some (11#32, 1656#32, 1023, 1024) := by decide +kernel

/-- V13: symbol 20 decoded 1024 times, the floor of negative odd differences. -/
theorem test_rebuild :
    got (fun s => s.obl.cdf)
      (exec (.rebuild .obl 20#9)
        { State.reset with
          obl := { initModel Params.default .offsetBitLength with frequency := List.replicate 20 1 ++ [1 + 31 * 1024] } }) =
      some [0, 780, 1561, 2342, 3122, 3903, 4684, 5464, 6245, 7026, 7806, 8587, 9368, 10148, 10929, 11710, 12491, 13271, 14052,
        14833, 15613, 32768] := by decide +kernel

/-- V12: symbol 0 decoded for the 1024th time, here by DECODESYM, which rebuilds. -/
theorem test_decodesym_rebuilds :
    got (fun s => (s.obl.cdf.take 4, s.obl.frequency.take 2, s.obl.adaptCounter, s.obl.lookup.drop 32))
      (exec (.decodesym .obl)
        { State.reset with
          state1 := 0x00010000#32
          obl := { initModel Params.default .offsetBitLength with
            frequency := (1 + 31 * 1023) :: List.replicate 20 1, adaptCounter := 1 } }) =
      some ([0, 17154, 17935, 18716], [1, 1], 1024,
        [0, 0, 1, 1, 2, 3, 3, 4, 5, 5, 6, 7, 7, 8, 9, 9, 10, 11, 11, 12, 13, 13, 14, 15, 15, 16, 17, 17, 18, 19, 19, 20]) := by
  decide +kernel

/-- V17. -/
theorem test_renorm_refill :
    got (fun s => (s.state1, s.state2, s.srcCur)) (exec .renorm (coder 0x0000015F#32 0x00A1B2C3#32 [0x34, 0x12])) =
      some (0x00A1B2C3#32, 0x015F1234#32, 2#32) := by decide +kernel

/-- V18, with no input. -/
theorem test_renorm_swap :
    got (fun s => (s.state1, s.state2, s.srcCur)) (exec .renorm (coder 0x00010000#32 0x00020000#32 [])) =
      some (0x00020000#32, 0x00010000#32, 0#32) := by decide +kernel

/-- V19c with the unit 0x1234. -/
theorem test_rawbits :
    got (fun s => (s.ret, s.state1, s.state2)) (exec (.rawbits 8#4) (coder 0x0001ABCD#32 7#32 [0x34, 0x12])) =
      some (0xCD#32, 7#32, 0x01AB1234#32) := by decide +kernel

/-- V19e: no bits, one swap. -/
theorem test_rawbits_zero :
    got (fun s => (s.ret, s.state1, s.state2)) (exec (.rawbits 0#4) (coder 0x2955ECC4#32 0x03827CDF#32 [])) =
      some (0#32, 0x03827CDF#32, 0x2955ECC4#32) := by decide +kernel

/-- V19b. -/
theorem test_read16 :
    got (fun s => (s.ret, s.srcCur)) (exec .read16 { coder 0#32 0#32 [0, 0, 0, 0, 0, 0x34, 0x12] with srcCur := 5#32 }) =
      some (0x1234#32, 7#32) := by decide +kernel

/-- V19: one byte left. -/
theorem test_read16_short :
    got (fun s => (s.failCause, s.srcCur)) (exec .read16 (coder 0#32 0#32 [0x34])) = some (.inputTruncation 0#32, 0#32) := by
  decide +kernel

/-- V8 and V9: sums of the initial tables. -/
theorem test_initial_sums :
    (initModel Params.default .literal).cdf.sum = 5515878 ∧ (initModel Params.default .offsetLow).cdf.sum = 671728 ∧
      (initModel Params.default .offsetBitLength).cdf.sum = 360438 ∧ (initModel Params.default .literal).lookup.sum = 67276 ∧
      (initModel Params.default .offsetLow).lookup.sum = 1232 ∧ (initModel Params.default .offsetBitLength).lookup.sum = 630 := by decide +kernel

/-- V44, last case: the rank list loses its oldest distance. -/
theorem test_miss_insert :
    missInsert 0xD63447#24 #v[1, 1, 1, 1, 1, 1, 2109466, 2097121] 500#32 = #v[1, 1, 1, 1, 1, 500, 1, 2097121] := by decide +kernel

/-! ### The parameters at other settings (R7) -/

/-- The defaults with `TRAILING_INPUT = fail`. -/
def strict : Parameters := { Params.default with trailingInput := .fail }

/-- F8's two trailing bytes fail the decode under `fail` (D14), and P1 without them does not. -/
theorem test_trailing_input_fails :
    got (fun s => (s.phase, s.failCause)) (execQraw (writing [] 3 3 (coder 0#32 0#32 [0, 0, 0x48, 0x69, 0x21, 0xFF, 0xFF])) strict) =
        some (.doneFail, .trailingInput 5#32) ∧
      got (·.phase) (execQraw (writing [] 3 3 (coder 0#32 0#32 [0, 0, 0x48, 0x69, 0x21])) strict) = some .doneOk := by
  decide +kernel

/-- V33 (65785, 131324), aligned: `dstQuantumEnd` = 131072. -/
theorem test_aligned_quantum :
    got (·.dstQuantumEnd)
      (execQstart { coder 0#32 0#32 [5, 0] with dstCur := 65785#32, dstEnd := 131324#32 }
        { Params.default with quantumBoundary := .aligned }) = some 131072#32 := by decide +kernel

/-- V13, the table with rounding toward zero. -/
theorem test_half_toward_zero :
    got (fun s => s.obl.cdf)
      (execRebuild .obl 20#9
        { State.reset with
          obl := { initModel Params.default .offsetBitLength with frequency := List.replicate 20 1 ++ [1 + 31 * 1024] } }
        { Params.default with half := fun d => d.tdiv 2 }) =
      some [0, 781, 1561, 2342, 3123, 3903, 4684, 5465, 6246, 7026, 7807, 8588, 9368, 10149, 10930, 11710, 12491, 13272, 14052,
        14833, 15614, 32768] := by decide +kernel

/-- R63, R114: the magic in the other byte order, one byte further on. -/
theorem test_magic_big_endian :
    got (fun s => (s.phase, s.srcCur))
      (execMagic (coder 0#32 0#32 [0, 0x75, 0xB1]) { Params.default with byteOrder := .big, magicOffset := 1#32 }) =
      some (.qstart, 3#32) := by decide +kernel

/-- R250: MAGIC can run out of input when `MAGIC_OFFSET` is not 0. -/
theorem test_magic_offset_truncated :
    got (·.failCause) (execMagic (coder 0#32 0#32 [0, 0xB1]) { Params.default with magicOffset := 1#32 }) =
      some (.inputTruncation 1#32) := by decide +kernel

/-- R36: a margin of three entries past the 64 blocks. -/
theorem test_lookup_margin :
    (initModel { Params.default with lookupMargin := 3 } .offsetBitLength).lookup.length = 67 := by decide +kernel

/-- R72, R69: a failure makes the bytes below DECOMP_SIZE new free values and leaves those at and above it, unwritten ones too. -/
theorem test_failure_epochs :
    got (fun s => (outEpoch s 0, outEpoch s 7, outEpoch s 8))
      (exec (.copy 5#32 4#32) (writing [0x61, 0x62, 0x63] 8 8 State.reset)) = some (1, 1, 0) := by decide +kernel

/-- P2's third step: LIT of `LIT[1]` from the body, with its refill. -/
theorem test_step_lit :
    got (fun s => (s.outMem, s.state1, s.state2, s.srcCur, s.dstCur))
      (step { writing [0x61] 11 11 (coder 0x000300B0#32 0x002A80A4#32 [0xAA, 0xFD]) with
        phase := .qbody, lit := Vector.replicate 4 (initModel Params.default .literal), lastCopyOffset := 1#32 }) =
      some (bytes [0x61, 0x62], 0x002A80A4#32, 0x031DFDAA#32, 2#32, 2#32) := by decide +kernel

/-- R23: a START from the host runs the START row; P1's sizes. -/
theorem test_step_host_start :
    got (fun s => (s.phase, s.hostScript)) (step (scripted [.writeReg .ctrl 1#32] (loaded [] 7 3))) = some (.magic, []) := by
  decide +kernel

/-- R288: the host may not write OUT while BUSY. -/
theorem test_step_host_busy :
    refusal (step (scripted [.writeOut 0#32 0#8] running)) = some .hostAccessWhileBusy := by decide +kernel

/-- The word of LIT, placed where the step fetches, runs as the first operation after reset. -/
theorem test_placed_lit : got (fun s => (s.dstCur, s.outMem)) (step running) = some (2#32, bytes [0, 0x41]) := by decide +kernel

/-! ### States and operands that meet the statements' hypotheses, at boundary values

Each theorem is named after the statement it is for; its conjuncts are that statement's hypotheses, clause by clause. -/

/-- A running decode about to check the magic. -/
def inMagic : State := { loaded [0xB1, 0x75, 0, 0, 9] 5 1 with phase := .magic, srcEnd := 5#32, dstEnd := 1#32 }

theorem witness_StatusEncodesPhase :
    State.reset.phase = .idle ∧ { State.reset with phase := .doneOk }.phase = .doneOk ∧
      { State.reset with phase := .doneFail }.phase = .doneFail ∧ busy inMagic = true ∧
      { inMagic with srcCur := 1#32 }.phase = inMagic.phase ∧
      (scripted [.readReg .status] running).hostScript = .readReg .status :: [] := by decide

theorem witness_CtrlWriteStarts :
    (scripted [.writeReg .ctrl 1#32] running).hostScript = .writeReg .ctrl 1#32 :: [] ∧
      busy (scripted [.writeReg .ctrl 1#32] running) = true ∧ busy (scripted [.writeReg .ctrl 0#32] State.reset) = false ∧
      2 ≤ (2#32).toNat ∧ 2 ≤ (0xFFFFFFFF#32).toNat ∧
      (scripted [.readReg .ctrl] State.reset).hostScript = .readReg .ctrl :: [] := by decide

theorem witness_SizeRegistersReadBack :
    busy (scripted [.writeReg .compSize 0#32, .readReg .compSize] State.reset) = false ∧
      (scripted [.writeReg .decompSize 0xFFFFFFFF#32, .readReg .decompSize] State.reset).hostScript =
        .writeReg .decompSize 0xFFFFFFFF#32 :: .readReg .decompSize :: [] := by decide

theorem witness_HostBytesReadBack :
    busy (scripted [.writeIn 0#32 7#8, .readIn 0#32] State.reset) = false ∧
      (scripted [.writeIn 0#32 7#8, .readIn 0#32] State.reset).hostScript = .writeIn 0#32 7#8 :: .readIn 0#32 :: [] ∧
      (scripted [.writeOut 0xFFFFFFFF#32 7#8, .readOut 0xFFFFFFFF#32] State.reset).hostScript =
        .writeOut 0xFFFFFFFF#32 7#8 :: .readOut 0xFFFFFFFF#32 :: [] := by decide

theorem witness_HostRefusedWhileBusy :
    busy (scripted [.writeReg .compSize 1#32] running) = true ∧
      (scripted [.readIn 0#32] running).hostScript = .readIn 0#32 :: [] := by decide

theorem witness_HardwareResetAbandonsDecode :
    (scripted [.hwReset] running).hostScript = .hwReset :: [] ∧ busy (scripted [.hwReset] running) = true ∧
      0 < (scripted [.hwReset] running).decompSize.toNat ∧ busy (scripted [.hwReset] State.reset) = false := by decide

theorem witness_QuiescentPhasesDoNothing : busy State.reset = false ∧ State.reset.hostScript = [] := by decide

theorem witness_StartInitializesDecoder :
    busy (loaded [] 2 1) = false ∧ 2 ≤ (loaded [] 2 1).compSize.toNat ∧ (loaded [] 2 1).decompSize ≠ 0#32 := by decide

theorem witness_StartFailsPrecondition :
    busy (loaded [] 1 1) = false ∧ (loaded [] 1 1).compSize.toNat < 2 ∧ (loaded [] 2 0).decompSize = 0#32 := by decide

theorem witness_FailureMakesOutUnspecified : 0 < (loaded [] 2 1).decompSize.toNat ∧ (loaded [] 2 1).decompSize.toNat ≤ 1 := by decide

theorem witness_MagicChecksFirstUnit :
    2 ≤ (coder 0#32 0#32 [0xB1, 0x75]).srcEnd.toNat ∧
      (coder 0#32 0#32 [0xB1, 0x75]).srcEnd.toNat ≤ (coder 0#32 0#32 [0xB1, 0x75]).compSize.toNat ∧
      unitAt (coder 0#32 0#32 [0xB1, 0x75]) 0 = 0x75B1#16 ∧ unitAt (coder 0#32 0#32 [0x75, 0xB1]) 0 ≠ 0x75B1#16 := by
  decide +kernel

/-- Clause by clause: no whole unit is left; the bits of RAWBITS; the bit count of NBITS; the two symbols of the body. -/
theorem witness_TruncatedReadsFail :
    (inputLeft (coder 0#32 0#32 [9]) < 2 ∧ inputLeft (coder 0#32 0#32 []) < 2 ∧
      (coder 0xFFFF#32 0#32 [9]).state1.toNat < 0x10000) ∧
    ¬ renormReady (withoutLowBits (1#4).toNat (coder 0x1FFFF#32 0#32 [9])) ∧
    (ModelInv .offsetBitLength inDnew.obl ∧ nextSymbol .obl { inDnew with srcEnd := 1#32 } = some 0 ∧
      ¬ renormReady (afterDecode .obl 0 { inDnew with srcEnd := 1#32 })) ∧
    (ModelInv .literal (running.model (.lit 1)) ∧ { running with srcEnd := 1#32 }.hostScript = [] ∧ running.phase = .qbody ∧
      running.stage = .head ∧ running.dstCur < running.dstQuantumEnd ∧ ModelId.lit 1 = .lit (modelIndex running.dstCur) ∧
      nextSymbol (.lit 1) { running with srcEnd := 1#32 } = some 0x41 ∧
      ¬ renormReady (afterDecode (.lit 1) 0x41 { running with srcEnd := 1#32 })) ∧
    (ModelInv .offsetLow (seeking.model (.offLow 1)) ∧ seeking.stage = .distance ∧
      ModelId.offLow 1 = .offLow (modelIndex seeking.dstCur) ∧ nextSymbol (.offLow 1) { seeking with srcEnd := 1#32 } = some 8 ∧
      ¬ renormReady (afterDecode (.offLow 1) 8 { seeking with srcEnd := 1#32 })) := by
  refine ⟨by decide, ?_, ⟨initModel_inv .offsetBitLength, ?_⟩, ⟨initModel_inv .literal, ?_⟩, ⟨initModel_inv .offsetLow, ?_⟩⟩ <;>
  · unfold renormReady
    decide +kernel

/-- V23's header cut in each of its units but w0, V20's in x3; then DNEW cut at each of its three reads. -/
theorem witness_MissingUnitFailsHeaderAndDistance :
    (inputLeft (coder 0#32 0#32 [7]) < 4 ∧ inputLeft (coder 0#32 0#32 [7, 0, 0xFF]) < 4) ∧
    (0x7FFFF = (unitAt (coder 0#32 0#32 [7, 0, 0xFF, 0xFF, 0, 0xC0, 1, 0, 0x34]) 0).toNat * 65536 +
        (unitAt (coder 0#32 0#32 [7, 0, 0xFF, 0xFF, 0, 0xC0, 1, 0, 0x34]) 2).toNat ∧
      65536 ≤ 0x7FFFF ∧ 1 = (if 0x7FFF < 65536 then 1 else 0) ∧
      0x7FFFC000 = (if 0x7FFF < 65536 then
        0x7FFF * 65536 + (unitAt (coder 0#32 0#32 [7, 0, 0xFF, 0xFF, 0, 0xC0, 1, 0, 0x34]) 4).toNat else 0x7FFF) ∧
      1 = (if 0x7FFFC000 / 2 ^ 15 < 65536 then 1 else 0) ∧
      inputLeft (coder 0#32 0#32 [7, 0, 0xFF, 0xFF, 0]) < 6 + 2 * 1 + 2 * 1 ∧
      inputLeft (coder 0#32 0#32 [7, 0, 0xFF, 0xFF, 0, 0xC0, 1]) < 6 + 2 * 1 + 2 * 1 ∧
      inputLeft (coder 0#32 0#32 [7, 0, 0xFF, 0xFF, 0, 0xC0, 1, 0, 0x34]) < 6 + 2 * 1 + 2 * 1) ∧
    (0x123450 = (unitAt (coder 0#32 0#32 [0x12, 0, 0x50, 0x34, 0xCD]) 0).toNat * 65536 +
        (unitAt (coder 0#32 0#32 [0x12, 0, 0x50, 0x34, 0xCD]) 2).toNat ∧
      inputLeft (coder 0#32 0#32 [0x12, 0, 0x50, 0x34, 0xCD]) < 6 + 2 * 0 + 2 * 0) ∧
    dnewOf (.dnewLow 0#3) 8 ∧
    (ModelInv .offsetBitLength inDnew.obl ∧ nextSymbol .obl { inDnew with srcEnd := 1#32 } = some 0 ∧
      ¬ renormReady (afterDecode .obl 0 { inDnew with srcEnd := 1#32 })) ∧
    (ModelInv .offsetBitLength inRawBits.obl ∧ nextSymbol .obl inRawBits = some 15 ∧ renormReady (afterDecode .obl 15 inRawBits) ∧
      ¬ renormReady (withoutLowBits (15 % 16) (afterRenorm (afterDecode .obl 15 inRawBits)))) ∧
    (ModelInv .offsetBitLength inLongDnew.obl ∧ nextSymbol .obl { inLongDnew with srcEnd := 1#32 } = some 16 ∧
      renormReady (afterDecode .obl 16 { inLongDnew with srcEnd := 1#32 }) ∧
      renormReady (withoutLowBits (16 % 16) (afterRenorm (afterDecode .obl 16 { inLongDnew with srcEnd := 1#32 }))) ∧
      inputLeft (afterRenorm (withoutLowBits (16 % 16)
        (afterRenorm (afterDecode .obl 16 { inLongDnew with srcEnd := 1#32 })))) < 2) := by
  refine ⟨by decide, by decide +kernel, by decide +kernel, .inl ⟨0#3, rfl, rfl⟩, ⟨initModel_inv .offsetBitLength, ?_⟩,
    ⟨initModel_inv .offsetBitLength, ?_⟩, ⟨initModel_inv .offsetBitLength, ?_⟩⟩ <;>
  · unfold renormReady
    decide +kernel

theorem witness_QuantumSizeRule : 65535 < 65536 ∧ 65536 % 65536 = 0 ∧ 65536 < 65537 := by decide

theorem witness_QstartSelectsByMarker :
    (writing [] 1 0 (coder 0#32 0#32 [0, 0])).dstCur < (writing [] 1 0 (coder 0#32 0#32 [0, 0])).dstEnd ∧
      2 ≤ inputLeft (writing [] 1 0 (coder 0#32 0#32 [0, 0])) ∧
      (writing [] 1 0 (coder 0#32 0#32 [0, 0])).srcEnd.toNat ≤ (writing [] 1 0 (coder 0#32 0#32 [0, 0])).compSize.toNat := by decide

theorem witness_QrawCopiesVerbatim :
    (writing [] 3 3 (coder 0#32 0#32 [0, 0, 1, 2, 3])).dstQuantumEnd.toNat =
        (writing [] 3 3 (coder 0#32 0#32 [0, 0, 1, 2, 3])).dstCur.toNat + 3 ∧
      (writing [] 3 3 (coder 0#32 0#32 [0, 0, 1, 2, 3])).srcCur.toNat + 2 + 3 ≤
        (writing [] 3 3 (coder 0#32 0#32 [0, 0, 1, 2, 3])).srcEnd.toNat ∧
      (writing [] 3 3 (coder 0#32 0#32 [0, 0, 1, 2, 3])).srcEnd.toNat ≤
        (writing [] 3 3 (coder 0#32 0#32 [0, 0, 1, 2, 3])).compSize.toNat ∧
      (writing [] 3 3 (coder 0#32 0#32 [0, 0, 1, 2, 3])).dstQuantumEnd.toNat ≤
        (writing [] 3 3 (coder 0#32 0#32 [0, 0, 1, 2, 3])).decompSize.toNat := by decide

theorem witness_QrawTruncatedFails :
    (writing [] 3 3 (coder 0#32 0#32 [0, 0, 1, 2])).dstQuantumEnd.toNat =
        (writing [] 3 3 (coder 0#32 0#32 [0, 0, 1, 2])).dstCur.toNat + 3 ∧
      (writing [] 3 3 (coder 0#32 0#32 [0, 0, 1, 2])).srcCur.toNat + 2 ≤
        (writing [] 3 3 (coder 0#32 0#32 [0, 0, 1, 2])).srcEnd.toNat ∧
      (writing [] 3 3 (coder 0#32 0#32 [0, 0, 1, 2])).srcEnd.toNat <
        (writing [] 3 3 (coder 0#32 0#32 [0, 0, 1, 2])).srcCur.toNat + 2 + 3 := by decide

/-- V23's header value 0x0007FFFF: both chunks are due; and V20's, where none is. -/
theorem witness_QhdrReconstructsStates :
    (0x7FFFF = (unitAt (coder 0#32 0#32 [0x07, 0, 0xFF, 0xFF, 0, 0xC0, 1, 0, 0x34, 0x12]) 0).toNat * 65536 +
        (unitAt (coder 0#32 0#32 [0x07, 0, 0xFF, 0xFF, 0, 0xC0, 1, 0, 0x34, 0x12]) 2).toNat ∧
      65536 ≤ 0x7FFFF ∧ 15 = 0x7FFFF % 16 ∧ 0x7FFF = 0x7FFFF / 16 ∧ 1 = (if 0x7FFF < 65536 then 1 else 0) ∧
      0x7FFFC000 = (if 0x7FFF < 65536 then
        0x7FFF * 65536 + (unitAt (coder 0#32 0#32 [0x07, 0, 0xFF, 0xFF, 0, 0xC0, 1, 0, 0x34, 0x12]) 4).toNat else 0x7FFF) ∧
      1 = (if 0x7FFFC000 / 2 ^ 15 < 65536 then 1 else 0) ∧
      6 + 2 * 1 + 2 * 1 ≤ inputLeft (coder 0#32 0#32 [0x07, 0, 0xFF, 0xFF, 0, 0xC0, 1, 0, 0x34, 0x12])) ∧
    (0x123450 = (unitAt (coder 0#32 0#32 [0x12, 0, 0x50, 0x34, 0xCD, 0xAB]) 0).toNat * 65536 +
        (unitAt (coder 0#32 0#32 [0x12, 0, 0x50, 0x34, 0xCD, 0xAB]) 2).toNat ∧
      65536 ≤ 0x123450 ∧ 0 = 0x123450 % 16 ∧ 0x12345 = 0x123450 / 16 ∧ 0 = (if 0x12345 < 65536 then 1 else 0) ∧
      0 = (if 0x12345 / 2 ^ 0 < 65536 then 1 else 0) ∧
      6 + 2 * 0 + 2 * 0 ≤ inputLeft (coder 0#32 0#32 [0x12, 0, 0x50, 0x34, 0xCD, 0xAB])) := by decide +kernel

theorem witness_QhdrRejectsLowHeader :
    (coder 0#32 0#32 [0, 0, 0xFF, 0xFF]).srcEnd.toNat ≤ (coder 0#32 0#32 [0, 0, 0xFF, 0xFF]).compSize.toNat ∧
      4 ≤ inputLeft (coder 0#32 0#32 [0, 0, 0xFF, 0xFF]) ∧ unitAt (coder 0#32 0#32 [0, 0, 0xFF, 0xFF]) 0 = 0#16 := by
  decide +kernel

/-- V34: a refill is due after the eight bits. -/
def atFirst : State := { writing [] 1 1 (coder 0x00012345#32 0x0001ABCD#32 [0x34, 0x12]) with firstLiteralPending := true }

theorem witness_FirstlitEmitsRawByte :
    atFirst.firstLiteralPending = true ∧ atFirst.srcEnd.toNat ≤ atFirst.compSize.toNat ∧ renormReady (withoutLowBits 8 atFirst) ∧
      atFirst.dstCur.toNat < atFirst.decompSize.toNat ∧ State.reset.firstLiteralPending = false ∧
      ¬ renormReady (withoutLowBits 8 { atFirst with srcCur := 1#32 }) := by
  unfold renormReady
  decide +kernel

theorem witness_QendChecksBothStates :
    (coder 0x10000#32 0x10000#32 []).state1 = 0x10000#32 ∧ (coder 0x10000#32 0x10000#32 []).state2 = 0x10000#32 ∧
      (coder 0x10000#32 0x10001#32 []).state2 ≠ 0x10000#32 ∧ strict.trailingInput = .fail ∧
      (writing [] 1 0 (coder 0x10000#32 0x10000#32 [])).dstCur < (writing [] 1 0 (coder 0x10000#32 0x10000#32 [])).dstEnd ∧
      (coder 0x10000#32 0x10000#32 []).dstEnd ≤ (coder 0x10000#32 0x10000#32 []).dstCur ∧
      (coder 0x10000#32 0x10000#32 []).srcCur = (coder 0x10000#32 0x10000#32 []).srcEnd ∧
      (coder 0x10000#32 0x10000#32 [9]).srcCur ≠ (coder 0x10000#32 0x10000#32 [9]).srcEnd := by decide

theorem witness_LitAddsDelta :
    1 ≤ running.lastCopyOffset.toNat ∧ running.lastCopyOffset.toNat ≤ running.dstCur.toNat ∧
      running.dstCur.toNat < running.decompSize.toNat := by decide +kernel

theorem witness_MatchxGivesExtendedLength :
    (11#4).toNat ≤ 11 ∧ 12 = (11#4).toNat + 1 ∧
      (coder 0x0002AFFF#32 0x00078002#32 [0xFF, 0xFF]).srcEnd.toNat ≤
        (coder 0x0002AFFF#32 0x00078002#32 [0xFF, 0xFF]).compSize.toNat ∧
      renormReady (withoutLowBits 12 (coder 0x0002AFFF#32 0x00078002#32 [0xFF, 0xFF])) ∧
      renormReady (withoutLowBits 1 (coder 0x0002AFFF#32 0x00078002#32 [])) ∧
      ¬ renormReady (withoutLowBits 12 (coder 0x0002AFFF#32 0x00078002#32 [0xFF])) := by
  unfold renormReady
  decide +kernel

theorem witness_MatchLengthsTile :
    34 ≤ 34 ∧ 34 ≤ 8223 ∧ 34 ≤ 8223 ∧ 8223 ≤ 8223 ∧ 288 ≤ 288 ∧ 288 ≤ 299 := by decide

theorem witness_NewDistancesTile : 20 ≤ 20 ∧ 1048575 < 2 ^ 20 ∧ 8 ≤ 39 ∧ 39 ≤ 39 ∧ 1 ≤ 67108832 := by decide

theorem witness_MaskStaysPermutation : maskIsPermutation 0xFAC688#24 ∧ maskIsPermutation 0xD63447#24 ∧ 7 < 8 := by
  unfold maskIsPermutation
  decide

theorem witness_MissInsertShiftsOldest :
    maskIsPermutation 0xD63447#24 ∧
      (cacheView 0xD63447#24 #v[1, 1, 1, 1, 1, 1, 2109466, 2097121])[6]? = some 1#32 := by
  unfold maskIsPermutation
  decide

/-- `nb` = 0 (P2) and `nb` = 16 (P5). -/
theorem witness_DnewAssemblesDistance :
    (∃ c, Instr.dnewLow 2#3 = .dnewLow c ∧ 10 = 8 + c.toNat) ∧
    (ModelInv .offsetBitLength inDnew.obl ∧ inDnew.srcEnd.toNat ≤ inDnew.compSize.toNat ∧ nextSymbol .obl inDnew = some 0 ∧
      renormReady (afterDecode .obl 0 inDnew) ∧
      renormReady (withoutLowBits (0 % 16) (afterRenorm (afterDecode .obl 0 inDnew)))) ∧
    (ModelInv .offsetBitLength inLongDnew.obl ∧ inLongDnew.srcEnd.toNat ≤ inLongDnew.compSize.toNat ∧
      nextSymbol .obl inLongDnew = some 16 ∧ renormReady (afterDecode .obl 16 inLongDnew) ∧
      renormReady (withoutLowBits (16 % 16) (afterRenorm (afterDecode .obl 16 inLongDnew))) ∧
      2 ≤ inputLeft (afterRenorm (withoutLowBits (16 % 16) (afterRenorm (afterDecode .obl 16 inLongDnew))))) := by
  refine ⟨⟨2#3, rfl, rfl⟩, ⟨initModel_inv .offsetBitLength, ?_⟩, ⟨initModel_inv .offsetBitLength, ?_⟩⟩ <;>
  · unfold renormReady
    decide +kernel

theorem witness_NbitsDecodesBitCount :
    ModelInv .offsetBitLength inLongDnew.obl ∧ inLongDnew.srcEnd.toNat ≤ inLongDnew.compSize.toNat ∧
      nextSymbol .obl inLongDnew = some 16 ∧ renormReady (afterDecode .obl 16 inLongDnew) := by
  refine ⟨initModel_inv .offsetBitLength, ?_⟩
  unfold renormReady
  decide +kernel

theorem witness_CopyRepeatsPeriodically :
    1 ≤ (3#32).toNat ∧ (3#32).toNat ≤ (writing [0x61, 0x62, 0x63] 8 8 State.reset).dstCur.toNat ∧
      (5#32).toNat ≤ (writing [0x61, 0x62, 0x63] 8 8 State.reset).dstEnd.toNat -
        (writing [0x61, 0x62, 0x63] 8 8 State.reset).dstCur.toNat ∧
      (writing [0x61, 0x62, 0x63] 8 8 State.reset).dstEnd.toNat ≤
        (writing [0x61, 0x62, 0x63] 8 8 State.reset).decompSize.toNat := by decide

theorem witness_CopyValidatesInOrder :
    (writing [0x61, 0x62, 0x63] 8 8 State.reset).dstCur < 4#32 ∧ 3#32 ≠ 0#32 ∧
      3#32 ≤ (writing [0x61, 0x62, 0x63] 8 8 State.reset).dstCur ∧
      (writing [0x61, 0x62, 0x63] 8 8 State.reset).dstEnd.toNat -
        (writing [0x61, 0x62, 0x63] 8 8 State.reset).dstCur.toNat < (6#32).toNat := by decide

/-- V7: residue 32767 on a fresh LIT model, guess 263, symbol 299; the same model with three entries in the margin. -/
theorem witness_SearchFindsContainingSymbol :
    ((initModel Params.default .literal).bound 0 = 0 ∧ symOf (initModel Params.default .literal).cdf 32767 = some 299 ∧
      (initModel Params.default .literal).lookup.getD (32767 >>> Params.lookupShift .literal) 0 = 263 ∧ 263 ≤ 299) ∧
    32767 < 32768 ∧
    (initModel Params.default .literal).lookup.take (Params.lookupSize .literal) =
      ((initModel Params.default .literal).lookup ++ [9, 9, 9]).take (Params.lookupSize .literal) := by decide +kernel

/-- V4: the least result, 2. -/
theorem witness_DecodedStateInRange :
    ModelInv (ModelId.lit 2).cls
        ({ running with state1 := 0x00017FFF#32 }.model (.lit 2)) ∧
      0x10000 ≤ { running with state1 := 0x00017FFF#32 }.state1.toNat :=
  ⟨initModel_inv .literal, by decide⟩

theorem witness_DecodesymDecodesResidue : ModelInv (ModelId.obl).cls (inDnew.model .obl) := initModel_inv .offsetBitLength

theorem nearRebuild_inv : ModelInv .offsetBitLength nearRebuild :=
  { initModel_inv .offsetBitLength with
    frequencyLength := by decide +kernel
    frequencyPositive := by decide +kernel
    counterLow := by decide
    counterHigh := by decide
    frequencyTotal := by decide +kernel }

theorem witness_UpdateCountsThenRebuilds :
    (nearRebuild.frequency.length = ModelClass.offsetBitLength.alphabet ∧ nearRebuild.adaptCounter = 1 ∧
      20 < ModelClass.offsetBitLength.alphabet) ∧
    ((initModel Params.default .literal).frequency.length = ModelClass.literal.alphabet ∧
      2 ≤ (initModel Params.default .literal).adaptCounter ∧ 299 < ModelClass.literal.alphabet) ∧
    (inDnew.model .obl).cdf.length = (ModelId.obl).cls.alphabet + 1 ∧ (inDnew.model .obl).bound 0 = 0 ∧
    (inDnew.model .obl).bound (ModelId.obl).cls.alphabet = 32768 ∧ (inDnew.model .obl).cdf.Pairwise (· ≤ ·) ∧
    ∀ t, nextSymbol .obl inDnew = some t →
      (inDnew.model .obl).lookup.getD ((inDnew.state1.toNat % 32768) >>> Params.lookupShift (ModelId.obl).cls) 0 ≤ t := by
  refine ⟨by decide +kernel, by decide +kernel, by decide +kernel, by decide +kernel, by decide +kernel, by decide +kernel, ?_⟩
  intro t h
  have : nextSymbol .obl inDnew = some 0 := by decide +kernel
  rw [this] at h
  cases h
  decide +kernel

theorem witness_RebuildTotalIsFixed :
    ModelInv .offsetBitLength nearRebuild ∧ 20 < ModelClass.offsetBitLength.alphabet ∧ nearRebuild.adaptCounter = 1 :=
  ⟨nearRebuild_inv, by decide, by decide⟩

theorem witness_UpdateKeepsModelInvariant :
    ModelInv .offsetBitLength nearRebuild ∧ 20 < ModelClass.offsetBitLength.alphabet ∧
      ModelInv .offsetLow (initModel Params.default .offsetLow) ∧ 39 < ModelClass.offsetLow.alphabet :=
  ⟨nearRebuild_inv, by decide, initModel_inv .offsetLow, by decide⟩

theorem witness_RebuildSmoothsTable :
    (inDnew.model .obl).frequency.length = (ModelId.obl).cls.alphabet ∧
      (inDnew.model .obl).cdf.length = (ModelId.obl).cls.alphabet + 1 := by decide +kernel

theorem witness_Read16ReturnsUnit :
    2 ≤ inputLeft (coder 0#32 0#32 [0x34, 0x12]) ∧ inputLeft (coder 0#32 0#32 [0x34]) < 2 ∧
      (coder 0#32 0#32 [0x34, 0x12]).srcEnd.toNat ≤ (coder 0#32 0#32 [0x34, 0x12]).compSize.toNat := by decide

theorem witness_RenormRefillsAndSwaps :
    (coder 0x10000#32 0#32 []).srcEnd.toNat ≤ (coder 0x10000#32 0#32 []).compSize.toNat ∧
      0x10000 ≤ (coder 0x10000#32 0#32 []).state1.toNat ∧ (coder 0xFFFF#32 0#32 [0, 0]).state1.toNat < 0x10000 ∧
      2 ≤ inputLeft (coder 0xFFFF#32 0#32 [0, 0]) ∧ inputLeft (coder 0xFFFF#32 0#32 [0]) < 2 ∧ 2 ≤ (coder 0xFFFF#32 0#32 [0, 0]).state1.toNat := by decide

theorem witness_RawbitsTakesLowBits :
    (coder 0x10000#32 0#32 [9, 9]).srcEnd.toNat ≤ (coder 0x10000#32 0#32 [9, 9]).compSize.toNat ∧
      renormReady (withoutLowBits (15#4).toNat (coder 0x10000#32 0#32 [9, 9])) ∧
      renormReady (withoutLowBits (0#4).toNat (coder 0x10000#32 0#32 [])) ∧
      0x10000 ≤ (coder 0x10000#32 0#32 []).state1.toNat := by
  unfold renormReady
  decide +kernel

theorem witness_DecodeOfEncode : (Instr.matchx 11#4).wf = true ∧ encode (.matchx 11#4) = some (.litSym, 299) := by decide

theorem witness_SymbolWordsHaveOneMeaning :
    decode .litSym 299 = .ok (.matchx 11#4) ∧ decode .offSym 39 = .ok (.dnewHigh 7#3) := by decide

/-- A running decode, placed by `withFetchWord`, meets the invariant. -/
theorem placedBody_inv (stage : Stage) (hst : stage = .head ∨ stage = .distance) (c1 c2 : Nat) (h1 : c1 < 65536) (h2 : c2 < 65536) :
    Inv (placedBody Params.default stage c1 c2 State.reset) := by
  have e1 : (BitVec.ofNat 32 (0x10000 + c1)).toNat = 0x10000 + c1 := by
    rw [BitVec.toNat_ofNat]
    omega
  have e2 : (BitVec.ofNat 32 (0x10000 + c2)).toNat = 0x10000 + c2 := by
    rw [BitVec.toNat_ofNat]
    omega
  refine ⟨by show List.Pairwise _ zeroInput; decide, by show List.Pairwise _ [((0 : Nat), 0#8)]; simp, fun _ => ?_⟩
  exact
    { compSizeLow := by show 2 ≤ (32#32).toNat; decide
      decompSizeLow := by show 1 ≤ (16#32).toNat; decide
      srcEndIsSize := rfl
      srcInside := by show 0#32 ≤ 32#32; decide
      dstStartZero := rfl
      dstEndIsSize := rfl
      dstInside := by show 1#32 ≤ 16#32; decide
      models := by
        intro m
        cases m <;> simp [placedBody, placedDecode, initDecoderState, State.model, ModelId.cls, initModel_inv]
      maskPermutes := by
        show maskIsPermutation 0xFAC688#24
        unfold maskIsPermutation
        decide
      recentRange := by
        intro d hd
        have hd : d ∈ (Vector.replicate 8 1#32).toList := hd
        simp at hd
        subst hd
        decide
      lastCopyLow := by show 1 ≤ (1#32).toNat; decide
      lastCopyHigh := by show (1#32).toNat ≤ max 1 (1#32).toNat; decide
      inPhase := by
        refine ⟨⟨?_, ?_⟩, by show 16#32 ≤ 16#32; decide, by show 1 ≤ (1#32).toNat; decide, ?_⟩
        · show 0x10000 ≤ (BitVec.ofNat 32 (0x10000 + c1)).toNat
          omega
        · show 0x10000 ≤ (BitVec.ofNat 32 (0x10000 + c2)).toNat
          omega
        · rcases hst with rfl | rfl
          · exact .inl rfl
          · exact .inr ⟨.inl rfl, by show 1#32 < 16#32; decide, by show 2 ≤ (2#32).toNat; decide, by
              show (2#32).toNat ≤ 8223
              decide⟩ }

theorem running_inv : Inv running := placedBody_inv .head (.inl rfl) _ _ (by decide +kernel) (by decide)

theorem seeking_inv : Inv seeking := placedBody_inv .distance (.inr rfl) _ _ (by decide +kernel) (by decide)

/-- Clause by clause of the machine's fetch: MAGIC, QSTART, QRAW, QHDR, FIRSTLIT, QEND, the two symbols, COPY. -/
theorem witness_StepRunsSelectedOperation :
    (inMagic.phase = .magic ∧ inMagic.hostScript = []) ∧
    ({ inMagic with phase := .qstart }.phase = .qstart ∧ { inMagic with phase := .qstart }.stage = .head ∧
      { inMagic with phase := .qstart }.hostScript = []) ∧
    ({ inMagic with phase := .qstart, stage := .raw }.phase = .qstart ∧ { inMagic with phase := .qstart, stage := .raw }.stage = .raw ∧
      { inMagic with phase := .qstart, stage := .raw }.hostScript = []) ∧
    ({ inMagic with phase := .qstart, stage := .coded }.phase = .qstart ∧ { inMagic with phase := .qstart, stage := .coded }.stage = .coded ∧
      { inMagic with phase := .qstart, stage := .coded }.hostScript = []) ∧
    ({ atFirst with phase := .qfirst }.phase = .qfirst ∧
      { atFirst with phase := .qfirst }.hostScript = []) ∧
    ({ running with dstCur := 16#32 }.phase = .qbody ∧ { running with dstCur := 16#32 }.stage = .head ∧
      { running with dstCur := 16#32 }.dstQuantumEnd ≤ { running with dstCur := 16#32 }.dstCur ∧
      { running with dstCur := 16#32 }.hostScript = []) ∧
    (running.hostScript = [] ∧ running.phase = .qbody ∧ running.stage = .head ∧ running.dstCur < running.dstQuantumEnd ∧
      ((decodeAndRenorm Params.default (.lit (modelIndex running.dstCur)) running).toOption.map (·.1)) = some 0x41 ∧
      decode .litSym 0x41 = .ok (.lit 0x41#8)) ∧
    (seeking.hostScript = [] ∧ seeking.phase = .qbody ∧ seeking.stage = .distance ∧
      ((decodeAndRenorm Params.default (.offLow (modelIndex seeking.dstCur)) seeking).toOption.map (·.1)) = some 8 ∧
      decode .offSym 8 = .ok (.dnewLow 0#3)) ∧
    ({ running with stage := .copy }.phase = .qbody ∧ { running with stage := .copy }.stage = .copy ∧
      { running with stage := .copy }.hostScript = []) := by decide +kernel

theorem witness_StepKeepsInvariant : Inv running ∧ got (·.phase) (step running) = some .qbody :=
  ⟨running_inv, by decide +kernel⟩

theorem witness_StepNeverFaults : Inv seeking ∧ got (·.stage) (step seeking) = some .copy := ⟨seeking_inv, by decide +kernel⟩

theorem witness_EngineTouchesOnlyOutput : (got (·.phase) (engineStep Params.default running)).isSome = true := by decide +kernel

theorem witness_CursorsOnlyGrow : Inv running ∧ busy running = true ∧ got busy (engineStep Params.default running) = some true :=
  ⟨running_inv, by decide +kernel⟩

theorem witness_DoneOkMeansOutputFull :
    Inv running ∧ outWritten running ∧ busy running = true ∧ got busy (engineStep Params.default running) = some true := by
  refine ⟨running_inv, ?_, by decide +kernel⟩
  intro a ha
  have ha : a < (1#32).toNat := ha
  have ha : a = 0 := by
    simp at ha
    omega
  subst ha
  decide +kernel

/-- The other clause: the last raw quantum of P1. -/
theorem witness_DoneOk_reached :
    got (·.phase) (engineStep Params.default { writing [] 3 3 (coder 0#32 0#32 [0, 0, 0x48, 0x69, 0x21]) with phase := .qstart, stage := .raw }) =
      some .doneOk := by decide +kernel

theorem witness_DecodeTerminates : Inv running ∧ busy running = true ∧ running.hostScript = [] :=
  ⟨running_inv, by decide +kernel⟩

theorem witness_UnspecifiedValuesNeverMatter :
    liveState State.reset = liveState { State.reset with state1 := 5#32, srcCur := 9#32, recent := Vector.replicate 8 7#32 } ∧
      liveState running = liveState { running with ret := 3#32, copyLength := 8#32 } := ⟨rfl, rfl⟩

theorem witness_CacheSlotsAreInvisible :
    maskIsPermutation 0xFAC688#24 ∧ maskIsPermutation 0xFAC681#24 ∧
      cacheNormal { running with recent := #v[1, 2, 1, 1, 1, 1, 1, 1] } =
        cacheNormal { running with distMask := 0xFAC681#24, recent := #v[2, 1, 1, 1, 1, 1, 1, 1] } := by
  refine ⟨by unfold maskIsPermutation; decide, by unfold maskIsPermutation; decide, ?_⟩
  unfold cacheNormal
  congr 1

theorem witness_OperationsComposeLzstep :
    Inv running ∧ running.hostScript = [] ∧ running.phase = .qbody ∧ running.stage = .head ∧
      running.dstCur < running.dstQuantumEnd := ⟨running_inv, by decide +kernel⟩

end Sys2Proof.Tests
end

section
/-! PROOFS. What the engine's fetch selects, once for each shape of the grammar (R31, R99), and what a step then runs (O49). -/

namespace Sys2Proof.Machine

variable {P : Parameters} {s : State}

/-! ### The fetch by phase and stage -/

theorem fetch_magic (hp : s.phase = .magic) : fetch P s = .run .magic s := by
  simp only [fetch, hp]

theorem fetch_qstart (hp : s.phase = .qstart) (hg : s.stage = .head) : fetch P s = .run .qstart s := by
  simp only [fetch, hp, hg]

/-- After QSTART has read a zero marker (R180, R182). -/
theorem fetch_qraw (hp : s.phase = .qstart) (hg : s.stage = .raw) : fetch P s = .run .qraw s := by
  simp only [fetch, hp, hg]

/-- After QSTART has read a nonzero marker (R180, R186). -/
theorem fetch_qhdr (hp : s.phase = .qstart) (hg : s.stage = .coded) : fetch P s = .run .qhdr s := by
  simp only [fetch, hp, hg]

theorem fetch_firstlit (hp : s.phase = .qfirst) : fetch P s = .run .firstlit s := by
  simp only [fetch, hp]

/-- At the head of the body with the quantum full (R192). -/
theorem fetch_qend (hp : s.phase = .qbody) (hg : s.stage = .head) (hend : s.dstQuantumEnd ≤ s.dstCur) :
    fetch P s = .run .qend s := by
  simp only [fetch, hp, hg]
  exact if_neg (BitVec.not_lt.mpr hend)

/-- At the head of the body with room in the quantum, a literal symbol selects the operation (R192, R211). -/
theorem fetch_literal (hp : s.phase = .qbody) (hg : s.stage = .head) (hroom : s.dstCur < s.dstQuantumEnd) :
    fetch P s = fetchSymbol P (.lit (modelIndex s.dstCur)) .litSym s := by
  simp only [fetch, hp, hg]
  exact if_pos hroom

/-- After a length row, an OffsetLow symbol selects the operation (R224). -/
theorem fetch_distance (hp : s.phase = .qbody) (hg : s.stage = .distance) :
    fetch P s = fetchSymbol P (.offLow (modelIndex s.dstCur)) .offSym s := by
  simp only [fetch, hp, hg]

theorem fetch_copy (hp : s.phase = .qbody) (hg : s.stage = .copy) :
    fetch P s = .run (.copy s.copyLength s.matchDist) s := by
  simp only [fetch, hp, hg]

/-- A symbol that decodes, refills and stands for an operation selects it, in the state after the `Renorm` (R210, log 3). -/
theorem fetchSymbol_run {m : ModelId} {f : Format} {sym : Nat} {u : State} {i : Instr}
    (hsym : decodeAndRenorm P m s = .ok (sym, u)) (hop : decode f sym = .ok i) : fetchSymbol P m f s = .run i u := by
  simp only [fetchSymbol, hsym, hop]

/-! ### The step -/

/-- With no host event pending the engine moves (R20, log 7). -/
theorem step_engine (hs : s.hostScript = []) : step s = engineStep Params.default s := by
  simp only [step, stepUnder, takeTurn, hs]

theorem engineStep_run {u : State} {i : Instr} (hf : fetch P s = .run i u) : engineStep P s = execUnder P i u := by
  simp only [engineStep, hf]

/-- With no host event pending a step executes what the fetch selects, in the state the fetch left (R10). -/
theorem step_run {u : State} {i : Instr} (hs : s.hostScript = []) (hf : fetch Params.default s = .run i u) :
    step s = exec i u := by
  rw [step_engine hs, engineStep_run hf, execUnder_default]

end Sys2Proof.Machine

namespace Sys2Proof.Proofs

open Sys2Proof.Machine

/-- Settles O49: clause by clause, `step_run` with the fetch of that phase and stage; in the two symbol clauses the fetch is
that of the decoded symbol. -/
theorem stepRunsSelectedOperation : Obligations.StepRunsSelectedOperation := by
  intro s hs
  refine ⟨?magic, ?qstart, ?qraw, ?qhdr, ?firstlit, ?qend, ?literal, ?distance, ?copy⟩
  case magic => exact fun hp => step_run hs (fetch_magic hp)
  case qstart => exact fun hp hg => step_run hs (fetch_qstart hp hg)
  case qraw => exact fun hp hg => step_run hs (fetch_qraw hp hg)
  case qhdr => exact fun hp hg => step_run hs (fetch_qhdr hp hg)
  case firstlit => exact fun hp => step_run hs (fetch_firstlit hp)
  case qend => exact fun hp hg hend => step_run hs (fetch_qend hp hg hend)
  case literal =>
    intro sym u i hp hg hroom hsym hop
    exact step_run hs ((fetch_literal hp hg hroom).trans (fetchSymbol_run hsym hop))
  case distance =>
    intro sym u i hp hg hsym hop
    exact step_run hs ((fetch_distance hp hg).trans (fetchSymbol_run hsym hop))
  case copy => exact fun hp hg => step_run hs (fetch_copy hp hg)

end Sys2Proof.Proofs
end

section
/-! PROOFS. The update of an adaptive model keeps the invariant of R37 (O41). A decode without a rebuild only counts; a rebuild
makes a table that rises strictly because the running sum of the frequencies and the old table both do. -/

namespace Sys2Proof.Machine

variable {c : ModelClass} {M : AdaptiveModel} {sym : Nat}

/-! ### Counting -/

theorem le_of_mem_modify_add {l : List Nat} {i d a f : Nat} (h : ∀ x ∈ l, a ≤ x) (hf : f ∈ l.modify i (· + d)) : a ≤ f := by
  obtain ⟨j, hj, rfl⟩ := List.mem_iff_getElem.mp hf
  have hl := h _ (List.getElem_mem (by simpa using hj : j < l.length))
  rw [List.getElem_modify]
  split <;> omega

theorem countSymbol_frequencyLength (hM : ModelInv c M) : (countSymbol M sym).frequency.length = c.alphabet := by
  rw [countSymbol, List.length_modify, hM.frequencyLength]

theorem countSymbol_frequencyPositive (hM : ModelInv c M) : ∀ f ∈ (countSymbol M sym).frequency, 1 ≤ f :=
  fun _ hf => le_of_mem_modify_add hM.frequencyPositive hf

/-- The total a decode leaves (R142, R143): 31 more, one count less. -/
theorem countSymbol_frequencyTotal (hM : ModelInv c M) (hsym : sym < c.alphabet) :
    (countSymbol M sym).frequency.sum = c.alphabet + 31 * (1024 - (M.adaptCounter - 1)) := by
  have hlow := hM.counterLow
  have hhigh := hM.counterHigh
  rw [countSymbol_sum M sym (by rw [hM.frequencyLength]; exact hsym), hM.frequencyTotal]
  omega

/-- A decode that does not rebuild keeps the invariant. -/
theorem countSymbol_inv (hM : ModelInv c M) (hsym : sym < c.alphabet) (hcount : 2 ≤ M.adaptCounter) :
    ModelInv c (countSymbol M sym) :=
  { hM with
    frequencyLength := countSymbol_frequencyLength hM
    frequencyPositive := countSymbol_frequencyPositive hM
    counterLow := show 1 ≤ M.adaptCounter - 1 by omega
    counterHigh := (Nat.sub_le _ _).trans hM.counterHigh
    frequencyTotal := countSymbol_frequencyTotal hM hsym }

/-! ### Rebuilding -/

/-- `PROB_TOTAL + 1` is what the frequencies and the bias of every class come to after 1024 decodes (R146). -/
theorem alphabet_add_bias (c : ModelClass) : c.alphabet + 31 * 1024 + Params.bias c = 32769 := by
  cases c <;> rfl

/-- The frequency sum below an upper bound, with the bias of the decoded symbol: what R144 smooths towards. -/
def smoothTarget (c : ModelClass) (M : AdaptiveModel) (sym k : Nat) : Nat :=
  (M.frequency.take k).sum + if sym < k then Params.bias c else 0

theorem rebuiltCdf_bound (hf : M.frequency.length = c.alphabet) (hc : M.cdf.length = c.alphabet + 1) (h0 : M.bound 0 = 0)
    {k : Nat} (hk : k ≤ c.alphabet) :
    (rebuiltCdf Params.default c M sym).getD k 0 = (smoothTarget c M sym k + M.bound k) / 2 := by
  cases k with
  | zero =>
    rw [rebuiltCdf_zero c M sym hc]
    show M.bound 0 = _
    simp [h0, smoothTarget]
  | succ k =>
    rw [rebuiltCdf_getD rfl c M sym k hf hc (by omega)]
    simp [smoothTarget, AdaptiveModel.bound]

/-- Every symbol has a frequency of at least 1 (R37), so the target rises strictly. -/
theorem smoothTarget_succ_gt (hf : M.frequency.length = c.alphabet) (hpos : ∀ f ∈ M.frequency, 1 ≤ f) {k : Nat}
    (hk : k < c.alphabet) : smoothTarget c M sym k < smoothTarget c M sym (k + 1) := by
  have hk' : k < M.frequency.length := by omega
  have h1 : 1 ≤ M.frequency[k] := hpos _ (List.getElem_mem hk')
  simp only [smoothTarget, sum_take_succ _ _ hk']
  split <;> split <;> omega

theorem smoothTarget_alphabet (hf : M.frequency.length = c.alphabet) (hsum : M.frequency.sum = c.alphabet + 31 * 1024)
    (hsym : sym < c.alphabet) : smoothTarget c M sym c.alphabet = 32769 := by
  rw [smoothTarget, List.take_of_length_le hf.le, hsum, if_pos hsym, alphabet_add_bias]

/-- Both the target and the old table rise by at least 1 at every symbol, so their mean does (R149). -/
theorem rebuiltCdf_succ_gt (hf : M.frequency.length = c.alphabet) (hc : M.cdf.length = c.alphabet + 1) (h0 : M.bound 0 = 0)
    (hrise : M.cdf.Pairwise (· < ·)) (hpos : ∀ f ∈ M.frequency, 1 ≤ f) {k : Nat} (hk : k < c.alphabet) :
    (rebuiltCdf Params.default c M sym).getD k 0 < (rebuiltCdf Params.default c M sym).getD (k + 1) 0 := by
  have htarget := smoothTarget_succ_gt (sym := sym) hf hpos hk
  have htable : M.bound k < M.bound (k + 1) := by
    have := List.pairwise_iff_getElem.mp hrise k (k + 1) (by omega) (by omega) (by omega)
    simpa [AdaptiveModel.bound, show k < M.cdf.length by omega, show k + 1 < M.cdf.length by omega] using this
  rw [rebuiltCdf_bound hf hc h0 hk.le, rebuiltCdf_bound hf hc h0 (show k + 1 ≤ c.alphabet from hk)]
  omega

/-- A rebuild after 1024 decodes gives a model that meets the invariant (R144 to R147, R149). -/
theorem rebuildModel_inv (hf : M.frequency.length = c.alphabet) (hc : M.cdf.length = c.alphabet + 1) (h0 : M.bound 0 = 0)
    (hlast : M.bound c.alphabet = 32768) (hrise : M.cdf.Pairwise (· < ·)) (hpos : ∀ f ∈ M.frequency, 1 ≤ f)
    (hsum : M.frequency.sum = c.alphabet + 31 * 1024) (hsym : sym < c.alphabet) :
    ModelInv c (rebuildModel Params.default c M sym) := by
  have hlen := rebuiltCdf_length (P := Params.default) c M sym hf hc
  have hfirst' : (rebuiltCdf Params.default c M sym).getD 0 0 = 0 := (rebuiltCdf_zero c M sym hc).trans h0
  have hlast' : (rebuiltCdf Params.default c M sym).getD c.alphabet 0 = 32768 := by
    rw [rebuiltCdf_bound hf hc h0 le_rfl, smoothTarget_alphabet hf hsum hsym, hlast]
  have hones : (rebuildModel Params.default c M sym).frequency = List.replicate c.alphabet 1 := by
    simp [rebuildModel, biasedFrequency, hf, List.map_const']
  exact
    { frequencyLength := by simp [hones]
      cdfLength := hlen
      lookupLength := by simp [rebuildModel, fillLookup, Params.default, Params.lookupMargin]
      cdfFirst := hfirst'
      cdfLast := hlast'
      cdfRising := by
        refine List.isChain_iff_pairwise.mp (List.isChain_iff_getElem.mpr fun k hk => ?_)
        have hk' : k + 1 < (rebuiltCdf Params.default c M sym).length := hk
        have hstep := rebuiltCdf_succ_gt (sym := sym) hf hc h0 hrise hpos (show k < c.alphabet by omega)
        simpa [rebuildModel, hk', show k < (rebuiltCdf Params.default c M sym).length by omega] using hstep
      lookupOwns := fun b hb => (fillLookup_owns hlen hlast' hfirst' b hb).2
      frequencyPositive := by simp [hones]
      counterLow := by simp [rebuildModel, Params.adaptInterval]
      counterHigh := by simp [rebuildModel, Params.adaptInterval]
      frequencyTotal := by
        rw [hones]
        simp [rebuildModel, Params.adaptInterval] }

/-- Step 6 of R140 keeps the invariant: it counts, and rebuilds when the counter runs out (R293). -/
theorem updateModel_inv (hM : ModelInv c M) (hsym : sym < c.alphabet) : ModelInv c (updateModel Params.default c M sym) := by
  have hlow := hM.counterLow
  unfold updateModel
  split
  · rename_i hzero
    have hsum := countSymbol_frequencyTotal hM hsym
    rw [hzero] at hsum
    exact rebuildModel_inv (countSymbol_frequencyLength hM) hM.cdfLength hM.cdfFirst hM.cdfLast hM.cdfRising
      (countSymbol_frequencyPositive hM) hsum hsym
  · exact countSymbol_inv hM hsym (by omega)

end Sys2Proof.Machine

namespace Sys2Proof.Proofs

open Sys2Proof.Machine

/-- Settles O41: a decode either only counts (`countSymbol_inv`) or rebuilds (`rebuildModel_inv`). -/
theorem updateKeepsModelInvariant : Obligations.UpdateKeepsModelInvariant :=
  fun _ _ _ hM hsym => updateModel_inv hM hsym

end Sys2Proof.Proofs
end

section
/-! PROOFS. The host's side of a step (R20 to R24): what STATUS says (O1), the accesses of CTRL (O2) and of the size registers (O3),
and the block right after reset (O6, O50). -/

namespace Sys2Proof.Machine

variable {s t : State} {rest : List HostEvent}

/-! ### The step of a host event -/

/-- A pending host event is taken from the script and happens (R20, log 7). -/
theorem step_host {e : HostEvent} (hs : s.hostScript = e :: rest) :
    step s = hostTurn Params.default e { s with hostScript := rest } := by
  simp only [step, stepUnder, takeTurn, hs]

theorem step_writeReg {r : HostReg} {v : Word} (hs : s.hostScript = .writeReg r v :: rest) :
    step s = hostWriteReg Params.default r v { s with hostScript := rest } := step_host hs

theorem step_readReg {r : HostReg} (hs : s.hostScript = .readReg r :: rest) :
    step s = hostReadReg r { s with hostScript := rest } := step_host hs

/-- Two steps one after the other. -/
theorem run_two {u : State} (hst : step s = .next t) (htu : step t = .next u) : Host.Core.run core 2 s = .next u := by
  have hst' : core.step s = .next t := hst
  have htu' : core.step t = .next u := htu
  simp only [Host.Core.run, hst', htu']

/-! ### STATUS -/

theorem busy_iff (s : State) : busy s = true ↔ s.phase ≠ .idle ∧ s.phase ≠ .doneOk ∧ s.phase ≠ .doneFail := by
  cases hp : s.phase <;> simp [busy, hp]

theorem statusWord_busy (h : busy s = true) : statusWord s = 1#32 := by
  cases hp : s.phase <;> simp [busy, statusWord, hp] at h ⊢

theorem statusWord_congr (h : t.phase = s.phase) : statusWord t = statusWord s := by
  simp only [statusWord, h]

/-! ### The host's writes of registers -/

variable {P : Parameters}

theorem hostWriteReg_busy (r : HostReg) (v : Word) (h : busy s = true) :
    hostWriteReg P r v s = .refused .hostAccessWhileBusy := by
  simp only [hostWriteReg, h, if_true]

theorem hostWriteReg_compSize (v : Word) (h : busy s = false) :
    hostWriteReg P .compSize v s = .next { s with compSize := v } := by
  simp [hostWriteReg, h]

theorem hostWriteReg_decompSize (v : Word) (h : busy s = false) :
    hostWriteReg P .decompSize v s = .next { s with decompSize := v } := by
  simp [hostWriteReg, h]

/-- A 1 in CTRL.START runs START (R23). -/
theorem hostWriteReg_ctrl_one (h : busy s = false) : hostWriteReg P .ctrl 1#32 s = execUnder P .start s := by
  simp [hostWriteReg, h, decode]

/-- A 0 in CTRL does nothing (R23). -/
theorem hostWriteReg_ctrl_zero (h : busy s = false) : hostWriteReg P .ctrl 0#32 s = .next s := by
  simp [hostWriteReg, h, decode]

/-- Any other word sets a reserved bit of CTRL (R23). -/
theorem hostWriteReg_ctrl_reserved {v : Word} (h : busy s = false) (hv : 2 ≤ v.toNat) :
    hostWriteReg P .ctrl v s = .refused .reservedCtrlBit := by
  have h0 : v.toNat ≠ 0 := by omega
  have h1 : v.toNat ≠ 1 := by omega
  simp [hostWriteReg, h, decode, h0, h1]

theorem hostWriteReg_status (v : Word) (h : busy s = false) : hostWriteReg P .status v s = .refused .statusReadOnly := by
  simp [hostWriteReg, h]

/-! ### The host's reads of the size registers -/

theorem hostReadReg_compSize (h : busy s = false) :
    hostReadReg .compSize s = .next { s with hostData := s.compSize } := by
  simp [hostReadReg, h]

theorem hostReadReg_decompSize (h : busy s = false) :
    hostReadReg .decompSize s = .next { s with hostData := s.decompSize } := by
  simp [hostReadReg, h]

/-! ### The engine at rest -/

theorem fetch_quiet (h : busy s = false) : fetch P s = .quiet := by
  cases hp : s.phase <;> simp [busy, fetch, hp] at h ⊢

/-- In IDLE, DONE_OK and DONE_FAIL the engine does nothing (R264, log 8). -/
theorem engineStep_quiet (h : busy s = false) : engineStep P s = .next s := by
  simp only [engineStep, fetch_quiet h]

end Sys2Proof.Machine

namespace Sys2Proof.Proofs

open Sys2Proof.Machine

/-- Settles O1, by the phases; the host's read is one event that `hostReadReg` answers in every state. -/
theorem statusEncodesPhase : Obligations.StatusEncodesPhase := by
  intro s
  refine ⟨fun h => ?_, fun h => ?_, fun h => ?_, statusWord_busy, busy_iff s, fun u hu => statusWord_congr hu,
    fun rest hs => step_host hs⟩
  all_goals simp only [statusWord, h]

/-- Settles O2: one case of `hostWriteReg` for each kind of word. -/
theorem ctrlWriteStarts : Obligations.CtrlWriteStarts := by
  intro s rest
  refine ⟨fun v hs => ?write, fun hs => step_readReg hs⟩
  rw [step_writeReg hs]
  refine ⟨?busy, ?one, ?zero, ?reserved⟩
  case busy => exact fun h => hostWriteReg_busy _ _ h
  case one =>
    rintro h rfl
    rw [← execUnder_default]
    exact hostWriteReg_ctrl_one h
  case zero =>
    rintro h rfl
    exact hostWriteReg_ctrl_zero h
  case reserved => exact fun h hv => hostWriteReg_ctrl_reserved h hv

/-- Settles O3: the write is the first step, the read the second. -/
theorem sizeRegistersReadBack : Obligations.SizeRegistersReadBack := by
  intro s v rest h
  refine ⟨fun hs => ?comp, fun hs => ?decomp⟩
  case comp =>
    exact run_two ((step_writeReg hs).trans (hostWriteReg_compSize v h)) ((step_readReg rfl).trans (hostReadReg_compSize h))
  case decomp =>
    exact run_two ((step_writeReg hs).trans (hostWriteReg_decompSize v h))
      ((step_readReg rfl).trans (hostReadReg_decompSize h))

/-- Settles O6: the phase and the cause are those of `State.reset`, and an idle engine repeats its state. -/
theorem resetLeavesIdle : Obligations.ResetLeavesIdle :=
  ⟨rfl, rfl, rfl, (step_engine rfl).trans (engineStep_quiet rfl)⟩

/-- Settles O50: both spaces are empty and no decode runs. -/
theorem resetMeetsInvariant : Obligations.ResetMeetsInvariant where
  inCanonical := reset_memories_wf.1
  outCanonical := reset_memories_wf.2
  decoding := fun h => absurd h (by decide)

end Sys2Proof.Proofs
end

section
/-! PROOFS. The distance cache by ranks (R38 to R41): what MTF_UPDATE and MISS_INSERT do to the slot, and to the distance, of each
rank. -/

namespace Sys2Proof.Machine

variable {mask : BitVec 24} {k r : Nat}

/-! ### The bits of the mask -/

/-- A slot is three bits of the mask. -/
theorem rankSlot_eq {mask' : BitVec 24} {r' : Nat}
    (h : ∀ i, i < 3 → mask.getLsbD (3 * r + i) = mask'.getLsbD (3 * r' + i)) : rankSlot mask r = rankSlot mask' r' := by
  refine Fin.ext (Nat.eq_of_testBit_eq fun i => ?_)
  simp only [rankSlot, show (8 : Nat) = 2 ^ 3 from rfl, Nat.testBit_mod_two_pow, BitVec.toNat_ushiftRight, Nat.testBit_shiftRight]
  by_cases hi : i < 3
  · exact congrArg (decide (i < 3) && ·) (h i hi)
  · simp [hi]

theorem getLsbD_lowBits {n j : Nat} (hn : n ≤ 24) : ((1#24 <<< n) - 1#24).getLsbD j = decide (j < n) := by
  have hlow : ((1#24 <<< n) - 1#24).toNat = 2 ^ n - 1 := by
    rcases Nat.eq_or_lt_of_le hn with rfl | hlt
    · rfl
    · have hpow : 2 ^ n < 2 ^ 24 := Nat.pow_lt_pow_right (by omega) hlt
      have hpos : 0 < 2 ^ n := Nat.two_pow_pos n
      simp only [BitVec.toNat_sub, BitVec.toNat_shiftLeft, BitVec.toNat_ofNat, Nat.shiftLeft_eq]
      omega
  rw [BitVec.getLsbD, hlow, Nat.testBit_two_pow_sub_one]

/-- MTF_UPDATE bit by bit (R226): the slot of rank `k` comes in at the low end, what was below it moves up by one slot. -/
theorem getLsbD_mtfUpdate {j : Nat} (hk : k < 8) (hj : j < 24) :
    (mtfUpdate mask k).getLsbD j =
      if j < 3 then mask.getLsbD (3 * k + j) else if j < 3 * (k + 1) then mask.getLsbD (j - 3) else mask.getLsbD j := by
  have hseven : (7#24).getLsbD j = decide (j < 3) := getLsbD_lowBits (n := 3) (by omega)
  simp only [mtfUpdate, BitVec.getLsbD_or, BitVec.getLsbD_and, BitVec.getLsbD_not, BitVec.getLsbD_shiftLeft,
    BitVec.getLsbD_ushiftRight, getLsbD_lowBits (show 3 * (k + 1) ≤ 24 by omega),
    getLsbD_lowBits (show 3 * k ≤ 24 by omega), hseven, hj]
  by_cases hslot : j < 3
  · simp [hslot, show j < 3 * (k + 1) by omega]
  · by_cases hbelow : j < 3 * (k + 1)
    · simp [hslot, hbelow, show j - 3 < 3 * k by omega]
    · simp [hslot, hbelow, show ¬ j - 3 < 3 * k by omega]

/-! ### Ranks under MTF_UPDATE -/

/-- The rank from which MTF_UPDATE of rank `k` brings what has rank `r` afterwards (R225, R226). -/
def rankBefore (k r : Nat) : Nat := if r = 0 then k else if r ≤ k then r - 1 else r

theorem rankBefore_lt (hk : k < 8) (hr : r < 8) : rankBefore k r < 8 := by
  unfold rankBefore
  split
  · exact hk
  · split <;> omega

theorem rankBefore_inj {r' : Nat} (h : rankBefore k r = rankBefore k r') : r = r' := by
  unfold rankBefore at h
  split_ifs at h <;> omega

theorem rankSlot_mtfUpdate (hk : k < 8) (hr : r < 8) : rankSlot (mtfUpdate mask k) r = rankSlot mask (rankBefore k r) := by
  refine rankSlot_eq fun i hi => ?_
  rw [getLsbD_mtfUpdate hk (by omega)]
  unfold rankBefore
  by_cases hzero : r = 0
  · simp [hzero, hi]
  · by_cases hbelow : r ≤ k
    · rw [if_neg (by omega), if_pos (by omega), if_neg hzero, if_pos hbelow]
      congr 1
      omega
    · rw [if_neg (by omega), if_neg (by omega), if_neg hzero, if_neg hbelow]

/-- A mask is a permutation when different ranks have different slots (R39). -/
theorem maskIsPermutation_iff :
    maskIsPermutation mask ↔ ∀ r, r < 8 → ∀ r', r' < 8 → rankSlot mask r = rankSlot mask r' → r = r' := by
  simp only [maskIsPermutation, rankOrder, List.nodup_map_iff_inj_on List.nodup_range, List.mem_range]

/-- MTF_UPDATE keeps the mask a permutation (R227). -/
theorem mtfUpdate_permutes (hk : k < 8) (h : maskIsPermutation mask) : maskIsPermutation (mtfUpdate mask k) := by
  rw [maskIsPermutation_iff] at h ⊢
  intro r hr r' hr' heq
  rw [rankSlot_mtfUpdate hk hr, rankSlot_mtfUpdate hk hr'] at heq
  exact rankBefore_inj (h _ (rankBefore_lt hk hr) _ (rankBefore_lt hk hr') heq)

theorem distMaskInit_permutes : maskIsPermutation Params.distMaskInit := by
  unfold maskIsPermutation
  decide

/-! ### Distances by rank -/

theorem cachedDistance_setDistMask (s : State) (hk : k < 8) (hr : r < 8) :
    cachedDistance (setDistMask (mtfUpdate s.distMask k) s) r = cachedDistance s (rankBefore k r) := by
  simp only [cachedDistance, setDistMask_distMask, setDistMask_recent, rankSlot_mtfUpdate hk hr]

/-- MISS_INSERT by ranks (R232, R41): the new distance has rank 6, what had rank 6 has rank 7. -/
theorem cachedDistance_missInsert (s : State) (d : Word) (h : maskIsPermutation s.distMask) (hr : r < 8) :
    cachedDistance (setRecent (missInsert s.distMask s.recent d) s) r =
      if r = 6 then d else if r = 7 then cachedDistance s 6 else cachedDistance s r := by
  have hslot : ∀ j, j < 8 → ((rankSlot s.distMask j).val = (rankSlot s.distMask r).val ↔ j = r) := fun j hj =>
    ⟨fun e => maskIsPermutation_iff.mp h j hj r hr (Fin.ext e), fun e => by rw [e]⟩
  simp only [cachedDistance, setRecent_distMask, setRecent_recent, missInsert, Vector.getElem_set, hslot 6 (by omega),
    hslot 7 (by omega), eq_comm (b := r)]

/-- What MISS_INSERT leaves in the slots was there before or is the new distance. -/
theorem mem_missInsert {recent : Vector Word 8} {d e : Word} (h : e ∈ (missInsert mask recent d).toList) :
    e ∈ recent.toList ∨ e = d := by
  simp only [missInsert, Vector.mem_toList_iff] at h ⊢
  rcases Vector.mem_or_eq_of_mem_set h with h | rfl
  · rcases Vector.mem_or_eq_of_mem_set h with h | rfl
    · exact .inl h
    · exact .inl (Vector.getElem_mem _)
  · exact .inr rfl

end Sys2Proof.Machine
end

section
/-! PROOFS. The arithmetic of one decode: the search of DecodeSym on a table that meets R37 (R140, R148), the range of the coder
state it leaves (R141), the operation a symbol of the alphabet selects (R87, R88, R95), and the range of a new distance (R231). -/

namespace Sys2Proof.Machine

variable {c : ModelClass} {M : AdaptiveModel} {r sym : Nat}

/-! ### The search -/

theorem bound_le (hM : ModelInv c M) {i j : Nat} (hij : i ≤ j) (hj : j ≤ c.alphabet) : M.bound i ≤ M.bound j := by
  rcases Nat.eq_or_lt_of_le hij with rfl | hlt
  · exact le_rfl
  · exact (bound_lt hM hlt hj).le

/-- An entry past the table reads 0 (log 38), so an entry above something is in the table. -/
theorem lt_cdfLength_of_lt_bound {i : Nat} (h : r < M.bound i) : i < M.cdf.length := by
  by_contra hge
  have hzero : M.bound i = 0 := by
    simp only [AdaptiveModel.bound, List.getD_eq_getElem?_getD, List.getElem?_eq_none (not_lt.mp hge), Option.getD_none]
  omega

theorem shiftRight_lookupShift_lt (h : r < 32768) : r >>> Params.lookupShift c < Params.lookupSize c := by
  cases c <;> simp only [Params.lookupShift, Params.lookupSize, Params.probTotal, Nat.shiftRight_eq_div_pow] <;> omega

/-- The guess of the lookup table is a symbol that starts at or below the residue, so it is not above the residue's symbol. -/
theorem guess_le (hM : ModelInv c M) (hr : r < 32768) (habove : r < M.bound (sym + 1)) :
    M.lookup.getD (r >>> Params.lookupShift c) 0 ≤ sym := by
  obtain ⟨hlow, hhigh⟩ := hM.lookupOwns _ (shiftRight_lookupShift_lt (c := c) hr)
  have hlen := lt_cdfLength_of_lt_bound hhigh
  rw [hM.cdfLength] at hlen
  have hblock : r >>> Params.lookupShift c <<< Params.lookupShift c ≤ r := by
    rw [Nat.shiftRight_eq_div_pow, Nat.shiftLeft_eq]
    exact Nat.div_mul_le_self _ _
  by_contra hgt
  have := bound_le hM (show sym + 1 ≤ M.lookup.getD (r >>> Params.lookupShift c) 0 by omega) (by omega)
  omega

/-- The symbol from which the search goes upward (R140 steps 2 and 3). -/
def searchStart (c : ModelClass) (M : AdaptiveModel) (r : Nat) : Nat :=
  if M.bound (M.lookup.getD (r >>> Params.lookupShift c) 0 + 1) < r then M.lookup.getD (r >>> Params.lookupShift c) 0 + 1
  else M.lookup.getD (r >>> Params.lookupShift c) 0

theorem searchSymbol_eq (c : ModelClass) (M : AdaptiveModel) (r : Nat) :
    searchSymbol c M r = symFrom (M.cdf.drop (searchStart c M r + 1)) r (searchStart c M r) := rfl

/-- Also one step up the search has not passed the residue's symbol. -/
theorem searchStart_le (hM : ModelInv c M) (hr : r < 32768) (habove : r < M.bound (sym + 1)) :
    searchStart c M r ≤ sym := by
  have hguess := guess_le hM hr habove
  unfold searchStart
  split
  · rename_i hup
    have hne : M.lookup.getD (r >>> Params.lookupShift c) 0 ≠ sym := by
      intro heq
      rw [heq] at hup
      omega
    omega
  · exact hguess

/-- On a table that meets R37 the search ends at the symbol whose interval holds the residue (R140, R148). -/
theorem searchSymbol_inv (hM : ModelInv c M) (hr : r < 32768) :
    ∃ sym, searchSymbol c M r = some sym ∧ sym < c.alphabet ∧ M.bound sym ≤ r ∧ r < M.bound (sym + 1) := by
  obtain ⟨sym, -, hsym, hlow, hhigh⟩ := symOf_exists hM.cdfLength hM.cdfLast hM.cdfFirst hr
  refine ⟨sym, ?_, hsym, hlow, hhigh⟩
  have hstart := searchStart_le hM hr hhigh
  rw [searchSymbol_eq]
  generalize searchStart c M r = start at hstart
  have hdrop : ∀ j, (M.cdf.drop (start + 1)).getD j 0 = M.bound (start + 1 + j) := fun j => by
    simp [AdaptiveModel.bound, List.getD_eq_getElem?_getD]
  have hfound := symFrom_eq (cs := M.cdf.drop (start + 1)) (r := r) (t := start) (k := sym - start)
    (by rw [List.length_drop, hM.cdfLength]; omega)
    (by rw [hdrop, show start + 1 + (sym - start) = sym + 1 by omega]; exact hhigh)
    (fun j hj => by
      rw [hdrop]
      exact (bound_le hM (show start + 1 + j ≤ sym by omega) hsym.le).trans hlow)
  rwa [show start + (sym - start) = sym by omega] at hfound

/-! ### The coder state after a decode -/

/-- Step 5 of R140 stays inside 32 bits and at or above 2 (R141). -/
theorem nextCoderState_range {x : Nat} (hM : ModelInv c M) (hx : 0x10000 ≤ x) (hx32 : x < 2 ^ 32) (hsym : sym < c.alphabet)
    (hlow : M.bound sym ≤ x % 32768) (hhigh : x % 32768 < M.bound (sym + 1)) :
    2 ≤ nextCoderState x M.cdf sym ∧ nextCoderState x M.cdf sym < 2 ^ 32 := by
  have htop : M.bound (sym + 1) ≤ 32768 := hM.cdfLast ▸ bound_le hM (show sym + 1 ≤ c.alphabet from hsym) le_rfl
  obtain ⟨f, hf⟩ := Nat.exists_eq_add_of_lt (hlow.trans_lt hhigh)
  have hstate : nextCoderState x M.cdf sym = x / 32768 * (f + 1) + (x % 32768 - M.bound sym) := by
    have hwidth : M.cdf.getD (sym + 1) 0 - M.cdf.getD sym 0 = f + 1 := by
      show M.bound (sym + 1) - M.bound sym = f + 1
      omega
    rw [nextCoderState, hwidth]
    rfl
  have hquotient : 2 ≤ x / 32768 := by omega
  rw [hstate]
  constructor
  · nlinarith
  · calc x / 32768 * (f + 1) + (x % 32768 - M.bound sym) < x / 32768 * (f + 1) + (f + 1) := by omega
      _ = (x / 32768 + 1) * (f + 1) := by ring
      _ ≤ 2 ^ 17 * 2 ^ 15 := Nat.mul_le_mul (by omega) (by omega)

/-! ### The operations the symbols of the alphabets select -/

theorem decode_litSym (h : sym < 300) :
    (∃ delta, decode .litSym sym = .ok (.lit delta)) ∨ (∃ code, decode .litSym sym = .ok (.matchs code)) ∨
      ∃ code : BitVec 4, code.toNat ≤ 11 ∧ decode .litSym sym = .ok (.matchx code) := by
  by_cases hlit : sym < 256
  · exact .inl ⟨BitVec.ofNat 8 sym, by simp only [decode, hlit, if_true]⟩
  · by_cases hshort : sym < 288
    · exact .inr (.inl ⟨BitVec.ofNat 5 (sym - 256), by simp only [decode, hlit, hshort, if_true, if_false]⟩)
    · refine .inr (.inr ⟨BitVec.ofNat 4 (sym - 288), ?_, by simp only [decode, hlit, hshort, h, if_true, if_false]⟩)
      rw [BitVec.toNat_ofNat]
      omega

theorem decode_offSym (h : sym < 40) :
    (∃ rank, decode .offSym sym = .ok (.dcache rank)) ∨ (∃ code, decode .offSym sym = .ok (.dnewLow code)) ∨
      (∃ code, decode .offSym sym = .ok (.dnewMid code)) ∨ ∃ code, decode .offSym sym = .ok (.dnewHigh code) := by
  by_cases hcache : sym < 8
  · exact .inl ⟨BitVec.ofNat 3 sym, by simp only [decode, hcache, if_true]⟩
  · by_cases hlow : sym < 16
    · exact .inr (.inl ⟨BitVec.ofNat 3 (sym - 8), by simp only [decode, hcache, hlow, if_true, if_false]⟩)
    · by_cases hmid : sym < 32
      · exact .inr (.inr (.inl ⟨BitVec.ofNat 4 (sym - 16), by simp only [decode, hcache, hlow, hmid, if_true, if_false]⟩))
      · exact .inr (.inr (.inr ⟨BitVec.ofNat 3 (sym - 32), by simp only [decode, hcache, hlow, hmid, h, if_true, if_false]⟩))

/-! ### Lengths and distances -/

theorem shortLength_range (code : BitVec 5) :
    2 ≤ shortLength (256 + code.toNat) ∧ shortLength (256 + code.toNat) ≤ 33 := by
  have := code.isLt
  unfold shortLength
  constructor <;> omega

/-- MATCHX gives 34 to 8223 (R91). -/
theorem extendedLength_range {nb extra : Nat} (hnb : 1 ≤ nb) (hnb' : nb ≤ 12) (hextra : extra < 2 ^ nb) :
    34 ≤ extendedLength nb extra ∧ extendedLength nb extra ≤ 8223 := by
  have hlow : 2 ≤ 2 ^ nb := Nat.le_pow hnb
  have hhigh : 2 ^ nb ≤ 4096 := Nat.pow_le_pow_right (n := 2) (j := 12) (by omega) hnb'
  unfold extendedLength
  rw [Nat.shiftLeft_eq]
  constructor <;> omega

/-- A new distance is 1 to 67108832 (R231). -/
theorem newDistance_range {nb bits osym : Nat} (hnb : nb ≤ 20) (hbits : bits < 2 ^ nb) (hlow : 8 ≤ osym) (hhigh : osym ≤ 39) :
    1 ≤ newDistance nb bits osym ∧ newDistance nb bits osym ≤ 67108832 := by
  have hpow : 2 ^ nb ≤ 2 ^ 20 := Nat.pow_le_pow_right (by omega) hnb
  have hpos : 0 < 2 ^ nb := Nat.two_pow_pos nb
  simp only [newDistance, Nat.shiftLeft_eq]
  omega

/-- Raw bits above a direct unit (R230, log 21). -/
theorem longBitsCombine_lt {bits k : Nat} (w : StreamUnit) (h : bits < 2 ^ k) :
    Params.longBitsCombine bits w.toNat < 2 ^ (k + 16) := by
  have hw := w.isLt
  rw [Params.longBitsCombine, ← Nat.shiftLeft_add_eq_or_of_lt hw, Nat.shiftLeft_eq, Nat.pow_add]
  omega

/-! ### The header's states (R186 to R188) -/

/-- A register shifted right keeps a set bit while it is large enough. -/
theorem toNat_ushiftRight_pos {x : Word} {n : Nat} (h : 2 ^ n ≤ x.toNat) : 1 ≤ (x >>> n).toNat := by
  rw [BitVec.toNat_ushiftRight, Nat.shiftRight_eq_div_pow]
  exact Nat.div_pos h (Nat.two_pow_pos n)

/-- `state2` has its bit `n + 16` set, so it is a ready coder state (R188). -/
theorem headerState2_ready {n : Nat} (hn : n < 16) (a : Word) : 0x10000 ≤ (headerState2 n a).toNat := by
  have hbit : (1#32 <<< (n + 16)).toNat = 2 ^ (n + 16) := by
    have : 2 ^ (n + 16) < 2 ^ 32 := Nat.pow_lt_pow_right (by omega) (by omega)
    simp only [BitVec.toNat_shiftLeft, BitVec.toNat_ofNat, Nat.shiftLeft_eq]
    omega
  have hlow : 2 ^ 16 ≤ 2 ^ (n + 16) := Nat.pow_le_pow_right (by omega) (by omega)
  rw [headerState2, BitVec.toNat_or, hbit]
  exact hlow.trans Nat.left_le_or

end Sys2Proof.Machine
end

section
/-! PROOFS. The invariant through the operations that the meanings share. `Grounded` is the invariant of a running decode without
what its phase demands; `Answers` says what an operation answers on a grounded state: it never faults, a failure ends the decode, and
an answer has the given property. -/

namespace Sys2Proof.Machine

variable {P : Parameters} {s t u : State}

/-! ### Grounded states -/

/-- A running decode in any phase: both spaces canonical, and `DecodeInv` without `inPhase`. -/
structure Grounded (s : State) : Prop where
  inCanonical : Memory.wf s.inMem
  outCanonical : Memory.wf s.outMem
  compSizeLow : 2 ≤ s.compSize.toNat
  decompSizeLow : 1 ≤ s.decompSize.toNat
  srcEndIsSize : s.srcEnd = s.compSize
  srcInside : s.srcCur ≤ s.srcEnd
  dstStartZero : s.dstStart = 0#32
  dstEndIsSize : s.dstEnd = s.decompSize
  dstInside : s.dstCur ≤ s.dstEnd
  models : ∀ m : ModelId, ModelInv m.cls (s.model m)
  maskPermutes : maskIsPermutation s.distMask
  recentRange : ∀ d ∈ s.recent.toList, 1 ≤ d.toNat ∧ d.toNat ≤ 67108832
  lastCopyLow : 1 ≤ s.lastCopyOffset.toNat
  lastCopyHigh : s.lastCopyOffset.toNat ≤ max 1 s.dstCur.toNat

/-- The machine's invariant while a decode runs is `Grounded` with the demand of the phase. -/
theorem inv_iff_grounded (hb : busy s = true) : Inv s ↔ Grounded s ∧ phaseInv s :=
  ⟨fun h => ⟨{ h, h.decoding hb with }, (h.decoding hb).inPhase⟩, fun ⟨h, hp⟩ =>
    { h with decoding := fun _ => { h with inPhase := hp } }⟩

theorem Grounded.inv (h : Grounded s) (hp : phaseInv s) : Inv s :=
  { h with decoding := fun _ => { h with inPhase := hp } }

theorem Grounded.srcEnd_le (h : Grounded s) : s.srcEnd.toNat ≤ s.compSize.toNat := by rw [h.srcEndIsSize]

theorem Grounded.dstEnd_eq (h : Grounded s) : s.dstEnd.toNat = s.decompSize.toNat := by rw [h.dstEndIsSize]

/-! ### What keeps a state grounded -/

theorem Grounded.gotoPhase (h : Grounded s) (p : Phase) : Grounded (gotoPhase p s) := { h with }

theorem Grounded.gotoStage (h : Grounded s) (st : Stage) : Grounded (gotoStage st s) := { h with }

theorem Grounded.setState1 (h : Grounded s) (v : Word) : Grounded (setState1 v s) := { h with }

theorem Grounded.setStates (h : Grounded s) (v1 v2 : Word) : Grounded (setStates v1 v2 s) := { h with }

theorem Grounded.swapStates (h : Grounded s) : Grounded (swapStates s) := { h with }

theorem Grounded.setFirstLiteral (h : Grounded s) (b : Bool) : Grounded (setFirstLiteral b s) := { h with }

theorem Grounded.setQuantumEnd (h : Grounded s) (v : Word) : Grounded (setQuantumEnd v s) := { h with }

theorem Grounded.lengthDecoded (h : Grounded s) (len : Nat) : Grounded (lengthDecoded len s) := { h with }

theorem Grounded.distanceDecoded (h : Grounded s) (d : Word) : Grounded (distanceDecoded d s) := { h with }

theorem Grounded.setSrcCur (h : Grounded s) {v : Word} (hv : v ≤ s.srcEnd) : Grounded (setSrcCur v s) :=
  { h with srcInside := hv }

theorem Grounded.setOut (h : Grounded s) {m : Memory} (hm : Memory.wf m) : Grounded (setOut m s) :=
  { h with outCanonical := hm }

theorem Grounded.setDistMask (h : Grounded s) {mask : BitVec 24} (hmask : maskIsPermutation mask) :
    Grounded (setDistMask mask s) :=
  { h with maskPermutes := hmask }

theorem Grounded.setRecent (h : Grounded s) {r : Vector Word 8} (hr : ∀ d ∈ r.toList, 1 ≤ d.toNat ∧ d.toNat ≤ 67108832) :
    Grounded (setRecent r s) :=
  { h with recentRange := hr }

theorem Grounded.setLastCopy (h : Grounded s) {d : Word} (hlow : 1 ≤ d.toNat) (hhigh : d ≤ s.dstCur) :
    Grounded (setLastCopy d s) :=
  { h with lastCopyLow := hlow, lastCopyHigh := le_max_of_le_right hhigh }

theorem Grounded.advanceSrc (h : Grounded s) {n : Nat} (hn : n ≤ inputLeft s) : Grounded (advanceSrc n s) :=
  { h with
    srcInside := by
      have hin := h.srcInside
      rw [BitVec.le_def] at hin ⊢
      rw [srcCur_advanceSrc hn, advanceSrc_srcEnd]
      rw [inputLeft] at hn
      omega }

/-- The cursor after output, while output is left (R30: it cannot wrap). -/
theorem dstCur_advanceDst {n : Nat} (hn : n ≤ outputLeft s) : (advanceDst n s).dstCur.toNat = s.dstCur.toNat + n := by
  rw [outputLeft] at hn
  have h1 := s.dstEnd.isLt
  have h2 := s.dstCur.isLt
  simp only [advanceDst_dstCur, BitVec.toNat_add, BitVec.toNat_ofNat]
  omega

theorem Grounded.advanceDst (h : Grounded s) {n : Nat} (hn : n ≤ outputLeft s) : Grounded (advanceDst n s) :=
  { h with
    dstInside := by
      have hin := h.dstInside
      rw [BitVec.le_def] at hin ⊢
      rw [dstCur_advanceDst hn, advanceDst_dstEnd]
      rw [outputLeft] at hn
      omega
    lastCopyHigh := by
      rw [dstCur_advanceDst hn]
      exact h.lastCopyHigh.trans (max_le_max le_rfl (Nat.le_add_right _ _)) }

theorem Grounded.setModel (h : Grounded s) {m : ModelId} {M : AdaptiveModel} (hM : ModelInv m.cls M) :
    Grounded (s.setModel m M) := by
  have hmodels : ∀ k : ModelId, ModelInv k.cls ((s.setModel m M).model k) := by
    intro k
    rw [setModel_model]
    split
    · rename_i hk
      exact hk ▸ hM
    · exact h.models k
  cases m <;> exact { h with models := hmodels }

/-! ### Answers -/

/-- A decode that has failed (R256), both spaces in canonical form. -/
structure Failed (s : State) : Prop where
  phase : s.phase = .doneFail
  inCanonical : Memory.wf s.inMem
  outCanonical : Memory.wf s.outMem

/-- An operation answers with property `Q` or fails the decode; it does not fault. -/
def Answers {α : Type} (r : Except Stop α) (Q : α → Prop) : Prop :=
  match r with
  | .ok a => Q a
  | .error (.failed s) => Failed s
  | .error (.fault _) => False

theorem answers_ok {α : Type} {a : α} {Q : α → Prop} (h : Q a) : Answers (.ok a) Q := h

/-- A failure raised on a grounded state ends the decode (R256). -/
theorem Grounded.fails {α : Type} {Q : α → Prop} (h : Grounded s) (c : FailCause) :
    Answers (.error (.failed (raiseFailure c s))) Q :=
  ⟨rfl, h.inCanonical, memForget_wf h.outCanonical _⟩

theorem Answers.bind {α β : Type} {r : Except Stop α} {f : α → Except Stop β} {Q : α → Prop} {R : β → Prop}
    (hr : Answers r Q) (hf : ∀ a, Q a → Answers (f a) R) : Answers (r >>= f) R := by
  match r, hr with
  | .ok a, ha => exact hf a ha
  | .error (.failed _), hs => exact hs

theorem answers_ite {α : Type} {c : Prop} [Decidable c] {r r' : Except Stop α} {Q : α → Prop} (hr : c → Answers r Q)
    (hr' : ¬ c → Answers r' Q) : Answers (if c then r else r') Q := by
  split
  · exact hr ‹_›
  · exact hr' ‹_›

/-! ### Steps of the coder -/

/-- `t` comes from `s` by reads of input and symbol decodes alone: the input cursor goes on, and nothing changes but it, the coder's
states and the models. -/
structure CoderStep (s t : State) : Prop where
  grounded : Grounded t
  srcForward : s.srcCur ≤ t.srcCur
  frame : t = { s with
    state1 := t.state1, state2 := t.state2, srcCur := t.srcCur, lit := t.lit, offLow := t.offLow, obl := t.obl }

theorem CoderStep.phase (h : CoderStep s t) : t.phase = s.phase := by rw [h.frame]

theorem CoderStep.stage (h : CoderStep s t) : t.stage = s.stage := by rw [h.frame]

theorem CoderStep.dstCur (h : CoderStep s t) : t.dstCur = s.dstCur := by rw [h.frame]

theorem CoderStep.dstEnd (h : CoderStep s t) : t.dstEnd = s.dstEnd := by rw [h.frame]

theorem CoderStep.dstQuantumEnd (h : CoderStep s t) : t.dstQuantumEnd = s.dstQuantumEnd := by rw [h.frame]

theorem CoderStep.copyLength (h : CoderStep s t) : t.copyLength = s.copyLength := by rw [h.frame]

theorem CoderStep.refl (h : Grounded s) : CoderStep s s := ⟨h, BitVec.le_refl _, rfl⟩

theorem CoderStep.trans (hst : CoderStep s t) (htu : CoderStep t u) : CoderStep s u :=
  ⟨htu.grounded, BitVec.le_trans hst.srcForward htu.srcForward, by rw [htu.frame, hst.frame]⟩

theorem coderStep_setState1 (h : Grounded s) (v : Word) : CoderStep s (setState1 v s) :=
  ⟨h.setState1 v, BitVec.le_refl _, rfl⟩

theorem coderStep_setStates (h : Grounded s) (v1 v2 : Word) : CoderStep s (setStates v1 v2 s) :=
  ⟨h.setStates v1 v2, BitVec.le_refl _, rfl⟩

theorem coderStep_swapStates (h : Grounded s) : CoderStep s (swapStates s) :=
  ⟨h.swapStates, BitVec.le_refl _, rfl⟩

theorem coderStep_setModel (h : Grounded s) {m : ModelId} {M : AdaptiveModel} (hM : ModelInv m.cls M) :
    CoderStep s (s.setModel m M) :=
  ⟨h.setModel hM, by rw [setModel_srcCur]; exact BitVec.le_refl _, by cases m <;> rfl⟩

theorem coderStep_advanceSrc (h : Grounded s) {n : Nat} (hn : n ≤ inputLeft s) : CoderStep s (advanceSrc n s) :=
  ⟨h.advanceSrc hn, by rw [BitVec.le_def, srcCur_advanceSrc hn]; exact Nat.le_add_right _ _, rfl⟩

/-! ### Reads of the input -/

theorem peek16_answers (h : Grounded s) : Answers (peek16 P s) fun _ => 2 ≤ inputLeft s := by
  by_cases hl : 2 ≤ inputLeft s
  · rw [peek16_ok hl h.srcEnd_le]
    exact answers_ok hl
  · rw [peek16_short (by omega)]
    exact h.fails _

theorem readUnit_answers (h : Grounded s) :
    Answers (readUnit P s) fun a => CoderStep s a.2 ∧ a.2 = advanceSrc 2 s := by
  by_cases hl : 2 ≤ inputLeft s
  · rw [readUnit_ok hl h.srcEnd_le]
    exact answers_ok ⟨coderStep_advanceSrc h hl, rfl⟩
  · rw [readUnit_short (by omega)]
    exact h.fails _

/-! ### The renormalizer -/

/-- A unit folded into a nonzero register below 0x10000 makes it ready (R27, R163). -/
theorem foldUnit_ready {x : Word} (w : StreamUnit) (h1 : 1 ≤ x.toNat) (h2 : x.toNat < 0x10000) : 0x10000 ≤ (foldUnit x w).toNat := by
  rw [toNat_foldUnit w h2]
  omega

/-- A `Renorm` of a nonzero `state1` makes the coder ready (R27, R163). -/
theorem renormalize_answers (h : Grounded s) (h1 : 1 ≤ s.state1.toNat) (h2 : 0x10000 ≤ s.state2.toNat) :
    Answers (renormalize P s) fun t => CoderStep s t ∧ coderReady t := by
  by_cases hx : 0x10000 ≤ s.state1.toNat
  · rw [renormalize_swap hx]
    exact answers_ok ⟨coderStep_swapStates h, h2, hx⟩
  · by_cases hl : 2 ≤ inputLeft s
    · rw [renormalize_refill (by omega) hl h.srcEnd_le]
      have hread := coderStep_advanceSrc h hl
      have hfold := coderStep_setState1 hread.grounded (foldUnit s.state1 (unitAt s s.srcCur.toNat P))
      exact answers_ok
        ⟨hread.trans (hfold.trans (coderStep_swapStates hfold.grounded)), h2, foldUnit_ready _ h1 (by omega)⟩
    · rw [renormalize_short (by omega) (by omega)]
      exact h.fails _

/-- Up to 16 raw bits of a ready coder leave it ready (R166). -/
theorem rawBits_answers {k : Nat} (h : Grounded s) (hr : coderReady s) (hk : k ≤ 16) :
    Answers (rawBits P k s) fun a => CoderStep s a.2 ∧ coderReady a.2 ∧ a.1 < 2 ^ k := by
  have hshift := coderStep_setState1 h (s.state1 >>> k)
  have hpos : 1 ≤ (s.state1 >>> k).toNat :=
    toNat_ushiftRight_pos ((Nat.pow_le_pow_right (by omega) hk).trans (show 2 ^ 16 ≤ s.state1.toNat from hr.1))
  refine (renormalize_answers hshift.grounded hpos hr.2).bind fun t ⟨hstep, hready⟩ => ?_
  exact answers_ok ⟨hshift.trans hstep, hready, Nat.mod_lt _ (Nat.two_pow_pos k)⟩

/-! ### Symbols -/

/-- A ready coder decodes a symbol of the alphabet (R95, R140, R141). -/
theorem decodeSymbol_answers (m : ModelId) (h : Grounded s) (hr : coderReady s) :
    Answers (decodeSymbol Params.default m s) fun a =>
      a.1 < m.cls.alphabet ∧ CoderStep s a.2 ∧ 2 ≤ a.2.state1.toNat ∧ a.2.state2 = s.state2 := by
  have hM := h.models m
  obtain ⟨sym, hsearch, hsym, hlow, hhigh⟩ := searchSymbol_inv hM (Nat.mod_lt s.state1.toNat (show 32768 > 0 by omega))
  obtain ⟨hstate, hstate32⟩ := nextCoderState_range hM hr.1 s.state1.isLt hsym hlow hhigh
  rw [decodeSymbol_ok hsearch]
  have hcoder := coderStep_setState1 h (BitVec.ofNat 32 (nextCoderState s.state1.toNat (s.model m).cdf sym))
  refine answers_ok ⟨hsym, hcoder.trans (coderStep_setModel hcoder.grounded (updateModel_inv hM hsym)), ?_, by simp⟩
  rw [setModel_state1, setState1_state1, BitVec.toNat_ofNat, Nat.mod_eq_of_lt hstate32]
  exact hstate

theorem decodeAndRenorm_answers (m : ModelId) (h : Grounded s) (hr : coderReady s) :
    Answers (decodeAndRenorm Params.default m s) fun a => a.1 < m.cls.alphabet ∧ CoderStep s a.2 ∧ coderReady a.2 := by
  refine (decodeSymbol_answers m h hr).bind fun ⟨sym, t⟩ ⟨hsym, hdecode, hstate1, hstate2⟩ => ?_
  have hready2 : 0x10000 ≤ t.state2.toNat := hstate2 ▸ hr.2
  refine (renormalize_answers hdecode.grounded (one_le_two.trans hstate1) hready2).bind fun u ⟨hrenorm, hready⟩ => ?_
  exact answers_ok ⟨hsym, hdecode.trans hrenorm, hready⟩

end Sys2Proof.Machine
end

section
/-! PROOFS. What one engine step does under the invariant, operation by operation: it never faults, and it ends in a failed decode or
in a grounded state that meets its phase's demand, both cursors no smaller than before. -/

namespace Sys2Proof.Machine

variable {P : Parameters} {s t u : State}

/-- The step from `s` went on to `t`: the decode runs on, or is done. -/
structure Advanced (s t : State) : Prop where
  grounded : Grounded t
  inPhase : phaseInv t
  srcForward : s.srcCur ≤ t.srcCur
  dstForward : s.dstCur ≤ t.dstCur

/-- A step from `s` that completes. -/
def Runs (s : State) (o : Host.Outcome State Fault Refusal) : Prop := ∃ t, o = .next t ∧ (Failed t ∨ Advanced s t)

theorem Advanced.of_coderStep (hsu : CoderStep s u) (hut : Advanced u t) : Advanced s t :=
  { hut with srcForward := BitVec.le_trans hsu.srcForward hut.srcForward, dstForward := hsu.dstCur ▸ hut.dstForward }

theorem Runs.of_coderStep {o : Host.Outcome State Fault Refusal} (hsu : CoderStep s u) : Runs u o → Runs s o
  | ⟨t, ho, ht⟩ => ⟨t, ho, ht.imp_right (Advanced.of_coderStep hsu)⟩

theorem runs_next (h : Advanced s t) : Runs s (.next t) := ⟨t, rfl, .inr h⟩

theorem Answers.runs {r : Except Stop State} (h : Answers r (Advanced s)) : Runs s (conclude r) := by
  match r, h with
  | .ok t, ht => exact ⟨t, rfl, .inr ht⟩
  | .error (.failed t), ht => exact ⟨t, rfl, .inl ht⟩

theorem dstForward_advanceDst {n : Nat} (hn : n ≤ outputLeft s) : s.dstCur ≤ (advanceDst n s).dstCur := by
  rw [BitVec.le_def, dstCur_advanceDst hn]
  exact Nat.le_add_right _ _

/-! ### The end of a quantum -/

/-- AfterQuantum goes on from any grounded state (R115): QSTART follows exactly when output is left. -/
theorem afterQuantum_answers (h : Grounded u) (hsrc : s.srcCur ≤ u.srcCur) (hdst : s.dstCur ≤ u.dstCur) :
    Answers (afterQuantum Params.default u) (Advanced s) := by
  rw [afterQuantum_default]
  split
  · rename_i hleft
    exact answers_ok ⟨h.gotoPhase _, ⟨hleft, .inl rfl⟩, hsrc, hdst⟩
  · exact answers_ok ⟨h.gotoPhase _, trivial, hsrc, hdst⟩

/-! ### MAGIC, QSTART, QRAW -/

theorem execMagic_runs (h : Grounded s) (hsrc : s.srcCur = 0#32) (hdst : s.dstCur = 0#32) :
    Runs s (execMagic s Params.default) := by
  have hset : Grounded (setSrcCur 0#32 s) := h.setSrcCur (BitVec.le_def.mpr (Nat.zero_le _))
  refine Answers.runs ((readUnit_answers hset).bind fun ⟨unit, t⟩ ⟨hread, _⟩ => ?_)
  have hleft : t.dstCur < t.dstEnd := by
    rw [hread.dstCur, hread.dstEnd, setSrcCur_dstCur, setSrcCur_dstEnd, BitVec.lt_def, hdst, h.dstEnd_eq]
    exact h.decompSizeLow
  refine answers_ite (fun _ => ?_) fun _ => ?_
  · exact answers_ok
      ⟨hread.grounded.gotoPhase _, ⟨hleft, .inl rfl⟩, hsrc ▸ hread.srcForward, hread.dstCur ▸ BitVec.le_refl _⟩
  · exact hread.grounded.fails _

/-- The quantum QSTART fixes: 1 to 65536 bytes, inside the output (R180, R181). -/
theorem nextQuantumEnd_range (hleft : s.dstCur < s.dstEnd) :
    s.dstCur < nextQuantumEnd Params.default s ∧ nextQuantumEnd Params.default s ≤ s.dstEnd ∧
      (nextQuantumEnd Params.default s).toNat ≤ s.dstCur.toNat + 65536 := by
  have hsize : (nextQuantumEnd Params.default s).toNat = s.dstCur.toNat + min 65536 (s.dstEnd.toNat - s.dstCur.toNat) := by
    have hend := s.dstEnd.isLt
    rw [BitVec.lt_def] at hleft
    simp only [nextQuantumEnd, quantumSize, Params.default, Params.quantumBoundary, Params.quantumMax, BitVec.toNat_add,
      BitVec.toNat_ofNat]
    omega
  rw [BitVec.lt_def] at hleft
  rw [BitVec.lt_def, BitVec.le_def, hsize]
  omega

theorem execQstart_runs (h : Grounded s) (hp : s.phase = .qstart) (hleft : s.dstCur < s.dstEnd) :
    Runs s (execQstart s Params.default) := by
  have hset := h.setQuantumEnd (nextQuantumEnd Params.default s)
  obtain ⟨hlow, hinside, hsize⟩ := nextQuantumEnd_range hleft
  refine Answers.runs ((peek16_answers hset).bind fun marker hunit => ?_)
  have hgo : ∀ st, st = Stage.raw ∨ st = Stage.coded →
      Advanced s (gotoStage st (setQuantumEnd (nextQuantumEnd Params.default s) s)) := fun st hst =>
    { grounded := hset.gotoStage st
      inPhase := by
        simp only [phaseInv, gotoStage_phase, setQuantumEnd_phase, hp]
        exact ⟨hleft, .inr ⟨hst, hunit, hlow, hinside, hsize⟩⟩
      srcForward := BitVec.le_refl _
      dstForward := BitVec.le_refl _ }
  exact answers_ite (fun _ => answers_ok (hgo _ (.inl rfl))) fun _ => answers_ok (hgo _ (.inr rfl))

theorem copyRawBlock_answers {n : Nat} (h : Grounded s) (hn : n ≤ outputLeft s) :
    Answers (copyRawBlock Params.default n s) (Advanced s) := by
  refine answers_ite (fun _ => h.fails _) fun hin => ?_
  have hleft : n ≤ inputLeft s := not_lt.mp hin
  have hsrc := h.srcInside
  have hdst := h.dstInside
  rw [BitVec.le_def] at hsrc hdst
  obtain ⟨m, hcopy, -, -, hwf⟩ := copyFromIn_ok n s.srcCur.toNat s.dstCur.toNat s
    (by have := h.srcEnd_le; rw [inputLeft] at hleft; omega) (by have := h.dstEnd_eq; rw [outputLeft] at hn; omega)
  rw [hcopy, bind_ok]
  have hread := coderStep_advanceSrc (h.setOut (hwf h.outCanonical)) hleft
  exact afterQuantum_answers (hread.grounded.advanceDst hn) hread.srcForward (dstForward_advanceDst hn)

theorem execQraw_runs (h : Grounded s) (hunit : 2 ≤ inputLeft s) (hroom : s.dstCur < s.dstQuantumEnd)
    (hquantum : s.dstQuantumEnd ≤ s.dstEnd) : Runs s (execQraw s Params.default) := by
  have hread := coderStep_advanceSrc h hunit
  have hlength : quantumLength s ≤ outputLeft s := by
    rw [BitVec.lt_def] at hroom
    rw [BitVec.le_def] at hquantum
    rw [quantumLength, outputLeft, BitVec.toNat_sub_of_le (BitVec.le_def.mpr hroom.le)]
    omega
  exact Runs.of_coderStep hread (Answers.runs (copyRawBlock_answers hread.grounded hlength))

/-! ### QHDR -/

/-- A chunk pulled when it is needed makes a nonzero register ready (R186). -/
theorem pullIfLow_answers {x : Word} (h : Grounded s) (hx : 1 ≤ x.toNat) :
    Answers (pullIfLow P x s) fun a => CoderStep s a.2 ∧ 0x10000 ≤ a.1.toNat := by
  refine answers_ite (fun hlow => ?_) fun hhigh => ?_
  · refine (readUnit_answers h).bind fun ⟨w, t⟩ ⟨hread, _⟩ => ?_
    exact answers_ok ⟨hread, foldUnit_ready w hx (BitVec.lt_def.mp hlow)⟩
  · exact answers_ok ⟨CoderStep.refl h, not_lt.mp hhigh⟩

/-- A legal header value gives two ready states (R186, R188). -/
theorem loadStates_answers {v : Word} (h : Grounded s) (hv : 0x10000 ≤ v.toNat) :
    Answers (loadStates P v s) fun t => CoderStep s t ∧ coderReady t := by
  have hn : v.toNat % 16 < 16 := Nat.mod_lt _ (by omega)
  refine (pullIfLow_answers h (toNat_ushiftRight_pos (le_trans (by decide) hv))).bind fun ⟨a, t⟩ ⟨hst, ha⟩ => ?_
  have hpow : 2 ^ (v.toNat % 16) ≤ a.toNat := (Nat.pow_le_pow_right (n := 2) (j := 16) (by omega) hn.le).trans ha
  refine (pullIfLow_answers hst.grounded (toNat_ushiftRight_pos hpow)).bind fun ⟨x, u⟩ ⟨htu, hx⟩ => ?_
  refine (readUnit_answers htu.grounded).bind fun ⟨x3, w⟩ ⟨huw, _⟩ => ?_
  exact answers_ok ⟨hst.trans (htu.trans (huw.trans (coderStep_setStates huw.grounded _ _))), hx, headerState2_ready hn _⟩

theorem execQhdr_runs (h : Grounded s) (hroom : s.dstCur < s.dstQuantumEnd) (hquantum : s.dstQuantumEnd ≤ s.dstEnd) :
    Runs s (execQhdr s Params.default) := by
  refine Answers.runs ((readUnit_answers h).bind fun ⟨w0, t⟩ ⟨hst, _⟩ => ?_)
  refine (readUnit_answers hst.grounded).bind fun ⟨w1, u⟩ ⟨htu, _⟩ => ?_
  refine answers_ite (fun _ => htu.grounded.fails _) fun hv => ?_
  refine (loadStates_answers htu.grounded (not_lt.mp hv)).bind fun w ⟨huw, hready⟩ => ?_
  have hsw := hst.trans (htu.trans huw)
  refine answers_ok ⟨(huw.grounded.setFirstLiteral true).gotoPhase _, ⟨hready, rfl, ?_, ?_⟩, hsw.srcForward, ?_⟩
  · exact hsw.dstCur.symm ▸ hsw.dstQuantumEnd.symm ▸ hroom
  · exact hsw.dstEnd.symm ▸ hsw.dstQuantumEnd.symm ▸ hquantum
  · exact hsw.dstCur.symm ▸ BitVec.le_refl _

/-! ### FIRSTLIT -/

/-- Room in the quantum is room in the output (R30). -/
theorem outputLeft_pos (hroom : s.dstCur < s.dstQuantumEnd) (hquantum : s.dstQuantumEnd ≤ s.dstEnd) : 1 ≤ outputLeft s := by
  rw [BitVec.lt_def] at hroom
  rw [BitVec.le_def] at hquantum
  rw [outputLeft]
  omega

theorem CoderStep.outputLeft (h : CoderStep s t) : outputLeft t = outputLeft s := by
  rw [Machine.outputLeft, Machine.outputLeft, h.dstEnd, h.dstCur]

/-- A byte written at the cursor, which then moves on (R190, R212). -/
theorem writeByte_answers {b : Byte} {f : State → State} {Q : State → Prop} (h : Grounded s) (hroom : 1 ≤ outputLeft s)
    (hf : ∀ m, Memory.wf m → Q (f (advanceDst 1 (setOut m s)))) :
    Answers (outWrite s.dstCur.toNat b s >>= fun t => .ok (f (advanceDst 1 t))) Q := by
  have hin : s.dstCur.toNat < s.decompSize.toNat := by
    have := h.dstEnd_eq
    rw [outputLeft] at hroom
    omega
  rw [outWrite_ok hin, bind_ok]
  exact answers_ok (hf _ (memWrite_wf h.outCanonical _ _))

theorem execFirstlit_runs (h : Grounded s) (hready : coderReady s) (hpending : s.firstLiteralPending = true)
    (hroom : s.dstCur < s.dstQuantumEnd) (hquantum : s.dstQuantumEnd ≤ s.dstEnd) :
    Runs s (execFirstlit s Params.default) := by
  rw [execFirstlit, if_pos hpending]
  refine Answers.runs ((rawBits_answers h hready (by omega)).bind fun ⟨b, t⟩ ⟨hst, hready', _⟩ => ?_)
  have hleft : 1 ≤ outputLeft t := (outputLeft_pos hroom hquantum).trans hst.outputLeft.ge
  refine writeByte_answers (f := fun u => gotoPhase .qbody (setFirstLiteral false u)) hst.grounded hleft fun m hm => ?_
  have hout := (hst.grounded.setOut hm).advanceDst hleft
  have hcur := dstCur_advanceDst (s := setOut m t) hleft
  exact
    { grounded := (hout.setFirstLiteral false).gotoPhase _
      inPhase := ⟨hready', hst.dstQuantumEnd.symm ▸ hst.dstEnd.symm ▸ hquantum,
        show 1 ≤ (advanceDst 1 (setOut m t)).dstCur.toNat by omega, .inl rfl⟩
      srcForward := hst.srcForward
      dstForward := hst.dstCur ▸ dstForward_advanceDst (s := setOut m t) hleft }

/-! ### The body of a quantum -/

/-- Inside the body of a coded quantum, with output left in it (R192). -/
structure InBody (s : State) : Prop where
  grounded : Grounded s
  ready : coderReady s
  inBody : s.phase = .qbody
  quantum : s.dstQuantumEnd ≤ s.dstEnd
  started : 1 ≤ s.dstCur.toNat
  room : s.dstCur < s.dstQuantumEnd

theorem InBody.of_coderStep (h : InBody s) (hst : CoderStep s t) (hready : coderReady t) : InBody t where
  grounded := hst.grounded
  ready := hready
  inBody := hst.phase.trans h.inBody
  quantum := by rw [hst.dstQuantumEnd, hst.dstEnd]; exact h.quantum
  started := by rw [hst.dstCur]; exact h.started
  room := by rw [hst.dstCur, hst.dstQuantumEnd]; exact h.room

theorem InBody.outputLeft_pos (h : InBody s) : 1 ≤ outputLeft s := Machine.outputLeft_pos h.room h.quantum

/-- In the body a first byte has been written, so `lastCopyOffset` reaches no further back than the start (R213). -/
theorem InBody.lastCopy_le (h : InBody s) : s.lastCopyOffset.toNat ≤ s.dstCur.toNat := by
  have hhigh := h.grounded.lastCopyHigh
  rwa [max_eq_right h.started] at hhigh

theorem phaseInv_bodyHead (hp : s.phase = .qbody) (hg : s.stage = .head) (hready : coderReady s)
    (hquantum : s.dstQuantumEnd ≤ s.dstEnd) (hstarted : 1 ≤ s.dstCur.toNat) : phaseInv s := by
  simp only [phaseInv, hp]
  exact ⟨hready, hquantum, hstarted, .inl hg⟩

/-- The demand of the two stages inside a match: the length is known (R91). -/
theorem phaseInv_bodyMatch (hp : s.phase = .qbody) (hg : s.stage = .distance ∨ s.stage = .copy) (hready : coderReady s)
    (hquantum : s.dstQuantumEnd ≤ s.dstEnd) (hstarted : 1 ≤ s.dstCur.toNat) (hroom : s.dstCur < s.dstQuantumEnd)
    (hlength : 2 ≤ s.copyLength.toNat ∧ s.copyLength.toNat ≤ 8223) : phaseInv s := by
  simp only [phaseInv, hp]
  exact ⟨hready, hquantum, hstarted, .inr ⟨hg, hroom, hlength⟩⟩

theorem execLit_runs (h : InBody s) (hg : s.stage = .head) (delta : BitVec 8) : Runs s (execLit delta s) := by
  have hleft := h.outputLeft_pos
  have hin : s.dstCur.toNat - s.lastCopyOffset.toNat < s.decompSize.toNat := by
    have := h.grounded.dstEnd_eq
    rw [outputLeft] at hleft
    omega
  rw [execLit, outByteBack_ok h.lastCopy_le hin, bind_ok]
  refine Answers.runs (writeByte_answers (f := id) h.grounded hleft fun m hm => ?_)
  have hcur := dstCur_advanceDst (s := setOut m s) hleft
  exact
    { grounded := (h.grounded.setOut hm).advanceDst hleft
      inPhase := phaseInv_bodyHead h.inBody hg h.ready h.quantum
        (show 1 ≤ (advanceDst 1 (setOut m s)).dstCur.toNat by omega)
      srcForward := BitVec.le_refl _
      dstForward := dstForward_advanceDst (s := setOut m s) hleft }

/-- A length of 2 to 8223 leads to the distance of the match (R91, R210). -/
theorem advanced_lengthDecoded {len : Nat} (h : InBody s) (hlow : 2 ≤ len) (hhigh : len ≤ 8223) :
    Advanced s (lengthDecoded len s) where
  grounded := h.grounded.lengthDecoded len
  inPhase := phaseInv_bodyMatch h.inBody (.inl rfl) h.ready h.quantum h.started h.room (by
    rw [lengthDecoded_copyLength, BitVec.toNat_ofNat, Nat.mod_eq_of_lt (by omega)]
    exact ⟨hlow, hhigh⟩)
  srcForward := BitVec.le_refl _
  dstForward := BitVec.le_refl _

theorem execMatchs_runs (h : InBody s) (code : BitVec 5) : Runs s (execMatchs code s) := by
  obtain ⟨hlow, hhigh⟩ := shortLength_range code
  exact runs_next (advanced_lengthDecoded h hlow (by omega))

theorem execMatchx_runs (h : InBody s) {code : BitVec 4} (hcode : code.toNat ≤ 11) :
    Runs s (execMatchx code s Params.default) := by
  have hbits : extendedBits (288 + code.toNat) = code.toNat + 1 := by
    unfold extendedBits
    omega
  rw [execMatchx, hbits]
  refine Answers.runs ((rawBits_answers h.grounded h.ready (by omega)).bind fun ⟨extra, t⟩ ⟨hst, hready, hextra⟩ => ?_)
  obtain ⟨hlow, hhigh⟩ := extendedLength_range (by omega) (by omega) hextra
  exact answers_ok (Advanced.of_coderStep hst (advanced_lengthDecoded (h.of_coderStep hst hready) (le_trans (by decide) hlow) hhigh))

/-- A distance leads to COPY (R210). -/
theorem advanced_distanceDecoded (d : Word) (h : InBody s) (hlength : 2 ≤ s.copyLength.toNat ∧ s.copyLength.toNat ≤ 8223) :
    Advanced s (distanceDecoded d s) where
  grounded := h.grounded.distanceDecoded d
  inPhase := phaseInv_bodyMatch h.inBody (.inr rfl) h.ready h.quantum h.started h.room hlength
  srcForward := BitVec.le_refl _
  dstForward := BitVec.le_refl _

theorem execDcache_runs (h : InBody s) (hlength : 2 ≤ s.copyLength.toNat ∧ s.copyLength.toNat ≤ 8223) (rank : BitVec 3) :
    Runs s (execDcache rank s Params.default) := by
  have hmask := h.grounded.setDistMask (mtfUpdate_permutes rank.isLt h.grounded.maskPermutes)
  have hset : InBody (setDistMask (mtfUpdate s.distMask rank.toNat) s) := { h with grounded := hmask }
  exact runs_next { advanced_distanceDecoded (cachedDistance s rank.toNat) hset hlength with }

theorem longBits_answers {nb bits : Nat} (h : Grounded s) (hready : coderReady s) (hnb : nb ≤ 20) (hbits : bits < 2 ^ (nb % 16)) :
    Answers (longBits Params.default nb bits s) fun a => CoderStep s a.2 ∧ coderReady a.2 ∧ a.1 < 2 ^ nb := by
  refine answers_ite (fun hshort => ?_) fun hlong => ?_
  · rw [Nat.mod_eq_of_lt hshort] at hbits
    exact answers_ok ⟨CoderStep.refl h, hready, hbits⟩
  · refine (readUnit_answers h).bind fun ⟨w, t⟩ ⟨hst, ht⟩ => ?_
    have hcombine := longBitsCombine_lt w hbits
    rw [show nb % 16 + 16 = nb by omega] at hcombine
    exact answers_ok ⟨hst, ht ▸ hready, hcombine⟩

/-- A new distance enters the cache (R231, R232). -/
theorem advanced_insertDistance {d : Nat} (h : InBody s) (hlength : 2 ≤ s.copyLength.toNat ∧ s.copyLength.toNat ≤ 8223)
    (hlow : 1 ≤ d) (hhigh : d ≤ 67108832) : Advanced s (insertDistance Params.default (BitVec.ofNat 32 d) s) := by
  have hd : (BitVec.ofNat 32 d).toNat = d := by
    rw [BitVec.toNat_ofNat, Nat.mod_eq_of_lt (by omega)]
  have hrecent : Grounded (setRecent (missInsert s.distMask s.recent (BitVec.ofNat 32 d)) s) :=
    h.grounded.setRecent fun e he => (mem_missInsert he).elim (h.grounded.recentRange e) fun heq => by
      rw [heq, hd]
      exact ⟨hlow, hhigh⟩
  have hset : InBody (setRecent (missInsert s.distMask s.recent (BitVec.ofNat 32 d)) s) := { h with grounded := hrecent }
  exact { advanced_distanceDecoded (BitVec.ofNat 32 d) hset hlength with }

theorem newDistanceOp_answers {osym : Nat} (h : InBody s) (hlength : 2 ≤ s.copyLength.toNat ∧ s.copyLength.toNat ≤ 8223)
    (hlow : 8 ≤ osym) (hhigh : osym ≤ 39) : Answers (newDistanceOp Params.default osym s) (Advanced s) := by
  refine (decodeAndRenorm_answers .obl h.grounded h.ready).bind fun ⟨nb, t⟩ ⟨hnb, hst, ht⟩ => ?_
  have hnb20 : nb ≤ 20 := Nat.lt_succ_iff.mp hnb
  refine (rawBits_answers hst.grounded ht (Nat.mod_lt nb (by omega)).le).bind fun ⟨low, u⟩ ⟨htu, hu, hlowBits⟩ => ?_
  refine (longBits_answers htu.grounded hu hnb20 hlowBits).bind fun ⟨bits, w⟩ ⟨huw, hw, hbits⟩ => ?_
  have hsw := hst.trans (htu.trans huw)
  obtain ⟨h1, h2⟩ := newDistance_range hnb20 hbits hlow hhigh
  exact answers_ok (Advanced.of_coderStep hsw
    (advanced_insertDistance (h.of_coderStep hsw hw) (hsw.copyLength.symm ▸ hlength) h1 h2))

theorem execCopy_runs (h : InBody s) (len dist : Word) : Runs s (execCopy len dist s) := by
  refine Answers.runs (answers_ite (fun _ => h.grounded.fails _) fun hdist => ?_)
  refine answers_ite (fun _ => h.grounded.fails _) fun hlen => ?_
  have hleft : len.toNat ≤ outputLeft s := not_lt.mp hlen
  obtain ⟨hzero, hback⟩ := not_or.mp hdist
  have hpos : 1 ≤ dist.toNat := Nat.pos_of_ne_zero fun he => hzero (BitVec.eq_of_toNat_eq he)
  have hback' : dist.toNat ≤ s.dstCur.toNat := not_lt.mp hback
  have hin : s.dstCur.toNat + len.toNat ≤ s.decompSize.toNat := by
    have := h.grounded.dstEnd_eq
    have := BitVec.le_def.mp h.grounded.dstInside
    rw [outputLeft] at hleft
    omega
  obtain ⟨m, hcopy, -, -, hwf⟩ := copyWithinOut_ok len.toNat s.dstCur.toNat dist.toNat s hpos hback' hin
  rw [hcopy, bind_ok]
  have hout := (h.grounded.setOut (hwf h.grounded.outCanonical)).advanceDst hleft
  have hforward := dstForward_advanceDst (s := setOut m s) hleft
  have hforward' := BitVec.le_def.mp hforward
  exact answers_ok
    { grounded := (hout.setLastCopy hpos (BitVec.le_trans (BitVec.not_lt.mp hback) hforward)).gotoStage _
      inPhase := phaseInv_bodyHead h.inBody rfl h.ready h.quantum (h.started.trans hforward')
      srcForward := BitVec.le_refl _
      dstForward := hforward }

theorem execQend_runs (h : Grounded s) : Runs s (execQend s Params.default) := by
  refine Answers.runs (answers_ite (fun _ => h.fails _) fun _ => ?_)
  exact afterQuantum_answers h (BitVec.le_refl _) (BitVec.le_refl _)

/-! ### The engine step -/

theorem engineStep_runs_of_run {i : Instr} (hf : fetch P s = .run i s) (h : Runs s (execUnder P i s)) :
    Runs s (engineStep P s) := by
  rw [engineStep_run hf]
  exact h

/-- A step that fetches a symbol runs what every symbol of the alphabet selects. -/
theorem engineStep_runs_of_symbol {m : ModelId} {f : Format} (h : InBody s)
    (hf : fetch Params.default s = fetchSymbol Params.default m f s)
    (hop : ∀ sym u, sym < m.cls.alphabet → CoderStep s u → InBody u →
      ∃ i, decode f sym = .ok i ∧ Runs u (execUnder Params.default i u)) :
    Runs s (engineStep Params.default s) := by
  have hanswers := decodeAndRenorm_answers m h.grounded h.ready
  match hr : decodeAndRenorm Params.default m s, hanswers with
  | .ok (sym, u), ⟨hsym, hsu, hready⟩ =>
    obtain ⟨i, hi, hruns⟩ := hop sym u hsym hsu (h.of_coderStep hsu hready)
    rw [engineStep_run (hf.trans (fetchSymbol_run hr hi))]
    exact Runs.of_coderStep hsu hruns
  | .error (.failed u), hu =>
    refine ⟨u, ?_, .inl hu⟩
    simp only [engineStep, hf, fetchSymbol, hr, conclude_failed]

theorem engineStep_runs_literal (h : InBody s) (hg : s.stage = .head) : Runs s (engineStep Params.default s) := by
  refine engineStep_runs_of_symbol h (fetch_literal h.inBody hg h.room) fun sym u hsym hsu hu => ?_
  obtain ⟨delta, hi⟩ | ⟨code, hi⟩ | ⟨code, hcode, hi⟩ := decode_litSym hsym
  · exact ⟨_, hi, execLit_runs hu (hsu.stage.trans hg) delta⟩
  · exact ⟨_, hi, execMatchs_runs hu code⟩
  · exact ⟨_, hi, execMatchx_runs hu hcode⟩

theorem engineStep_runs_distance (h : InBody s) (hg : s.stage = .distance)
    (hlength : 2 ≤ s.copyLength.toNat ∧ s.copyLength.toNat ≤ 8223) : Runs s (engineStep Params.default s) := by
  refine engineStep_runs_of_symbol h (fetch_distance h.inBody hg) fun sym u hsym hsu hu => ?_
  have hlength' : 2 ≤ u.copyLength.toNat ∧ u.copyLength.toNat ≤ 8223 := hsu.copyLength.symm ▸ hlength
  obtain ⟨rank, hi⟩ | ⟨code, hi⟩ | ⟨code, hi⟩ | ⟨code, hi⟩ := decode_offSym hsym
  · exact ⟨_, hi, execDcache_runs hu hlength' rank⟩
  all_goals have hcode := code.isLt
  all_goals exact ⟨_, hi, (newDistanceOp_answers hu hlength' (by omega) (by omega)).runs⟩

/-- Under the invariant an engine step of a running decode completes, and the decode fails or goes on (R118, R256). -/
theorem engineStep_runs (h : Grounded s) (hp : phaseInv s) (hb : busy s = true) : Runs s (engineStep Params.default s) := by
  cases hphase : s.phase <;> simp only [phaseInv, hphase] at hp
  case idle => simp [busy, hphase] at hb
  case doneOk => simp [busy, hphase] at hb
  case doneFail => simp [busy, hphase] at hb
  case magic => exact engineStep_runs_of_run (fetch_magic hphase) (execMagic_runs h hp.1 hp.2)
  case qstart =>
    obtain ⟨hleft, hhead | ⟨hraw | hcoded, hunit, hroom, hquantum, -⟩⟩ := hp
    · exact engineStep_runs_of_run (fetch_qstart hphase hhead) (execQstart_runs h hphase hleft)
    · exact engineStep_runs_of_run (fetch_qraw hphase hraw) (execQraw_runs h hunit hroom hquantum)
    · exact engineStep_runs_of_run (fetch_qhdr hphase hcoded) (execQhdr_runs h hroom hquantum)
  case qfirst =>
    obtain ⟨hready, hpending, hroom, hquantum⟩ := hp
    exact engineStep_runs_of_run (fetch_firstlit hphase) (execFirstlit_runs h hready hpending hroom hquantum)
  case qbody =>
    obtain ⟨hready, hquantum, hstarted, hhead | ⟨hg, hroom, hlength⟩⟩ := hp
    · by_cases hroom : s.dstCur < s.dstQuantumEnd
      · exact engineStep_runs_literal ⟨h, hready, hphase, hquantum, hstarted, hroom⟩ hhead
      · exact engineStep_runs_of_run (fetch_qend hphase hhead (BitVec.not_lt.mp hroom)) (execQend_runs h)
    · have hbody : InBody s := ⟨h, hready, hphase, hquantum, hstarted, hroom⟩
      rcases hg with hdistance | hcopy
      · exact engineStep_runs_distance hbody hdistance hlength
      · exact engineStep_runs_of_run (fetch_copy hphase hcopy) (execCopy_runs hbody _ _)

end Sys2Proof.Machine
end

section
/-! PROOFS. Every step keeps the machine's invariant (O51), the host's events among them, and no engine step moves a cursor back
(O54). -/

namespace Sys2Proof.Machine

variable {s t : State}

/-! ### The engine -/

/-- While no decode runs the invariant asks for canonical spaces only. -/
theorem inv_of_quiet (hin : Memory.wf s.inMem) (hout : Memory.wf s.outMem) (hb : busy s = false) : Inv s :=
  ⟨hin, hout, fun h => absurd (hb.symm.trans h) Bool.false_ne_true⟩

theorem Failed.quiet (h : Failed s) : busy s = false := by simp only [busy, h.phase]

theorem Failed.inv (h : Failed s) : Inv s := inv_of_quiet h.inCanonical h.outCanonical h.quiet

/-- What an engine step of a running decode does, in terms of its answer. -/
theorem engineStep_next (h : Inv s) (hb : busy s = true) (ht : engineStep Params.default s = .next t) :
    Failed t ∨ Advanced s t := by
  obtain ⟨hground, hp⟩ := (inv_iff_grounded hb).mp h
  obtain ⟨u, hu, hcases⟩ := engineStep_runs hground hp hb
  cases hu.symm.trans ht
  exact hcases

theorem engineStep_inv (h : Inv s) (ht : engineStep Params.default s = .next t) : Inv t := by
  cases hb : busy s with
  | false =>
    rw [engineStep_quiet hb] at ht
    cases ht
    exact h
  | true => exact (engineStep_next h hb ht).elim Failed.inv fun hadv => hadv.grounded.inv hadv.inPhase

/-! ### The host -/

/-- The script and the host's data are no part of the invariant. -/
theorem Inv.setHost (h : Inv s) (script : List HostEvent) (data : Word) :
    Inv { s with hostScript := script, hostData := data } :=
  { h with decoding := fun hb => { h.decoding hb with } }

/-- After a START whose preconditions hold (R110 to R112). -/
theorem start_grounded (h : Inv s) (hcomp : 2 ≤ s.compSize.toNat) (hdecomp : s.decompSize ≠ 0#32) :
    Grounded (initDecoderState Params.default s) where
  inCanonical := h.inCanonical
  outCanonical := h.outCanonical
  compSizeLow := hcomp
  decompSizeLow := Nat.pos_of_ne_zero fun he => hdecomp (BitVec.eq_of_toNat_eq he)
  srcEndIsSize := rfl
  srcInside := BitVec.le_def.mpr (Nat.zero_le _)
  dstStartZero := rfl
  dstEndIsSize := rfl
  dstInside := BitVec.le_def.mpr (Nat.zero_le _)
  models := fun m => by
    cases m <;> simp only [initDecoderState, State.model, ModelId.cls, Vector.getElem_replicate] <;> exact initModel_inv _
  maskPermutes := distMaskInit_permutes
  recentRange := fun d hd => by
    have hone : d = 1#32 := by simpa [initDecoderState] using hd
    subst hone
    decide
  lastCopyLow := le_rfl
  lastCopyHigh := le_max_left _ _

theorem execStart_inv (h : Inv s) (ht : execStart s Params.default = .next t) : Inv t := by
  unfold execStart at ht
  split at ht
  · cases ht
  · split at ht
    · cases ht
      exact inv_of_quiet h.inCanonical (memForget_wf h.outCanonical _) rfl
    · rename_i hb hpre
      obtain ⟨hcomp, hdecomp⟩ := not_or.mp hpre
      have hquiet : busy s = false := (Bool.not_eq_true _).mp hb
      have hcause : Inv { s with failCause := .none } := inv_of_quiet h.inCanonical h.outCanonical hquiet
      cases ht
      exact ((start_grounded hcause (not_lt.mp hcomp) hdecomp).gotoPhase .magic).inv ⟨rfl, rfl⟩

theorem hostWriteReg_inv {r : HostReg} {v : Word} (h : Inv s) (ht : hostWriteReg Params.default r v s = .next t) : Inv t := by
  cases hb : busy s with
  | true => rw [hostWriteReg_busy r v hb] at ht; cases ht
  | false =>
    cases r with
    | compSize =>
      rw [hostWriteReg_compSize v hb] at ht
      cases ht
      exact inv_of_quiet h.inCanonical h.outCanonical hb
    | decompSize =>
      rw [hostWriteReg_decompSize v hb] at ht
      cases ht
      exact inv_of_quiet h.inCanonical h.outCanonical hb
    | ctrl =>
      obtain rfl | rfl | hv : v = 0#32 ∨ v = 1#32 ∨ 2 ≤ v.toNat := by bv_omega
      · rw [hostWriteReg_ctrl_zero hb] at ht
        cases ht
        exact h
      · rw [hostWriteReg_ctrl_one hb] at ht
        exact execStart_inv h ht
      · rw [hostWriteReg_ctrl_reserved hb hv] at ht
        cases ht
    | status => rw [hostWriteReg_status v hb] at ht; cases ht

/-- A host read changes nothing but the host's data (R21 to R24). -/
theorem hostReadReg_next {r : HostReg} (ht : hostReadReg r s = .next t) : ∃ d, t = { s with hostData := d } := by
  cases r <;> simp only [hostReadReg] at ht
  case compSize => split at ht <;> cases ht; exact ⟨_, rfl⟩
  case decompSize => split at ht <;> cases ht; exact ⟨_, rfl⟩
  case ctrl => cases ht; exact ⟨_, rfl⟩
  case status => cases ht; exact ⟨_, rfl⟩

/-- A host access of a space happens only while no decode runs (R74). -/
theorem hostAccess_next {act : State → State} (ht : hostAccess act s = .next t) : busy s = false ∧ t = act s := by
  unfold hostAccess at ht
  split at ht
  · cases ht
  · rename_i hb
    cases ht
    exact ⟨(Bool.not_eq_true _).mp hb, rfl⟩

theorem hardwareReset_inv (h : Inv s) : Inv (hardwareReset Params.default s) := by
  have hout : Memory.wf (hardwareReset Params.default s).outMem := by
    unfold hardwareReset
    split
    · exact memForget_wf h.outCanonical _
    · exact h.outCanonical
  have hin : Memory.wf (hardwareReset Params.default s).inMem := by
    unfold hardwareReset
    split <;> exact h.inCanonical
  exact inv_of_quiet hin hout rfl

/-- Every host event keeps the invariant. -/
theorem hostTurn_inv {e : HostEvent} (h : Inv s) (ht : hostTurn Params.default e s = .next t) : Inv t := by
  cases e <;> simp only [hostTurn] at ht
  case writeReg => exact hostWriteReg_inv h ht
  case readReg =>
    obtain ⟨d, rfl⟩ := hostReadReg_next ht
    exact h.setHost s.hostScript d
  case writeIn =>
    obtain ⟨hb, rfl⟩ := hostAccess_next ht
    exact inv_of_quiet (memWrite_wf h.inCanonical _ _) h.outCanonical hb
  case readIn =>
    obtain ⟨-, rfl⟩ := hostAccess_next ht
    exact h.setHost s.hostScript _
  case writeOut =>
    obtain ⟨hb, rfl⟩ := hostAccess_next ht
    exact inv_of_quiet h.inCanonical (memWrite_wf h.outCanonical _ _) hb
  case readOut =>
    obtain ⟨-, rfl⟩ := hostAccess_next ht
    exact h.setHost s.hostScript _
  case hwReset =>
    cases ht
    exact hardwareReset_inv h
  case engine => exact engineStep_inv h ht
  case await =>
    split at ht
    · exact engineStep_inv (h.setHost (.await :: s.hostScript) s.hostData) ht
    · cases ht
      exact h

theorem step_inv (h : Inv s) (ht : step s = .next t) : Inv t := by
  cases hs : s.hostScript with
  | nil => exact engineStep_inv h (step_engine hs ▸ ht)
  | cons e rest => exact hostTurn_inv (h.setHost rest s.hostData) (step_host hs ▸ ht)

end Sys2Proof.Machine

namespace Sys2Proof.Proofs

open Sys2Proof.Machine

/-- Settles O51: an engine step fails the decode or leaves a grounded state (`engineStep_runs`); a host event outside a decode keeps
the spaces canonical, and START makes all decoder state anew. -/
theorem stepKeepsInvariant : Obligations.StepKeepsInvariant := fun _ _ h ht => step_inv h ht

/-- Settles O54: a step that does not fail is one of `Advanced`, whose end state keeps its cursors inside their spaces. -/
theorem cursorsOnlyGrow : Obligations.CursorsOnlyGrow := by
  intro s t h hb ht hrunning
  rcases engineStep_next h hb ht with hfailed | hadv
  · rcases hrunning with hbusy | hdone
    · exact absurd (hfailed.quiet.symm.trans hbusy) Bool.false_ne_true
    · exact absurd (hfailed.phase.symm.trans hdone) (by decide)
  · exact ⟨hadv.srcForward, hadv.grounded.srcInside, hadv.dstForward, hadv.grounded.dstInside⟩

end Sys2Proof.Proofs
end

section
/-! PROOFS. Two runs of one operation side by side. `R` relates the states before and during an operation, `F` those it leaves;
`Agree` and `AgreeOut` say that the two runs answer alike. What a relation has to respect for an operation to answer alike is
`InputAlike`, `CoderAlike` and `OutputAlike`, by what the operation reads and writes. -/

namespace Sys2Proof.Machine

variable {P : Parameters} {R F : State → State → Prop} {s t : State}

/-! ### Answers side by side -/

/-- Both values related by `V`, both failures by `F`, or the same fault. -/
inductive Agree {α : Type} (F : State → State → Prop) (V : α → α → Prop) : Except Stop α → Except Stop α → Prop where
  | ok {a b : α} (h : V a b) : Agree F V (.ok a) (.ok b)
  | failed {s t : State} (h : F s t) : Agree F V (.error (.failed s)) (.error (.failed t))
  | fault (f : Fault) : Agree F V (.error (.fault f)) (.error (.fault f))

/-- The same outcome, the next states related by `F`. -/
inductive AgreeOut (F : State → State → Prop) :
    Host.Outcome State Fault Refusal → Host.Outcome State Fault Refusal → Prop where
  | next {s t : State} (h : F s t) : AgreeOut F (.next s) (.next t)
  | fault (f : Fault) : AgreeOut F (.fault f) (.fault f)
  | refused (r : Refusal) : AgreeOut F (.refused r) (.refused r)

/-- The same value and related states. -/
def PairAlike {α : Type} (R : State → State → Prop) (a b : α × State) : Prop := a.1 = b.1 ∧ R a.2 b.2

theorem Agree.bind {α β : Type} {V : α → α → Prop} {W : β → β → Prop} {r r' : Except Stop α} {k k' : α → Except Stop β}
    (h : Agree F V r r') (hk : ∀ a b, V a b → Agree F W (k a) (k' b)) : Agree F W (r >>= k) (r' >>= k') := by
  cases h with
  | ok h => exact hk _ _ h
  | failed h => exact .failed h
  | fault f => exact .fault f

theorem Agree.bind_eq {α β : Type} {W : β → β → Prop} {r r' : Except Stop α} {k k' : α → Except Stop β}
    (h : Agree F (· = ·) r r') (hk : ∀ a, Agree F W (k a) (k' a)) : Agree F W (r >>= k) (r' >>= k') :=
  h.bind fun a _ hab => hab ▸ hk a

theorem Agree.bind_pair {α β : Type} {W : β → β → Prop} {r r' : Except Stop (α × State)} {k k' : α × State → Except Stop β}
    (h : Agree F (PairAlike R) r r') (hk : ∀ a u v, R u v → Agree F W (k (a, u)) (k' (a, v))) :
    Agree F W (r >>= k) (r' >>= k') :=
  h.bind fun ⟨a, u⟩ ⟨b, v⟩ ⟨hab, huv⟩ => by
    obtain rfl : a = b := hab
    exact hk a u v huv

theorem Agree.ite {α : Type} {V : α → α → Prop} {c c' : Prop} [Decidable c] [Decidable c'] {r₁ r₂ r₁' r₂' : Except Stop α}
    (hc : c ↔ c') (h₁ : c → Agree F V r₁ r₁') (h₂ : ¬ c → Agree F V r₂ r₂') :
    Agree F V (if c then r₁ else r₂) (if c' then r₁' else r₂') := by
  by_cases h : c
  · rw [if_pos h, if_pos (hc.mp h)]
    exact h₁ h
  · rw [if_neg h, if_neg (mt hc.mpr h)]
    exact h₂ h

theorem Agree.conclude {r r' : Except Stop State} (h : Agree F F r r') : AgreeOut F (conclude r) (conclude r') := by
  cases h with
  | ok h => exact .next h
  | failed h => exact .next h
  | fault f => exact .fault f

/-- Outcomes that agree up to a view of the next state are equal in that view. -/
theorem AgreeOut.mapNext_eq {view : State → State} {o o' : Host.Outcome State Fault Refusal}
    (h : AgreeOut (fun s t => view s = view t) o o') : mapNext view o = mapNext view o' := by
  cases h with
  | next h => exact congrArg Host.Outcome.next h
  | fault f => rfl
  | refused r => rfl

/-! ### What the operations read and write -/

/-- Related states give `f` the same value. -/
def SameOn {β : Type} (R : State → State → Prop) (f : State → β) : Prop := ∀ ⦃s t⦄, R s t → f s = f t

/-- `G` takes states related by `R` to states related by `F`. -/
def Keeps (R F : State → State → Prop) (G : State → State) : Prop := ∀ ⦃s t⦄, R s t → F (G s) (G t)

/-- The relation shows in no read of the input (R160 to R162). -/
structure InputAlike (R F : State → State → Prop) : Prop where
  compSize : SameOn R State.compSize
  inMem : SameOn R State.inMem
  srcCur : SameOn R State.srcCur
  srcEnd : SameOn R State.srcEnd
  advanceSrc : ∀ n, Keeps R R (advanceSrc n)
  fails : ∀ c, Keeps R F (raiseFailure c)

/-- The relation shows neither in the coder nor in the models (R140, R163, R166). -/
structure CoderAlike (R F : State → State → Prop) : Prop extends InputAlike R F where
  state1 : SameOn R State.state1
  state2 : SameOn R State.state2
  model : ∀ m, SameOn R (State.model · m)
  setState1 : ∀ v, Keeps R R (setState1 v)
  swapStates : Keeps R R swapStates
  setModel : ∀ m M, Keeps R R (State.setModel · m M)

/-- The relation shows in no access of the output (R30, R61). -/
structure OutputAlike (R : State → State → Prop) : Prop where
  decompSize : SameOn R State.decompSize
  dstCur : SameOn R State.dstCur
  dstEnd : SameOn R State.dstEnd
  outMem : SameOn R State.outMem
  outForgotten : SameOn R State.outForgotten
  setOut : ∀ m, Keeps R R (setOut m)
  advanceDst : ∀ n, Keeps R R (advanceDst n)

/-! ### The input -/

theorem InputAlike.inputLeft (hI : InputAlike R F) (h : R s t) : inputLeft s = inputLeft t := by
  rw [Machine.inputLeft, Machine.inputLeft, hI.srcCur h, hI.srcEnd h]

theorem inByte_agree (hI : InputAlike R F) (a : Nat) (h : R s t) : Agree F (· = ·) (inByte a s) (inByte a t) := by
  refine Agree.ite (by rw [hI.compSize h]) (fun _ => .ok ?_) fun _ => .fault _
  rw [inValue, inValue, hI.inMem h]

theorem peek16_agree (hI : InputAlike R F) (h : R s t) : Agree F (· = ·) (peek16 P s) (peek16 P t) := by
  refine Agree.ite (by rw [hI.inputLeft h]) (fun _ => ?_) fun _ => ?_
  · rw [hI.srcCur h]
    exact .failed (hI.fails _ h)
  · rw [hI.srcCur h]
    exact (inByte_agree hI _ h).bind_eq fun _ => (inByte_agree hI _ h).bind_eq fun _ => .ok rfl

theorem readUnit_agree (hI : InputAlike R F) (h : R s t) : Agree F (PairAlike R) (readUnit P s) (readUnit P t) :=
  (peek16_agree hI h).bind_eq fun _ => .ok ⟨rfl, hI.advanceSrc 2 h⟩

theorem pullIfLow_agree (hI : InputAlike R F) (x : Word) (h : R s t) :
    Agree F (PairAlike R) (pullIfLow P x s) (pullIfLow P x t) :=
  Agree.ite Iff.rfl (fun _ => (readUnit_agree hI h).bind_pair fun _ _ _ huv => .ok ⟨rfl, huv⟩) fun _ => .ok ⟨rfl, h⟩

/-- The header's states, whatever relation `V` their write leaves (R186). -/
theorem loadStates_agree {V : State → State → Prop} (hI : InputAlike R F) (v : Word)
    (hset : ∀ x y, Keeps R V (setStates x y)) (h : R s t) :
    Agree F V (loadStates P v s) (loadStates P v t) :=
  (pullIfLow_agree hI _ h).bind_pair fun _ _ _ h₁ =>
    (pullIfLow_agree hI _ h₁).bind_pair fun _ _ _ h₂ => (readUnit_agree hI h₂).bind_pair fun _ _ _ h₃ => .ok (hset _ _ h₃)

theorem longBits_agree (hI : InputAlike R F) (nb bits : Nat) (h : R s t) :
    Agree F (PairAlike R) (longBits P nb bits s) (longBits P nb bits t) :=
  Agree.ite Iff.rfl (fun _ => .ok ⟨rfl, h⟩) fun _ => (readUnit_agree hI h).bind_pair fun _ _ _ huv => .ok ⟨rfl, huv⟩

/-! ### The coder -/

theorem renormalize_agree (hC : CoderAlike R F) (h : R s t) : Agree F R (renormalize P s) (renormalize P t) := by
  refine Agree.ite (by rw [hC.state1 h]) (fun _ => ?_) fun _ => .ok (hC.swapStates h)
  refine (readUnit_agree hC.toInputAlike h).bind_pair fun w u v huv => ?_
  have hfold : foldUnit u.state1 w = foldUnit v.state1 w := by rw [hC.state1 huv]
  simp only [hfold]
  exact .ok (hC.swapStates (hC.setState1 _ huv))

theorem rawBits_agree (hC : CoderAlike R F) (k : Nat) (h : R s t) :
    Agree F (PairAlike R) (rawBits P k s) (rawBits P k t) := by
  rw [rawBits, rawBits, hC.state1 h]
  exact (renormalize_agree hC (hC.setState1 _ h)).bind fun _ _ huv => .ok ⟨rfl, huv⟩

theorem decodeSymbol_agree (hC : CoderAlike R F) (m : ModelId) (h : R s t) :
    Agree F (PairAlike R) (decodeSymbol P m s) (decodeSymbol P m t) := by
  rw [decodeSymbol, decodeSymbol, hC.state1 h, show s.model m = t.model m from hC.model m h]
  split
  · exact .fault _
  · exact .ok ⟨rfl, hC.setModel _ _ (hC.setState1 _ h)⟩

theorem decodeAndRenorm_agree (hC : CoderAlike R F) (m : ModelId) (h : R s t) :
    Agree F (PairAlike R) (decodeAndRenorm P m s) (decodeAndRenorm P m t) :=
  (decodeSymbol_agree hC m h).bind_pair fun _ _ _ huv => (renormalize_agree hC huv).bind fun _ _ h' => .ok ⟨rfl, h'⟩

/-! ### The output -/

theorem OutputAlike.outputLeft (hO : OutputAlike R) (h : R s t) : outputLeft s = outputLeft t := by
  rw [Machine.outputLeft, Machine.outputLeft, hO.dstCur h, hO.dstEnd h]

theorem outByteBack_agree (hO : OutputAlike R) (pos d : Nat) (h : R s t) :
    Agree F (· = ·) (outByteBack pos d s) (outByteBack pos d t) := by
  refine Agree.ite Iff.rfl (fun _ => .fault _) fun _ => ?_
  refine Agree.ite (by rw [hO.decompSize h]) (fun _ => .ok ?_) fun _ => .fault _
  rw [outValue, outValue, outEpoch, outEpoch, hO.outMem h, hO.outForgotten h]

theorem outWrite_agree (hO : OutputAlike R) (a : Nat) (b : Byte) (h : R s t) :
    Agree F R (outWrite a b s) (outWrite a b t) := by
  refine Agree.ite (by rw [hO.decompSize h]) (fun _ => .ok ?_) fun _ => .fault _
  rw [hO.outMem h]
  exact hO.setOut _ h

theorem copyFromIn_agree (hI : InputAlike R F) (hO : OutputAlike R) (n : Nat) : ∀ (src dst : Nat) {s t : State}, R s t →
    Agree F R (copyFromIn n src dst s) (copyFromIn n src dst t) := by
  induction n with
  | zero => exact fun _ _ _ _ h => .ok h
  | succ n ih =>
    exact fun src dst _ _ h => (inByte_agree hI src h).bind_eq fun b =>
      (outWrite_agree hO dst b h).bind fun _ _ huv => ih _ _ huv

theorem copyWithinOut_agree (hO : OutputAlike R) (n : Nat) : ∀ (dst d : Nat) {s t : State}, R s t →
    Agree F R (copyWithinOut n dst d s) (copyWithinOut n dst d t) := by
  induction n with
  | zero => exact fun _ _ _ _ h => .ok h
  | succ n ih =>
    exact fun dst d _ _ h => (outByteBack_agree hO dst d h).bind_eq fun b =>
      (outWrite_agree hO dst b h).bind fun _ _ huv => ih _ _ huv

end Sys2Proof.Machine
end

section
/-! PROOFS. The engine's step and the host's events on two states side by side: what a relation of states has to respect
(`EngineAlike`, `HostAlike`) so that no step tells the two apart. -/

namespace Sys2Proof.Machine

variable {F : State → State → Prop} {s t : State}

/-- A decode runs in this phase (R24). -/
def Running (p : Phase) : Prop := p = .magic ∨ p = .qstart ∨ p = .qfirst ∨ p = .qbody

theorem busy_iff_running : busy s = true ↔ Running s.phase := by
  cases hp : s.phase <;> simp [busy, Running, hp]

/-- After AfterQuantum: the quantum's two ends (R115, at the defaults). -/
def QuantumNext (p : Phase) : Prop := p = .qstart ∨ p = .doneOk

/-- A quantum ends here: after a raw block, or in the body (R182, R194). -/
def EndsQuantum (p : Phase) (g : Stage) : Prop := (p = .qstart ∧ g = .raw) ∨ p = .qbody

/-- What relations `R p g`, one for each phase and stage, have to respect for the engine's step to relate its next states by `F`:
what each operation reads is the same, and what it writes keeps the relation or ends in `F`. -/
structure EngineAlike (R : Phase → Stage → State → State → Prop) (F : State → State → Prop) : Prop where
  input : ∀ {p} g, Running p → InputAlike (R p g) F
  coder : ∀ {p} g, p = .qfirst ∨ p = .qbody → CoderAlike (R p g) F
  output : ∀ {p} g, Running p → OutputAlike (R p g)
  unchanged : ∀ p g, Keeps (R p g) F id
  magicSet : ∀ g v, Keeps (R .magic g) (R .magic g) (setSrcCur v)
  magicEnd : ∀ g, Keeps (R .magic g) F (gotoPhase .qstart)
  quantumSet : ∀ g q, Keeps (R .qstart g) (R .qstart g) (setQuantumEnd q)
  markerEnd : ∀ g q st, st = .raw ∨ st = .coded → Keeps (R .qstart g) F fun u => gotoStage st (setQuantumEnd q u)
  dstQuantumEnd : ∀ {p g}, EndsQuantum p g → SameOn (R p g) State.dstQuantumEnd
  quantumEnd : ∀ {p g next}, EndsQuantum p g → QuantumNext next → Keeps (R p g) F (gotoPhase next)
  headerEnd : ∀ x y, Keeps (R .qstart .coded) F fun u => gotoPhase .qfirst (setFirstLiteral true (setStates x y u))
  firstPending : ∀ g, SameOn (R .qfirst g) State.firstLiteralPending
  firstWritten : ∀ g, Keeps (R .qfirst g) F fun u => gotoPhase .qbody (setFirstLiteral false u)
  firstSkipped : ∀ g, Keeps (R .qfirst g) F (gotoPhase .qbody)
  lastCopy : ∀ g, SameOn (R .qbody g) State.lastCopyOffset
  lengthEnd : ∀ g len, Keeps (R .qbody g) F (lengthDecoded len)
  cacheEnd : ∀ k, k < 8 → Keeps (R .qbody .distance) F fun u =>
    distanceDecoded (cachedDistance u k) (setDistMask (mtfUpdate u.distMask k) u)
  insertEnd : ∀ d, Keeps (R .qbody .distance) F (insertDistance Params.default d)
  copyLength : SameOn (R .qbody .copy) State.copyLength
  matchDist : SameOn (R .qbody .copy) State.matchDist
  copyEnd : ∀ d, Keeps (R .qbody .copy) F fun u => gotoStage .head (setLastCopy d u)

variable {R : Phase → Stage → State → State → Prop} {p : Phase} {g : Stage}

/-! ### MAGIC and the quanta -/

theorem execMagic_agree (hE : EngineAlike R F) (h : R .magic g s t) :
    AgreeOut F (execMagic s Params.default) (execMagic t Params.default) := by
  have hI := hE.input g (.inl rfl)
  refine ((readUnit_agree hI (hE.magicSet g _ h)).bind_pair fun unit u v huv => ?_).conclude
  exact Agree.ite Iff.rfl (fun _ => .ok (hE.magicEnd g huv)) fun _ => .failed (hI.fails _ huv)

theorem execQstart_agree (hE : EngineAlike R F) (h : R .qstart g s t) :
    AgreeOut F (execQstart s Params.default) (execQstart t Params.default) := by
  have hrun : Running .qstart := .inr (.inl rfl)
  have hO := hE.output g hrun
  have hnext : nextQuantumEnd Params.default s = nextQuantumEnd Params.default t := by
    rw [nextQuantumEnd, nextQuantumEnd, hO.dstCur h, hO.dstEnd h]
  rw [execQstart, execQstart, hnext]
  refine ((peek16_agree (hE.input g hrun) (hE.quantumSet g _ h)).bind_eq fun marker => ?_).conclude
  exact Agree.ite Iff.rfl (fun _ => .ok (hE.markerEnd g _ _ (.inl rfl) h)) fun _ => .ok (hE.markerEnd g _ _ (.inr rfl) h)

theorem afterQuantum_agree (hE : EngineAlike R F) (hp : Running p) (hends : EndsQuantum p g) (h : R p g s t) :
    Agree F F (afterQuantum Params.default s) (afterQuantum Params.default t) := by
  rw [afterQuantum_default, afterQuantum_default, (hE.output g hp).dstCur h, (hE.output g hp).dstEnd h]
  exact .ok (hE.quantumEnd hends (ite_eq_or_eq _ _ _) h)

theorem execQraw_agree (hE : EngineAlike R F) (h : R .qstart .raw s t) :
    AgreeOut F (execQraw s Params.default) (execQraw t Params.default) := by
  have hrun : Running .qstart := .inr (.inl rfl)
  have hends : EndsQuantum .qstart .raw := .inl ⟨rfl, rfl⟩
  have hI := hE.input .raw hrun
  have hO := hE.output .raw hrun
  have hlength : quantumLength s = quantumLength t := by
    rw [quantumLength, quantumLength, hO.dstCur h, hE.dstQuantumEnd hends h]
  rw [execQraw, execQraw, hlength]
  have hread := hI.advanceSrc 2 h
  refine (Agree.ite (by rw [hI.inputLeft hread]) (fun _ => ?_) fun _ => ?_).conclude
  · rw [hI.srcCur hread]
    exact .failed (hI.fails _ hread)
  · rw [hI.srcCur hread, hO.dstCur hread]
    exact (copyFromIn_agree hI hO _ _ _ hread).bind fun _ _ huv =>
      afterQuantum_agree hE hrun hends (hO.advanceDst _ (hI.advanceSrc _ huv))

theorem execQhdr_agree (hE : EngineAlike R F) (h : R .qstart .coded s t) :
    AgreeOut F (execQhdr s Params.default) (execQhdr t Params.default) := by
  have hI := hE.input .coded (.inr (.inl rfl))
  refine ((readUnit_agree hI h).bind_pair fun w0 _ _ h0 => (readUnit_agree hI h0).bind_pair fun w1 _ _ h1 => ?_).conclude
  refine Agree.ite Iff.rfl (fun _ => .failed (hI.fails _ h1)) fun _ => ?_
  exact (loadStates_agree (V := fun u v => F (gotoPhase .qfirst (setFirstLiteral true u))
    (gotoPhase .qfirst (setFirstLiteral true v))) hI _ hE.headerEnd h1).bind fun _ _ huv => .ok huv

theorem execFirstlit_agree (hE : EngineAlike R F) (h : R .qfirst g s t) :
    AgreeOut F (execFirstlit s Params.default) (execFirstlit t Params.default) := by
  have hO := hE.output g (.inr (.inr (.inl rfl)))
  refine (Agree.ite (by rw [hE.firstPending g h]) (fun _ => ?_) fun _ => .ok (hE.firstSkipped g h)).conclude
  refine (rawBits_agree (hE.coder g (.inl rfl)) 8 h).bind_pair fun b u v huv => ?_
  have hcur : u.dstCur = v.dstCur := hO.dstCur huv
  simp only [hcur]
  exact (outWrite_agree hO _ _ huv).bind fun _ _ hw => .ok (hE.firstWritten g (hO.advanceDst 1 hw))

theorem execQend_agree (hE : EngineAlike R F) (h : R .qbody g s t) :
    AgreeOut F (execQend s Params.default) (execQend t Params.default) := by
  have hC := hE.coder g (.inr rfl)
  rw [execQend, execQend, hC.state1 h, hC.state2 h]
  exact (Agree.ite Iff.rfl (fun _ => .failed (hC.fails _ h)) fun _ =>
    afterQuantum_agree hE (.inr (.inr (.inr rfl))) (.inr rfl) h).conclude

/-! ### Literals and matches -/

theorem execLit_agree (hE : EngineAlike R F) (delta : BitVec 8) (h : R .qbody g s t) :
    AgreeOut F (execLit delta s) (execLit delta t) := by
  have hO := hE.output g (.inr (.inr (.inr rfl)))
  rw [execLit, execLit, hO.dstCur h, hE.lastCopy g h]
  refine ((outByteBack_agree hO _ _ h).bind_eq fun base => ?_).conclude
  exact (outWrite_agree hO _ _ h).bind fun _ _ huv => .ok (hE.unchanged _ g (hO.advanceDst 1 huv))

theorem execMatchx_agree (hE : EngineAlike R F) (code : BitVec 4) (h : R .qbody g s t) :
    AgreeOut F (execMatchx code s Params.default) (execMatchx code t Params.default) := by
  rw [execMatchx, execMatchx]
  generalize extendedBits (288 + code.toNat) = nb
  refine ((rawBits_agree (hE.coder g (.inr rfl)) nb h).bind_pair fun extra _ _ huv => ?_).conclude
  exact .ok (hE.lengthEnd g (extendedLength nb extra) huv)

theorem newDistanceOp_agree (hE : EngineAlike R F) (osym : Nat) (h : R .qbody .distance s t) :
    Agree F F (newDistanceOp Params.default osym s) (newDistanceOp Params.default osym t) := by
  have hC := hE.coder .distance (.inr rfl)
  refine (decodeAndRenorm_agree hC .obl h).bind_pair fun nb _ _ h₁ => ?_
  refine (rawBits_agree hC _ h₁).bind_pair fun low _ _ h₂ => ?_
  exact (longBits_agree hC.toInputAlike nb low h₂).bind_pair fun _ _ _ h₃ => .ok (hE.insertEnd _ h₃)

theorem execCopy_agree (hE : EngineAlike R F) (len dist : Word) (h : R .qbody .copy s t) :
    AgreeOut F (execCopy len dist s) (execCopy len dist t) := by
  have hrun : Running .qbody := .inr (.inr (.inr rfl))
  have hI := hE.input .copy hrun
  have hO := hE.output .copy hrun
  rw [execCopy, execCopy, hO.dstCur h, hO.outputLeft h]
  refine (Agree.ite Iff.rfl (fun _ => .failed (hI.fails _ h)) fun _ => ?_).conclude
  refine Agree.ite Iff.rfl (fun _ => .failed (hI.fails _ h)) fun _ => ?_
  exact (copyWithinOut_agree hO _ _ _ h).bind fun _ _ huv => .ok (hE.copyEnd _ (hO.advanceDst _ huv))

/-! ### The engine step -/

theorem decode_litSym_inv {sym : Nat} {i : Instr} (h : decode .litSym sym = .ok i) :
    (∃ delta, i = .lit delta) ∨ (∃ code, i = .matchs code) ∨ ∃ code, i = .matchx code := by
  simp only [decode] at h
  split_ifs at h <;> cases h
  · exact .inl ⟨_, rfl⟩
  · exact .inr (.inl ⟨_, rfl⟩)
  · exact .inr (.inr ⟨_, rfl⟩)

theorem decode_offSym_inv {sym : Nat} {i : Instr} (h : decode .offSym sym = .ok i) :
    (∃ rank, i = .dcache rank) ∨ (∃ code, i = .dnewLow code) ∨ (∃ code, i = .dnewMid code) ∨ ∃ code, i = .dnewHigh code := by
  simp only [decode] at h
  split_ifs at h <;> cases h
  · exact .inl ⟨_, rfl⟩
  · exact .inr (.inl ⟨_, rfl⟩)
  · exact .inr (.inr (.inl ⟨_, rfl⟩))
  · exact .inr (.inr (.inr ⟨_, rfl⟩))

/-- Two steps that fetch a symbol from the same model. -/
theorem engineStep_symbol_agree {Q : State → State → Prop} {m : ModelId} {f : Format} (hC : CoderAlike Q F)
    (hs : fetch Params.default s = fetchSymbol Params.default m f s)
    (ht : fetch Params.default t = fetchSymbol Params.default m f t)
    (hop : ∀ sym i u v, decode f sym = .ok i → Q u v → AgreeOut F (exec i u) (exec i v)) (h : Q s t) :
    AgreeOut F (engineStep Params.default s) (engineStep Params.default t) := by
  have hagree := decodeAndRenorm_agree (P := Params.default) hC m h
  rw [engineStep, engineStep, hs, ht, fetchSymbol, fetchSymbol]
  generalize decodeAndRenorm Params.default m s = r at hagree
  generalize decodeAndRenorm Params.default m t = r' at hagree
  cases hagree with
  | failed huv => exact .next huv
  | fault e => exact .fault e
  | @ok a b huv =>
    obtain ⟨sym, u⟩ := a
    obtain ⟨sym', v⟩ := b
    obtain ⟨hsym, huv⟩ := huv
    obtain rfl : sym = sym' := hsym
    cases hi : decode f sym with
    | error e => simp only [hi]; exact .fault _
    | ok i => simp only [hi, execUnder_default]; exact hop sym i u v hi huv

theorem engineStep_agree_of_run {i : Instr} (hs : fetch Params.default s = .run i s) (ht : fetch Params.default t = .run i t)
    (h : AgreeOut F (exec i s) (exec i t)) : AgreeOut F (engineStep Params.default s) (engineStep Params.default t) := by
  rw [engineStep_run hs, engineStep_run ht, execUnder_default, execUnder_default]
  exact h

theorem engineStep_agree_literal (hE : EngineAlike R F) (h : R .qbody g s t)
    (hs : fetch Params.default s = fetchSymbol Params.default (.lit (modelIndex s.dstCur)) .litSym s)
    (ht : fetch Params.default t = fetchSymbol Params.default (.lit (modelIndex t.dstCur)) .litSym t) :
    AgreeOut F (engineStep Params.default s) (engineStep Params.default t) := by
  rw [← (hE.output g (.inr (.inr (.inr rfl)))).dstCur h] at ht
  refine engineStep_symbol_agree (hE.coder g (.inr rfl)) hs ht (fun sym i u v hi huv => ?_) h
  obtain ⟨delta, rfl⟩ | ⟨code, rfl⟩ | ⟨code, rfl⟩ := decode_litSym_inv hi
  · exact execLit_agree hE delta huv
  · exact .next (hE.lengthEnd g _ huv)
  · exact execMatchx_agree hE code huv

theorem engineStep_agree_distance (hE : EngineAlike R F) (h : R .qbody .distance s t)
    (hs : fetch Params.default s = fetchSymbol Params.default (.offLow (modelIndex s.dstCur)) .offSym s)
    (ht : fetch Params.default t = fetchSymbol Params.default (.offLow (modelIndex t.dstCur)) .offSym t) :
    AgreeOut F (engineStep Params.default s) (engineStep Params.default t) := by
  rw [← (hE.output .distance (.inr (.inr (.inr rfl)))).dstCur h] at ht
  refine engineStep_symbol_agree (hE.coder .distance (.inr rfl)) hs ht (fun sym i u v hi huv => ?_) h
  obtain ⟨rank, rfl⟩ | ⟨code, rfl⟩ | ⟨code, rfl⟩ | ⟨code, rfl⟩ := decode_offSym_inv hi
  · exact .next (hE.cacheEnd _ rank.isLt huv)
  all_goals exact (newDistanceOp_agree hE _ huv).conclude

/-- Inside the body, outside a match: QEND where the quantum is full, a literal symbol elsewhere (R192). -/
theorem engineStep_agree_body (hE : EngineAlike R F) (h : R .qbody g s t)
    (hs : fetch Params.default s = if s.dstCur < s.dstQuantumEnd
      then fetchSymbol Params.default (.lit (modelIndex s.dstCur)) .litSym s else .run .qend s)
    (ht : fetch Params.default t = if t.dstCur < t.dstQuantumEnd
      then fetchSymbol Params.default (.lit (modelIndex t.dstCur)) .litSym t else .run .qend t) :
    AgreeOut F (engineStep Params.default s) (engineStep Params.default t) := by
  have hroom : s.dstCur < s.dstQuantumEnd ↔ t.dstCur < t.dstQuantumEnd := by
    rw [(hE.output g (.inr (.inr (.inr rfl)))).dstCur h, hE.dstQuantumEnd (.inr rfl) h]
  by_cases hc : s.dstCur < s.dstQuantumEnd
  · rw [if_pos hc] at hs
    rw [if_pos (hroom.mp hc)] at ht
    exact engineStep_agree_literal hE h hs ht
  · rw [if_neg hc] at hs
    rw [if_neg (mt hroom.mpr hc)] at ht
    exact engineStep_agree_of_run hs ht (execQend_agree hE h)

/-- The step of a running decode, by phase and stage. -/
theorem engineStep_agree_running (hE : EngineAlike R F) (hp : s.phase = t.phase) (hg : s.stage = t.stage)
    (hrun : Running s.phase) (h : R s.phase s.stage s t) :
    AgreeOut F (engineStep Params.default s) (engineStep Params.default t) := by
  cases hp' : s.phase <;> rw [hp'] at hp hrun h
  case idle | doneOk | doneFail => simp [Running] at hrun
  case magic => exact engineStep_agree_of_run (fetch_magic hp') (fetch_magic hp.symm) (execMagic_agree hE h)
  case qfirst => exact engineStep_agree_of_run (fetch_firstlit hp') (fetch_firstlit hp.symm) (execFirstlit_agree hE h)
  case qstart =>
    cases hg' : s.stage <;> rw [hg'] at hg h
    case raw => exact engineStep_agree_of_run (fetch_qraw hp' hg') (fetch_qraw hp.symm hg.symm) (execQraw_agree hE h)
    case coded => exact engineStep_agree_of_run (fetch_qhdr hp' hg') (fetch_qhdr hp.symm hg.symm) (execQhdr_agree hE h)
    case head | distance | copy =>
      exact engineStep_agree_of_run (i := .qstart) (by simp only [fetch, hp', hg']) (by simp only [fetch, ← hp, ← hg])
        (execQstart_agree hE h)
  case qbody =>
    cases hg' : s.stage <;> rw [hg'] at hg h
    case distance => exact engineStep_agree_distance hE h (fetch_distance hp' hg') (fetch_distance hp.symm hg.symm)
    case copy =>
      have ht := fetch_copy (P := Params.default) hp.symm hg.symm
      rw [← hE.copyLength h, ← hE.matchDist h] at ht
      exact engineStep_agree_of_run (fetch_copy hp' hg') ht (execCopy_agree hE _ _ h)
    case head | raw | coded =>
      exact engineStep_agree_body hE h (by simp only [fetch, hp', hg']) (by simp only [fetch, ← hp, ← hg])

/-- No engine step tells states apart that a relation of this kind relates, in the same phase and stage. -/
theorem engineStep_agree (hE : EngineAlike R F) (hp : s.phase = t.phase)
    (hrun : Running s.phase → s.stage = t.stage ∧ R s.phase s.stage s t) (hquiet : ¬ Running s.phase → F s t) :
    AgreeOut F (engineStep Params.default s) (engineStep Params.default t) := by
  by_cases hr : Running s.phase
  · obtain ⟨hg, h⟩ := hrun hr
    exact engineStep_agree_running hE hp hg hr h
  · have hs : busy s = false := Bool.eq_false_iff.mpr (mt busy_iff_running.mp hr)
    have ht : busy t = false := Bool.eq_false_iff.mpr (mt busy_iff_running.mp (hp ▸ hr))
    rw [engineStep_quiet hs, engineStep_quiet ht]
    exact .next (hquiet hr)

end Sys2Proof.Machine
end

section
/-! PROOFS. The host's events on two states side by side, and with the engine's step the step of the machine. -/

namespace Sys2Proof.Machine

/-- What a relation `S` has to respect for the host's events to relate their next states by `F`. -/
structure HostAlike (S F : State → State → Prop) : Prop where
  phase : SameOn S State.phase
  hostScript : SameOn S State.hostScript
  compSize : SameOn S State.compSize
  decompSize : SameOn S State.decompSize
  unchanged : Keeps S F id
  setScript : ∀ l, Keeps S S fun u => { u with hostScript := l }
  writeCompSize : ∀ v, Keeps S F fun u => { u with compSize := v }
  writeDecompSize : ∀ v, Keeps S F fun u => { u with decompSize := v }
  readCompSize : Keeps S F fun u => { u with hostData := u.compSize }
  readDecompSize : Keeps S F fun u => { u with hostData := u.decompSize }
  readCtrl : Keeps S F fun u => { u with hostData := 0#32 }
  readStatus : Keeps S F fun u => { u with hostData := statusWord u }
  writeIn : ∀ a b, Keeps S F fun u => { u with inMem := memWrite u.inMem a b }
  readIn : ∀ a, Keeps S F fun u => { u with hostData := (inValue u a).setWidth 32 }
  writeOut : ∀ a b, Keeps S F fun u => { u with outMem := memWrite u.outMem a b }
  readOut : ∀ a, Keeps S F fun u => { u with hostData := (outValue u a).setWidth 32 }
  reset : Keeps S F (hardwareReset Params.default)
  startFails : Keeps S F (raiseFailure .precondition)
  startRuns : Keeps S F fun u => gotoPhase .magic (initDecoderState Params.default { u with failCause := .none })

variable {S F : State → State → Prop} {s t : State}

theorem HostAlike.busy (hH : HostAlike S F) (h : S s t) : busy s = busy t := by
  simp only [Machine.busy, hH.phase h]

theorem AgreeOut.ite {c c' : Prop} [Decidable c] [Decidable c'] {o₁ o₂ o₁' o₂' : Host.Outcome State Fault Refusal}
    (hc : c ↔ c') (h₁ : c → AgreeOut F o₁ o₁') (h₂ : ¬ c → AgreeOut F o₂ o₂') :
    AgreeOut F (if c then o₁ else o₂) (if c' then o₁' else o₂') := by
  by_cases h : c
  · rw [if_pos h, if_pos (hc.mp h)]
    exact h₁ h
  · rw [if_neg h, if_neg (mt hc.mpr h)]
    exact h₂ h

/-- What is refused while BUSY agrees when it agrees while no decode runs (R74, R288). -/
theorem HostAlike.guarded (hH : HostAlike S F) (h : S s t) {o o' : Host.Outcome State Fault Refusal} (ho : AgreeOut F o o') :
    AgreeOut F (if Machine.busy s then .refused .hostAccessWhileBusy else o)
      (if Machine.busy t then .refused .hostAccessWhileBusy else o') :=
  AgreeOut.ite (by rw [hH.busy h]) (fun _ => .refused _) fun _ => ho

theorem execStart_agree (hH : HostAlike S F) (h : S s t) :
    AgreeOut F (execStart s Params.default) (execStart t Params.default) := by
  refine hH.guarded h (AgreeOut.ite (by rw [hH.compSize h, hH.decompSize h]) (fun _ => ?_) fun _ => ?_)
  · exact .next (hH.startFails h)
  · exact .next (hH.startRuns h)

theorem hostWriteReg_agree (hH : HostAlike S F) (r : HostReg) (v : Word) (h : S s t) :
    AgreeOut F (hostWriteReg Params.default r v s) (hostWriteReg Params.default r v t) := by
  refine hH.guarded h ?_
  cases r with
  | compSize => exact .next (hH.writeCompSize v h)
  | decompSize => exact .next (hH.writeDecompSize v h)
  | status => exact .refused _
  | ctrl =>
    obtain hzero | hone | htwo : v.toNat = 0 ∨ v.toNat = 1 ∨ 2 ≤ v.toNat := by omega
    · simp only [decode, hzero, if_true]
      exact .next (hH.unchanged h)
    · simp only [decode, hone, one_ne_zero, if_true, if_false]
      exact execStart_agree hH h
    · simp only [decode, show v.toNat ≠ 0 by omega, show v.toNat ≠ 1 by omega, if_false]
      exact .refused _

theorem hostReadReg_agree (hH : HostAlike S F) (r : HostReg) (h : S s t) :
    AgreeOut F (hostReadReg r s) (hostReadReg r t) := by
  cases r with
  | compSize => exact hH.guarded h (.next (hH.readCompSize h))
  | decompSize => exact hH.guarded h (.next (hH.readDecompSize h))
  | ctrl => exact .next (hH.readCtrl h)
  | status => exact .next (hH.readStatus h)

/-- No host event tells related states apart, when no engine step does. -/
theorem hostTurn_agree (hH : HostAlike S F)
    (hengine : ∀ {s t}, S s t → AgreeOut F (engineStep Params.default s) (engineStep Params.default t)) (e : HostEvent)
    (h : S s t) : AgreeOut F (hostTurn Params.default e s) (hostTurn Params.default e t) := by
  cases e <;> simp only [hostTurn]
  case writeReg r v => exact hostWriteReg_agree hH r v h
  case readReg r => exact hostReadReg_agree hH r h
  case writeIn a b => exact hH.guarded h (.next (hH.writeIn a.toNat b h))
  case readIn a => exact hH.guarded h (.next (hH.readIn a.toNat h))
  case writeOut a b => exact hH.guarded h (.next (hH.writeOut a.toNat b h))
  case readOut a => exact hH.guarded h (.next (hH.readOut a.toNat h))
  case hwReset => exact .next (hH.reset h)
  case engine => exact hengine h
  case await =>
    refine AgreeOut.ite (by rw [hH.busy h]) (fun _ => ?_) fun _ => .next (hH.unchanged h)
    rw [hH.hostScript h]
    exact hengine (hH.setScript _ h)

/-- No step tells related states apart, when no engine step does. -/
theorem step_agree (hH : HostAlike S F)
    (hengine : ∀ {s t}, S s t → AgreeOut F (engineStep Params.default s) (engineStep Params.default t)) (h : S s t) :
    AgreeOut F (step s) (step t) := by
  cases hs : s.hostScript with
  | nil =>
    rw [step_engine hs, step_engine ((hH.hostScript h).symm.trans hs)]
    exact hengine h
  | cons e rest =>
    rw [step_host hs, step_host ((hH.hostScript h).symm.trans hs)]
    exact hostTurn_agree hH hengine e (hH.setScript rest h)

end Sys2Proof.Machine
end

section
/-! PROOFS. The values the spec leaves open never matter (O57): the relation of equal `liveState` is one that no step tells apart. -/

namespace Sys2Proof.Machine

variable {p : Phase} {g : Stage} {s t : State}

/-- Equal but for what the spec leaves without a value. -/
def LiveEq (s t : State) : Prop := liveState s = liveState t

/-- The state moved to a phase and a stage, where `liveState` is one known record. -/
def atPlace (p : Phase) (g : Stage) (s : State) : State := { s with phase := p, stage := g }

theorem atPlace_self (s : State) : atPlace s.phase s.stage s = s := rfl

/-- A value that the live part determines. -/
theorem liveEq_same {β : Type} {f : State → β} (f' : State → β)
    (hf : ∀ p g x, f (atPlace p g x) = f' (liveState (atPlace p g x))) : SameOn LiveEq f := fun s t h => by
  rw [← atPlace_self s, ← atPlace_self t, hf, hf]
  exact congrArg f' h

/-- A change of the state whose live part the live part determines. -/
theorem liveEq_keeps {G : State → State} (G' : State → State)
    (hG : ∀ p g x, liveState (G (atPlace p g x)) = G' (liveState (atPlace p g x))) : Keeps LiveEq LiveEq G := fun s t h => by
  rw [LiveEq, ← atPlace_self s, ← atPlace_self t, hG, hG]
  exact congrArg G' h

/-- Two states in phase `p` and stage `g` with equal live parts. -/
structure LiveAlike (p : Phase) (g : Stage) (s t : State) : Prop where
  left : atPlace p g s = s
  right : atPlace p g t = t
  live : LiveEq (atPlace p g s) (atPlace p g t)

theorem liveAlike_same {β : Type} {f : State → β} (f' : State → β)
    (hf : ∀ x, f (atPlace p g x) = f' (liveState (atPlace p g x))) : SameOn (LiveAlike p g) f := fun s t h => by
  rw [← h.left, ← h.right, hf, hf]
  exact congrArg f' h.live

theorem liveAlike_ends {G : State → State} (G' : State → State)
    (hG : ∀ x, liveState (G (atPlace p g x)) = G' (liveState (atPlace p g x))) : Keeps (LiveAlike p g) LiveEq G := fun s t h => by
  rw [LiveEq, ← h.left, ← h.right, hG, hG]
  exact congrArg G' h.live

/-- A change inside the phase and the stage. -/
theorem liveAlike_keeps {G : State → State} (G' : State → State) (hplace : ∀ x, atPlace p g (G x) = G (atPlace p g x))
    (hG : ∀ x, liveState (G (atPlace p g x)) = G' (liveState (atPlace p g x))) :
    Keeps (LiveAlike p g) (LiveAlike p g) G := fun s t h =>
  { left := by rw [hplace, h.left]
    right := by rw [hplace, h.right]
    live := by
      rw [LiveEq, hplace, hplace, hG, hG]
      exact congrArg G' h.live }

theorem liveAlike_input (g : Stage) (hp : Running p) : InputAlike (LiveAlike p g) LiveEq := by
  rcases hp with rfl | rfl | rfl | rfl
  all_goals exact
    { compSize := liveAlike_same State.compSize fun _ => rfl
      inMem := liveAlike_same State.inMem fun _ => rfl
      srcCur := liveAlike_same State.srcCur fun _ => rfl
      srcEnd := liveAlike_same State.srcEnd fun _ => rfl
      advanceSrc := fun n => liveAlike_keeps (advanceSrc n) (fun _ => rfl) fun _ => rfl
      fails := fun c => liveAlike_ends (fun x => liveState (raiseFailure c x)) fun _ => rfl }

theorem liveAlike_coder (g : Stage) (hp : p = .qfirst ∨ p = .qbody) : CoderAlike (LiveAlike p g) LiveEq := by
  rcases hp with rfl | rfl
  all_goals exact
    { liveAlike_input g (by simp [Running]) with
      state1 := liveAlike_same State.state1 fun _ => rfl
      state2 := liveAlike_same State.state2 fun _ => rfl
      model := fun m => liveAlike_same (State.model · m) fun _ => by cases m <;> rfl
      setState1 := fun v => liveAlike_keeps (setState1 v) (fun _ => rfl) fun _ => rfl
      swapStates := liveAlike_keeps swapStates (fun _ => rfl) fun _ => rfl
      setModel := fun m M => liveAlike_keeps (State.setModel · m M) (fun _ => by cases m <;> rfl) fun _ => by cases m <;> rfl }

theorem liveAlike_output (g : Stage) (hp : Running p) : OutputAlike (LiveAlike p g) := by
  rcases hp with rfl | rfl | rfl | rfl
  all_goals exact
    { decompSize := liveAlike_same State.decompSize fun _ => rfl
      dstCur := liveAlike_same State.dstCur fun _ => rfl
      dstEnd := liveAlike_same State.dstEnd fun _ => rfl
      outMem := liveAlike_same State.outMem fun _ => rfl
      outForgotten := liveAlike_same State.outForgotten fun _ => rfl
      setOut := fun m => liveAlike_keeps (setOut m) (fun _ => rfl) fun _ => rfl
      advanceDst := fun n => liveAlike_keeps (advanceDst n) (fun _ => rfl) fun _ => rfl }

/-- What the engine reads in each phase and stage is live there, and what it leaves is a function of the live part. -/
theorem liveAlike_engine : EngineAlike LiveAlike LiveEq where
  input := liveAlike_input
  coder := liveAlike_coder
  output := liveAlike_output
  unchanged := fun _ _ => liveAlike_ends id fun _ => rfl
  magicSet := fun _ v => liveAlike_keeps (setSrcCur v) (fun _ => rfl) fun _ => rfl
  magicEnd := fun _ => liveAlike_ends (fun x => liveState (gotoPhase .qstart x)) fun _ => rfl
  quantumSet := fun g q => liveAlike_keeps (setQuantumEnd (if g = .raw ∨ g = .coded then q else 0#32)) (fun _ => rfl) fun _ => rfl
  markerEnd := fun g q st hst => by
    refine liveAlike_ends (fun x => liveState (gotoStage st (setQuantumEnd q x))) fun _ => ?_
    rcases hst with rfl | rfl <;> rfl
  dstQuantumEnd := by
    rintro p g (⟨rfl, rfl⟩ | rfl) <;> exact liveAlike_same State.dstQuantumEnd fun _ => rfl
  quantumEnd := fun {p g next} hends hnext => by
    refine liveAlike_ends (fun u => liveState (gotoPhase next u)) fun _ => ?_
    rcases hends with ⟨rfl, rfl⟩ | rfl <;> rcases hnext with rfl | rfl <;> rfl
  headerEnd := fun x y =>
    liveAlike_ends (fun u => liveState (gotoPhase .qfirst (setFirstLiteral true (setStates x y u)))) fun _ => rfl
  firstPending := fun _ => liveAlike_same State.firstLiteralPending fun _ => rfl
  firstWritten := fun _ => liveAlike_ends (fun u => liveState (gotoPhase .qbody (setFirstLiteral false u))) fun _ => rfl
  firstSkipped := fun _ => liveAlike_ends (fun u => liveState (gotoPhase .qbody u)) fun _ => rfl
  lastCopy := fun _ => liveAlike_same State.lastCopyOffset fun _ => rfl
  lengthEnd := fun _ len => liveAlike_ends (fun u => liveState (lengthDecoded len u)) fun _ => rfl
  cacheEnd := fun k _ => liveAlike_ends
    (fun u => liveState (distanceDecoded (cachedDistance u k) (setDistMask (mtfUpdate u.distMask k) u))) fun _ => rfl
  insertEnd := fun d => liveAlike_ends (fun u => liveState (insertDistance Params.default d u)) fun _ => rfl
  copyLength := liveAlike_same State.copyLength fun _ => rfl
  matchDist := liveAlike_same State.matchDist fun _ => rfl
  copyEnd := fun d => liveAlike_ends (fun u => liveState (gotoStage .head (setLastCopy d u))) fun _ => rfl

theorem liveEq_host : HostAlike LiveEq LiveEq where
  phase := liveEq_same State.phase fun p _ _ => by cases p <;> rfl
  hostScript := liveEq_same State.hostScript fun p _ _ => by cases p <;> rfl
  compSize := liveEq_same State.compSize fun p _ _ => by cases p <;> rfl
  decompSize := liveEq_same State.decompSize fun p _ _ => by cases p <;> rfl
  unchanged := fun _ _ h => h
  setScript := fun l => liveEq_keeps (fun u => { u with hostScript := l }) fun p _ _ => by cases p <;> rfl
  writeCompSize := fun v => liveEq_keeps (fun u => { u with compSize := v }) fun p _ _ => by cases p <;> rfl
  writeDecompSize := fun v => liveEq_keeps (fun u => { u with decompSize := v }) fun p _ _ => by cases p <;> rfl
  readCompSize := liveEq_keeps (fun u => { u with hostData := u.compSize }) fun p _ _ => by cases p <;> rfl
  readDecompSize := liveEq_keeps (fun u => { u with hostData := u.decompSize }) fun p _ _ => by cases p <;> rfl
  readCtrl := liveEq_keeps (fun u => { u with hostData := 0#32 }) fun p _ _ => by cases p <;> rfl
  readStatus := liveEq_keeps (fun u => { u with hostData := statusWord u }) fun p _ _ => by cases p <;> rfl
  writeIn := fun a b => liveEq_keeps (fun u => { u with inMem := memWrite u.inMem a b }) fun p _ _ => by cases p <;> rfl
  readIn := fun a => liveEq_keeps (fun u => { u with hostData := (inValue u a).setWidth 32 }) fun p _ _ => by cases p <;> rfl
  writeOut := fun a b => liveEq_keeps (fun u => { u with outMem := memWrite u.outMem a b }) fun p _ _ => by cases p <;> rfl
  readOut := fun a => liveEq_keeps (fun u => { u with hostData := (outValue u a).setWidth 32 }) fun p _ _ => by cases p <;> rfl
  reset := liveEq_keeps (fun u => liveState (hardwareReset Params.default u)) fun p _ _ => by cases p <;> rfl
  startFails := liveEq_keeps (fun u => liveState (raiseFailure .precondition u)) fun p _ _ => by cases p <;> rfl
  startRuns := liveEq_keeps (fun u => liveState (gotoPhase .magic (initDecoderState Params.default { u with failCause := .none })))
    fun p _ _ => by cases p <;> rfl

theorem LiveEq.stage (h : LiveEq s t) (hp : Running s.phase) : s.stage = t.stage := by
  have hphase : s.phase = t.phase := liveEq_host.phase h
  have hstage : ∀ {x}, Running x.phase → (liveState x).stage = x.stage := fun {x} hx => by
    rcases hx with hx | hx | hx | hx <;> simp only [liveState, hx]
  calc s.stage = (liveState s).stage := (hstage hp).symm
    _ = (liveState t).stage := congrArg State.stage h
    _ = t.stage := hstage (hphase ▸ hp)

/-- No engine step tells states of equal live parts apart. -/
theorem engineStep_liveEq (h : LiveEq s t) :
    AgreeOut LiveEq (engineStep Params.default s) (engineStep Params.default t) := by
  have hphase : s.phase = t.phase := liveEq_host.phase h
  refine engineStep_agree liveAlike_engine hphase (fun hp => ?_) fun _ => h
  have hstage := h.stage hp
  have hright : atPlace s.phase s.stage t = t := by rw [hphase, hstage, atPlace_self]
  exact ⟨hstage, atPlace_self s, hright, by rw [hright, atPlace_self]; exact h⟩

end Sys2Proof.Machine

namespace Sys2Proof.Proofs

open Sys2Proof.Machine

/-- Settles O57: neither an engine step (`liveAlike_engine`) nor a host event (`liveEq_host`) tells states of equal live parts
apart. -/
theorem unspecifiedValuesNeverMatter : Obligations.UnspecifiedValuesNeverMatter :=
  fun _ _ h => (step_agree liveEq_host engineStep_liveEq h).mapNext_eq

end Sys2Proof.Proofs
end

section
/-! PROOFS. Only the rank-ordered view of the distance cache is visible (O58): the relation of equal views is one that no step tells
apart. -/

namespace Sys2Proof.Machine

variable {s t : State}

/-- Equal but for the slots of the cache (R41). -/
def CacheEq (s t : State) : Prop := cacheNormal s = cacheNormal t

/-- Equal views, and each mask a permutation. -/
structure CacheAlike (s t : State) : Prop where
  left : maskIsPermutation s.distMask
  right : maskIsPermutation t.distMask
  view : CacheEq s t

/-! ### The view by ranks -/

/-- The state with its cache replaced. -/
def setCache (mask : BitVec 24) (recent : Vector Word 8) (s : State) : State := { s with distMask := mask, recent := recent }

theorem cacheNormal_eq_setCache (s : State) :
    cacheNormal s = setCache Params.distMaskInit (Vector.ofFn fun r : Fin 8 => cachedDistance s r.val) s := rfl

/-- Under the initial mask rank and slot are the same (R39). -/
theorem rankSlot_init {r : Nat} (hr : r < 8) : (rankSlot Params.distMaskInit r).val = r := by
  have hall : ∀ r : Fin 8, (rankSlot Params.distMaskInit r.val).val = r.val := by decide
  exact hall ⟨r, hr⟩

/-- The view keeps the distance of every rank. -/
theorem cachedDistance_cacheNormal (s : State) {r : Nat} (hr : r < 8) : cachedDistance (cacheNormal s) r = cachedDistance s r := by
  have hslot := rankSlot_init hr
  rw [cacheNormal_eq_setCache]
  simp only [cachedDistance, setCache, Vector.getElem_ofFn, hslot]

/-- States equal outside the cache with equal distances by rank have equal views. -/
theorem cacheNormal_ext (hframe : ∀ mask recent, setCache mask recent s = setCache mask recent t)
    (hdist : ∀ r, r < 8 → cachedDistance s r = cachedDistance t r) : cacheNormal s = cacheNormal t := by
  have hrecent : (Vector.ofFn fun r : Fin 8 => cachedDistance s r.val) = Vector.ofFn fun r : Fin 8 => cachedDistance t r.val :=
    congrArg Vector.ofFn (funext fun r => hdist r.val r.isLt)
  rw [cacheNormal_eq_setCache, cacheNormal_eq_setCache, hrecent, hframe]

theorem setCache_setDistMask (mask mask' : BitVec 24) (recent : Vector Word 8) (s : State) :
    setCache mask recent (setDistMask mask' s) = setCache mask recent s := rfl

theorem setCache_setRecent (mask : BitVec 24) (recent recent' : Vector Word 8) (s : State) :
    setCache mask recent (setRecent recent' s) = setCache mask recent s := rfl

theorem setCache_cacheNormal (mask : BitVec 24) (recent : Vector Word 8) (s : State) :
    setCache mask recent (cacheNormal s) = setCache mask recent s := rfl

/-- The view of a state in which a match's distance has been chosen. -/
theorem cacheNormal_distanceDecoded (d : Word) (s : State) :
    cacheNormal (distanceDecoded d s) = distanceDecoded d (cacheNormal s) := rfl

/-! ### What the view determines -/

theorem cacheAlike_same {β : Type} {f : State → β} (f' : State → β) (hf : ∀ x, f x = f' (cacheNormal x)) :
    SameOn CacheAlike f := fun s t h => by
  rw [hf, hf]
  exact congrArg f' h.view

/-- A change of the state whose view the view determines. -/
theorem cacheAlike_ends {G : State → State} (G' : State → State)
    (hG : ∀ x, maskIsPermutation x.distMask → cacheNormal (G x) = G' (cacheNormal x)) : Keeps CacheAlike CacheEq G := fun s t h => by
  rw [CacheEq, hG s h.left, hG t h.right]
  exact congrArg G' h.view

/-- A change outside the cache. -/
theorem cacheAlike_keeps {G : State → State} (hmask : ∀ x, (G x).distMask = x.distMask)
    (hG : ∀ x, cacheNormal (G x) = G (cacheNormal x)) : Keeps CacheAlike CacheAlike G := fun s t h =>
  { left := (hmask s).symm ▸ h.left
    right := (hmask t).symm ▸ h.right
    view := cacheAlike_ends G (fun x _ => hG x) h }

theorem cacheAlike_input : InputAlike CacheAlike CacheEq where
  compSize := cacheAlike_same State.compSize fun _ => rfl
  inMem := cacheAlike_same State.inMem fun _ => rfl
  srcCur := cacheAlike_same State.srcCur fun _ => rfl
  srcEnd := cacheAlike_same State.srcEnd fun _ => rfl
  advanceSrc := fun _ => cacheAlike_keeps (fun _ => rfl) fun _ => rfl
  fails := fun c => cacheAlike_ends (raiseFailure c) fun _ _ => rfl

theorem cacheAlike_coder : CoderAlike CacheAlike CacheEq :=
  { cacheAlike_input with
    state1 := cacheAlike_same State.state1 fun _ => rfl
    state2 := cacheAlike_same State.state2 fun _ => rfl
    model := fun m => cacheAlike_same (State.model · m) fun _ => by cases m <;> rfl
    setState1 := fun _ => cacheAlike_keeps (fun _ => rfl) fun _ => rfl
    swapStates := cacheAlike_keeps (fun _ => rfl) fun _ => rfl
    setModel := fun m M => cacheAlike_keeps (fun x => setModel_distMask x m M) fun _ => by cases m <;> rfl }

theorem cacheAlike_output : OutputAlike CacheAlike where
  decompSize := cacheAlike_same State.decompSize fun _ => rfl
  dstCur := cacheAlike_same State.dstCur fun _ => rfl
  dstEnd := cacheAlike_same State.dstEnd fun _ => rfl
  outMem := cacheAlike_same State.outMem fun _ => rfl
  outForgotten := cacheAlike_same State.outForgotten fun _ => rfl
  setOut := fun _ => cacheAlike_keeps (fun _ => rfl) fun _ => rfl
  advanceDst := fun _ => cacheAlike_keeps (fun _ => rfl) fun _ => rfl

/-- MTF_UPDATE by ranks depends on the view alone (R226, R41). -/
theorem cacheNormal_mtfUpdate (s : State) {k : Nat} (hk : k < 8) :
    cacheNormal (setDistMask (mtfUpdate s.distMask k) s) =
      cacheNormal (setDistMask (mtfUpdate (cacheNormal s).distMask k) (cacheNormal s)) := by
  refine cacheNormal_ext (fun _ _ => by rw [setCache_setDistMask, setCache_setDistMask, setCache_cacheNormal]) fun r hr => ?_
  rw [cachedDistance_setDistMask s hk hr, cachedDistance_setDistMask (cacheNormal s) hk hr,
    cachedDistance_cacheNormal s (rankBefore_lt hk hr)]

/-- MISS_INSERT by ranks depends on the view alone, where the mask is a permutation (R232, R41). -/
theorem cacheNormal_missInsert (s : State) (d : Word) (hs : maskIsPermutation s.distMask) :
    cacheNormal (setRecent (missInsert s.distMask s.recent d) s) =
      cacheNormal (setRecent (missInsert (cacheNormal s).distMask (cacheNormal s).recent d) (cacheNormal s)) := by
  refine cacheNormal_ext (fun _ _ => by rw [setCache_setRecent, setCache_setRecent, setCache_cacheNormal]) fun r hr => ?_
  rw [cachedDistance_missInsert s d hs hr, cachedDistance_missInsert (cacheNormal s) d distMaskInit_permutes hr,
    cachedDistance_cacheNormal s (show 6 < 8 by omega), cachedDistance_cacheNormal s hr]

/-- DCACHE sees the ranks alone (R225). -/
theorem cacheAlike_dcache {k : Nat} (hk : k < 8) : Keeps CacheAlike CacheEq fun u =>
    distanceDecoded (cachedDistance u k) (setDistMask (mtfUpdate u.distMask k) u) := fun s t h => by
  have hdist : cachedDistance s k = cachedDistance t k := by
    rw [← cachedDistance_cacheNormal s hk, ← cachedDistance_cacheNormal t hk, h.view]
  rw [CacheEq, cacheNormal_distanceDecoded, cacheNormal_distanceDecoded, cacheNormal_mtfUpdate s hk, cacheNormal_mtfUpdate t hk,
    hdist, h.view]

theorem insertDistance_default (d : Word) (s : State) :
    insertDistance Params.default d s = distanceDecoded d (setRecent (missInsert s.distMask s.recent d) s) := rfl

/-- DNEW sees the ranks alone (R230, R232). -/
theorem cacheAlike_insertDistance (d : Word) : Keeps CacheAlike CacheEq (insertDistance Params.default d) := fun s t h => by
  rw [CacheEq, insertDistance_default, insertDistance_default, cacheNormal_distanceDecoded, cacheNormal_distanceDecoded,
    cacheNormal_missInsert s d h.left, cacheNormal_missInsert t d h.right, h.view]

/-- The engine reads the cache by rank and writes it by rank. -/
theorem cacheAlike_engine : EngineAlike (fun _ _ => CacheAlike) CacheEq where
  input := fun _ _ => cacheAlike_input
  coder := fun _ _ => cacheAlike_coder
  output := fun _ _ => cacheAlike_output
  unchanged := fun _ _ _ _ h => h.view
  magicSet := fun _ _ => cacheAlike_keeps (fun _ => rfl) fun _ => rfl
  magicEnd := fun _ => cacheAlike_ends (gotoPhase .qstart) fun _ _ => rfl
  quantumSet := fun _ _ => cacheAlike_keeps (fun _ => rfl) fun _ => rfl
  markerEnd := fun _ q st _ => cacheAlike_ends (fun u => gotoStage st (setQuantumEnd q u)) fun _ _ => rfl
  dstQuantumEnd := fun _ => cacheAlike_same State.dstQuantumEnd fun _ => rfl
  quantumEnd := fun {_ _ next} _ _ => cacheAlike_ends (gotoPhase next) fun _ _ => rfl
  headerEnd := fun x y => cacheAlike_ends (fun u => gotoPhase .qfirst (setFirstLiteral true (setStates x y u))) fun _ _ => rfl
  firstPending := fun _ => cacheAlike_same State.firstLiteralPending fun _ => rfl
  firstWritten := fun _ => cacheAlike_ends (fun u => gotoPhase .qbody (setFirstLiteral false u)) fun _ _ => rfl
  firstSkipped := fun _ => cacheAlike_ends (gotoPhase .qbody) fun _ _ => rfl
  lastCopy := fun _ => cacheAlike_same State.lastCopyOffset fun _ => rfl
  lengthEnd := fun _ len => cacheAlike_ends (lengthDecoded len) fun _ _ => rfl
  cacheEnd := fun _ hk => cacheAlike_dcache hk
  insertEnd := cacheAlike_insertDistance
  copyLength := cacheAlike_same State.copyLength fun _ => rfl
  matchDist := cacheAlike_same State.matchDist fun _ => rfl
  copyEnd := fun d => cacheAlike_ends (fun u => gotoStage .head (setLastCopy d u)) fun _ _ => rfl

theorem hardwareReset_cacheNormal (x : State) :
    hardwareReset Params.default (cacheNormal x) = hardwareReset Params.default x := by
  have hbusy : busy (cacheNormal x) = busy x := rfl
  unfold hardwareReset
  rw [hbusy]
  cases busy x <;> rfl

/-- The host sees nothing of the cache. -/
theorem cacheAlike_host : HostAlike CacheAlike CacheEq where
  phase := cacheAlike_same State.phase fun _ => rfl
  hostScript := cacheAlike_same State.hostScript fun _ => rfl
  compSize := cacheAlike_same State.compSize fun _ => rfl
  decompSize := cacheAlike_same State.decompSize fun _ => rfl
  unchanged := fun _ _ h => h.view
  setScript := fun _ => cacheAlike_keeps (fun _ => rfl) fun _ => rfl
  writeCompSize := fun v => cacheAlike_ends (fun u => { u with compSize := v }) fun _ _ => rfl
  writeDecompSize := fun v => cacheAlike_ends (fun u => { u with decompSize := v }) fun _ _ => rfl
  readCompSize := cacheAlike_ends (fun u => { u with hostData := u.compSize }) fun _ _ => rfl
  readDecompSize := cacheAlike_ends (fun u => { u with hostData := u.decompSize }) fun _ _ => rfl
  readCtrl := cacheAlike_ends (fun u => { u with hostData := 0#32 }) fun _ _ => rfl
  readStatus := cacheAlike_ends (fun u => { u with hostData := statusWord u }) fun _ _ => rfl
  writeIn := fun a b => cacheAlike_ends (fun u => { u with inMem := memWrite u.inMem a b }) fun _ _ => rfl
  readIn := fun a => cacheAlike_ends (fun u => { u with hostData := (inValue u a).setWidth 32 }) fun _ _ => rfl
  writeOut := fun a b => cacheAlike_ends (fun u => { u with outMem := memWrite u.outMem a b }) fun _ _ => rfl
  readOut := fun a => cacheAlike_ends (fun u => { u with hostData := (outValue u a).setWidth 32 }) fun _ _ => rfl
  reset := cacheAlike_ends (fun u => cacheNormal (hardwareReset Params.default u)) fun x _ =>
    congrArg cacheNormal (hardwareReset_cacheNormal x).symm
  startFails := cacheAlike_ends (raiseFailure .precondition) fun _ _ => rfl
  startRuns := cacheAlike_ends
    (fun u => cacheNormal (gotoPhase .magic (initDecoderState Params.default { u with failCause := .none }))) fun _ _ => rfl

/-- No engine step tells states of equal views apart. -/
theorem engineStep_cacheAlike (h : CacheAlike s t) :
    AgreeOut CacheEq (engineStep Params.default s) (engineStep Params.default t) := by
  have hstage : s.stage = t.stage := cacheAlike_same State.stage (fun _ => rfl) h
  exact engineStep_agree cacheAlike_engine (cacheAlike_host.phase h) (fun _ => ⟨hstage, h⟩) fun _ => h.view

end Sys2Proof.Machine

namespace Sys2Proof.Proofs

open Sys2Proof.Machine

/-- Settles O58: DCACHE and DNEW see the ranks alone (`cacheAlike_engine`), the host nothing of the cache (`cacheAlike_host`). -/
theorem cacheSlotsAreInvisible : Obligations.CacheSlotsAreInvisible :=
  fun _ _ hs ht h => (step_agree cacheAlike_host engineStep_cacheAlike ⟨hs, ht, h⟩).mapNext_eq

end Sys2Proof.Proofs
end

section
/-! PROOFS. The two spaces from outside a decode: the host's accesses of IN and OUT (O4) and their refusal while BUSY (O5), and OUT
after a failure (O12). -/

namespace Sys2Proof.Machine

variable {s : State} {a : Word} {b : Byte} {rest : List HostEvent}

/-! ### The host's accesses -/

theorem hostAccess_idle (act : State → State) (h : busy s = false) : hostAccess act s = .next (act s) := by
  simp [hostAccess, h]

theorem hostAccess_busy (act : State → State) (h : busy s = true) : hostAccess act s = .refused .hostAccessWhileBusy := by
  simp only [hostAccess, h, if_true]

/-- The host places a byte of IN (R285 step 2). -/
theorem step_writeIn (hs : s.hostScript = .writeIn a b :: rest) (h : busy s = false) :
    step s = .next { s with inMem := memWrite s.inMem a.toNat b, hostScript := rest } :=
  (step_host hs).trans (hostAccess_idle (fun s => { s with inMem := memWrite s.inMem a.toNat b }) h)

theorem step_readIn (hs : s.hostScript = .readIn a :: rest) (h : busy s = false) :
    step s = .next { s with hostData := (inValue s a.toNat).setWidth 32, hostScript := rest } :=
  (step_host hs).trans (hostAccess_idle (fun s => { s with hostData := (inValue s a.toNat).setWidth 32 }) h)

theorem step_writeOut (hs : s.hostScript = .writeOut a b :: rest) (h : busy s = false) :
    step s = .next { s with outMem := memWrite s.outMem a.toNat b, hostScript := rest } :=
  (step_host hs).trans (hostAccess_idle (fun s => { s with outMem := memWrite s.outMem a.toNat b }) h)

/-- The host reads a byte of OUT (R285 step 7). -/
theorem step_readOut (hs : s.hostScript = .readOut a :: rest) (h : busy s = false) :
    step s = .next { s with hostData := (outValue s a.toNat).setWidth 32, hostScript := rest } :=
  (step_host hs).trans (hostAccess_idle (fun s => { s with hostData := (outValue s a.toNat).setWidth 32 }) h)

/-- A read of a size register is refused while BUSY (R74, log 29). -/
theorem hostReadReg_size_busy {r : HostReg} (hr : r = .compSize ∨ r = .decompSize) (h : busy s = true) :
    hostReadReg r s = .refused .hostAccessWhileBusy := by
  rcases hr with rfl | rfl <;> simp only [hostReadReg, h, if_true]

/-- START is refused while BUSY (R110, R288). -/
theorem execStart_busy (P : Parameters) (h : busy s = true) : execStart s P = .refused .hostAccessWhileBusy := by
  simp only [execStart, h, if_true]

/-! ### The bytes of a space after a host write -/

theorem inValue_write_same (a : Nat) (b : Byte) : inValue { s with inMem := memWrite s.inMem a b } a = b := by
  simp [inValue]

theorem inValue_write_other {a a' : Nat} (b : Byte) (h : a' ≠ a) :
    inValue { s with inMem := memWrite s.inMem a b } a' = inValue s a' := by
  simp [inValue, memRead_memWrite_other _ _ _ _ h]

end Sys2Proof.Machine

namespace Sys2Proof.Proofs

open Sys2Proof.Machine

/-- Settles O4: the write is the first step, the read the second. -/
theorem hostBytesReadBack : Obligations.HostBytesReadBack := by
  intro s a b rest h
  refine ⟨fun hs => ?inSpace, fun hs => ?outSpace⟩
  case inSpace =>
    refine ⟨_, run_two (step_writeIn hs h) (step_readIn rfl h), ?_⟩
    have hbyte := inValue_write_same (s := s) a.toNat b
    exact ⟨congrArg (BitVec.setWidth 32) hbyte, hbyte, fun a' ha' => inValue_write_other b ha', rfl⟩
  case outSpace =>
    refine ⟨_, run_two (step_writeOut hs h) (step_readOut rfl h), ?_⟩
    have hbyte := outValue_write_same s a.toNat b
    exact ⟨congrArg (BitVec.setWidth 32) hbyte, hbyte, fun a' ha' => outValue_write_other s a.toNat a' b ha', rfl⟩

/-- Settles O5, by the kinds of host events that R74 and R288 refuse. -/
theorem hostRefusedWhileBusy : Obligations.HostRefusedWhileBusy := by
  intro s e rest h
  refine ⟨execStart_busy Params.default h, fun hs he => ?_⟩
  rw [step_host hs]
  rcases he with ⟨r, v, rfl⟩ | rfl | rfl | ⟨a, b, rfl⟩ | ⟨a, rfl⟩ | ⟨a, b, rfl⟩ | ⟨a, rfl⟩
  case inl => exact hostWriteReg_busy r v h
  case inr.inl => exact hostReadReg_size_busy (.inl rfl) h
  case inr.inr.inl => exact hostReadReg_size_busy (.inr rfl) h
  all_goals
    simp only [hostTurn]
    exact hostAccess_busy _ h

/-- Settles O12: what `raiseFailure` does to OUT is `forgetOut` (`outValue_forgetOut`), which keeps the bytes listed outside it. -/
theorem failureMakesOutUnspecified : Obligations.FailureMakesOutUnspecified := by
  intro c s
  refine ⟨rfl, rfl, rfl, rfl, rfl, rfl, fun a ha => ?inside, fun a ha => ⟨?outside, ?listed⟩⟩
  case inside => rw [outValue_raiseFailure, outValue_forgetOut, if_pos ha]
  case outside => rw [outValue_raiseFailure, outValue_forgetOut, if_neg (not_lt.mpr ha)]
  case listed => exact memRead_memForget_high _ _ _ ha

end Sys2Proof.Proofs
end

section
/-! PROOFS. No step from the invariant faults (O52): an engine step of a running decode completes (`engineStep_runs`), and no host
event reaches a fault of its own. -/

namespace Sys2Proof.Machine

variable {s : State}

/-- The step does not stop with a fault. -/
def FaultFree (o : Host.Outcome State Fault Refusal) : Prop := ∀ f, o ≠ .fault f

theorem faultFree_next (t : State) : FaultFree (.next t) := fun _ h => by cases h

theorem faultFree_refused (r : Refusal) : FaultFree (.refused r) := fun _ h => by cases h

theorem faultFree_ite {c : Prop} [Decidable c] {o o' : Host.Outcome State Fault Refusal} (ho : FaultFree o) (ho' : FaultFree o') :
    FaultFree (if c then o else o') := by
  split
  · exact ho
  · exact ho'

/-- R69, R95, R140, R213: under the invariant the engine meets no fault. -/
theorem engineStep_faultFree (h : Inv s) : FaultFree (engineStep Params.default s) := by
  cases hb : busy s with
  | false => rw [engineStep_quiet hb]; exact faultFree_next s
  | true =>
    obtain ⟨hground, hp⟩ := (inv_iff_grounded hb).mp h
    obtain ⟨t, ht, -⟩ := engineStep_runs hground hp hb
    rw [ht]
    exact faultFree_next t

theorem execStart_faultFree (P : Parameters) (s : State) : FaultFree (execStart s P) :=
  faultFree_ite (faultFree_refused _) (faultFree_ite (faultFree_next _) (faultFree_next _))

theorem hostWriteReg_faultFree (P : Parameters) (r : HostReg) (v : Word) (s : State) : FaultFree (hostWriteReg P r v s) := by
  cases hb : busy s with
  | true => rw [hostWriteReg_busy r v hb]; exact faultFree_refused _
  | false =>
    cases r with
    | compSize => rw [hostWriteReg_compSize v hb]; exact faultFree_next _
    | decompSize => rw [hostWriteReg_decompSize v hb]; exact faultFree_next _
    | ctrl =>
      obtain rfl | rfl | hv : v = 0#32 ∨ v = 1#32 ∨ 2 ≤ v.toNat := by bv_omega
      · rw [hostWriteReg_ctrl_zero hb]; exact faultFree_next s
      · rw [hostWriteReg_ctrl_one hb]; exact execStart_faultFree P s
      · rw [hostWriteReg_ctrl_reserved hb hv]; exact faultFree_refused _
    | status => rw [hostWriteReg_status v hb]; exact faultFree_refused _

theorem hostReadReg_faultFree (r : HostReg) (s : State) : FaultFree (hostReadReg r s) := by
  cases r with
  | compSize => exact faultFree_ite (faultFree_refused _) (faultFree_next _)
  | decompSize => exact faultFree_ite (faultFree_refused _) (faultFree_next _)
  | ctrl => exact faultFree_next _
  | status => exact faultFree_next _

theorem hostAccess_faultFree (act : State → State) (s : State) : FaultFree (hostAccess act s) :=
  faultFree_ite (faultFree_refused _) (faultFree_next _)

theorem hostTurn_faultFree (e : HostEvent) (h : Inv s) : FaultFree (hostTurn Params.default e s) := by
  cases e with
  | writeReg r v => exact hostWriteReg_faultFree _ r v s
  | readReg r => exact hostReadReg_faultFree r s
  | writeIn | readIn | writeOut | readOut => simp only [hostTurn]; exact hostAccess_faultFree _ s
  | hwReset => exact faultFree_next _
  | engine => exact engineStep_faultFree h
  | await => exact faultFree_ite (engineStep_faultFree (h.setHost (.await :: s.hostScript) s.hostData)) (faultFree_next s)

theorem step_faultFree (h : Inv s) : FaultFree (step s) := by
  cases hs : s.hostScript with
  | nil => rw [step_engine hs]; exact engineStep_faultFree h
  | cons e rest => rw [step_host hs]; exact hostTurn_faultFree e (h.setHost rest s.hostData)

end Sys2Proof.Machine

namespace Sys2Proof.Proofs

open Sys2Proof.Machine

/-- Settles O52: a step is the engine's (`engineStep_faultFree`) or a host event's (`hostTurn_faultFree`). -/
theorem stepNeverFaults : Obligations.StepNeverFaults := fun _ f h => step_faultFree h f

end Sys2Proof.Proofs
end

section
/-! PROOFS. What an engine step can touch, in every state: nothing the host owns and no byte outside OUT (O53); and what it leaves of
the output produced so far, up to the end of the decode (O55). -/

namespace Sys2Proof.Machine

variable {P : Parameters} {s t u : State}

/-! ### Confined changes -/

/-- `t` differs from `s` in the decoder's registers and inside OUT alone (R69, R77). -/
structure Confined (s t : State) : Prop where
  inMem : t.inMem = s.inMem
  compSize : t.compSize = s.compSize
  decompSize : t.decompSize = s.decompSize
  hostScript : t.hostScript = s.hostScript
  hostData : t.hostData = s.hostData
  listed : ∀ a, s.decompSize.toNat ≤ a → memRead t.outMem a = memRead s.outMem a
  epoch : ∀ a, s.decompSize.toNat ≤ a → outEpoch t a = outEpoch s a

theorem Confined.trans (hsu : Confined s u) (hut : Confined u t) : Confined s t where
  inMem := hut.inMem.trans hsu.inMem
  compSize := hut.compSize.trans hsu.compSize
  decompSize := hut.decompSize.trans hsu.decompSize
  hostScript := hut.hostScript.trans hsu.hostScript
  hostData := hut.hostData.trans hsu.hostData
  listed := fun a ha => (hut.listed a (hsu.decompSize ▸ ha)).trans (hsu.listed a ha)
  epoch := fun a ha => (hut.epoch a (hsu.decompSize ▸ ha)).trans (hsu.epoch a ha)

/-- A byte outside OUT reads as before, listed or not. -/
theorem Confined.outValue_eq (h : Confined s t) {a : Nat} (ha : s.decompSize.toNat ≤ a) : outValue t a = outValue s a := by
  rw [outValue, outValue, h.listed a ha, h.epoch a ha]

/-- OUT becomes unspecified only inside the space (R69, R72). -/
theorem confined_raiseFailure (c : FailCause) (s : State) : Confined s (raiseFailure c s) where
  inMem := rfl
  compSize := rfl
  decompSize := rfl
  hostScript := rfl
  hostData := rfl
  listed := fun _ ha => memRead_memForget_high _ _ _ ha
  epoch := fun a ha => by simp [outEpoch, not_lt.mpr ha]

/-! ### A part of a step, and a whole step -/

/-- A part of an operation: it stays in its phase, and if the output produced so far was written before, it is after (R71). -/
structure Interior (s t : State) : Prop where
  confined : Confined s t
  phase : t.phase = s.phase
  written : outWritten s → outWritten t

/-- A whole step: unless it fails, it keeps the output produced so far written (R71), and it ends the decode only with the output
full (R115). -/
structure StepEffect (s t : State) : Prop where
  confined : Confined s t
  written : t.phase ≠ .doneFail → outWritten s → outWritten t
  full : s.phase ≠ .doneOk → t.phase = .doneOk → t.dstEnd ≤ t.dstCur

/-- All of a state that `Interior` speaks of: the host's fields, the spaces, the phase, the cursor of the output. -/
def interiorView (s : State) :=
  (s.inMem, s.compSize, s.decompSize, s.hostScript, s.hostData, s.outMem, s.outForgotten, s.phase, s.dstCur)

/-- A change of other registers is a part of an operation; for a register write of the model the views are equal by `rfl`. -/
theorem Interior.of_view (h : interiorView t = interiorView s) : Interior s t := by
  simp only [interiorView, Prod.mk.injEq] at h
  obtain ⟨hin, hcomp, hdecomp, hscript, hdata, hout, hforgotten, hphase, hcur⟩ := h
  exact
    { confined := ⟨hin, hcomp, hdecomp, hscript, hdata, fun _ _ => by rw [hout], fun _ _ => by rw [outEpoch, outEpoch, hforgotten]⟩
      phase := hphase
      written := fun hw a ha => hout ▸ hw a (hcur ▸ ha) }

theorem Interior.refl (s : State) : Interior s s := .of_view rfl

theorem Interior.trans (hsu : Interior s u) (hut : Interior u t) : Interior s t :=
  ⟨hsu.confined.trans hut.confined, hut.phase.trans hsu.phase, hut.written ∘ hsu.written⟩

/-- A register write after a part of an operation. -/
theorem Interior.andThen (h : Interior s u) (hview : interiorView t = interiorView u) : Interior s t := h.trans (.of_view hview)

theorem Interior.setModel (h : Interior s u) (m : ModelId) (M : AdaptiveModel) : Interior s (u.setModel m M) := by
  cases m <;> exact h.andThen rfl

theorem Interior.stepEffect (h : Interior s t) : StepEffect s t :=
  ⟨h.confined, fun _ => h.written, fun hs ht => absurd (h.phase.symm.trans ht) hs⟩

theorem StepEffect.of_interior (hsu : Interior s u) (hut : StepEffect u t) : StepEffect s t :=
  ⟨hsu.confined.trans hut.confined, fun ht => hut.written ht ∘ hsu.written, fun hs => hut.full (hsu.phase ▸ hs)⟩

/-- A step ends with a register write. -/
theorem Interior.endsWith (h : Interior s u) (hview : interiorView t = interiorView u) : StepEffect s t :=
  (h.andThen hview).stepEffect

/-- A step ends in another phase: in DONE_OK only with the output full. -/
theorem Interior.gotoPhase (h : Interior s u) {p : Phase} (hp : p = .doneOk → u.dstEnd ≤ u.dstCur) :
    StepEffect s (gotoPhase p u) :=
  ⟨{ h.confined with }, fun _ => h.written, fun _ => hp⟩

/-- A step fails: the output is forgotten (R72, R256). -/
theorem Interior.raiseFailure (h : Interior s u) (c : FailCause) : StepEffect s (raiseFailure c u) :=
  ⟨h.confined.trans (confined_raiseFailure c u), fun hne => absurd rfl hne, fun _ h => nomatch h⟩

/-! ### What an operation leads to -/

/-- In a step from `s`, an operation that answers has property `Q`, and one that fails gives the step its effect. -/
def Leads {α : Type} (s : State) (Q : α → Prop) (r : Except Stop α) : Prop :=
  match r with
  | .ok a => Q a
  | .error (.failed t) => StepEffect s t
  | .error (.fault _) => True

theorem leads_ok {α : Type} {Q : α → Prop} {a : α} (h : Q a) : Leads s Q (.ok a) := h

theorem leads_failed {α : Type} {Q : α → Prop} (h : Interior s u) (c : FailCause) :
    Leads s Q (.error (.failed (raiseFailure c u))) := h.raiseFailure c

theorem leads_fault {α : Type} {Q : α → Prop} (f : Fault) : Leads s Q (.error (.fault f)) := trivial

theorem Leads.bind {α β : Type} {r : Except Stop α} {f : α → Except Stop β} {Q : α → Prop} {R : β → Prop}
    (hr : Leads s Q r) (hf : ∀ a, Q a → Leads s R (f a)) : Leads s R (r >>= f) := by
  match r, hr with
  | .ok a, ha => exact hf a ha
  | .error (.failed _), hs => exact hs
  | .error (.fault _), _ => trivial

theorem Leads.imp {α : Type} {r : Except Stop α} {Q R : α → Prop} (hr : Leads s Q r) (h : ∀ a, Q a → R a) : Leads s R r := by
  match r, hr with
  | .ok a, ha => exact h a ha
  | .error (.failed _), hs => exact hs
  | .error (.fault _), _ => trivial

theorem leads_ite {α : Type} {c : Prop} [Decidable c] {r r' : Except Stop α} {Q : α → Prop} (hr : Leads s Q r)
    (hr' : Leads s Q r') : Leads s Q (if c then r else r') := by
  split
  · exact hr
  · exact hr'

/-- Every state an outcome goes on in is the effect of a step from `s`. -/
def HasEffect (s : State) (o : Host.Outcome State Fault Refusal) : Prop := ∀ t, o = .next t → StepEffect s t

theorem hasEffect_next (h : StepEffect s t) : HasEffect s (.next t) := by
  rintro _ ⟨⟩
  exact h

theorem Leads.hasEffect {r : Except Stop State} (h : Leads s (StepEffect s) r) : HasEffect s (conclude r) := by
  match r, h with
  | .ok t, ht => exact hasEffect_next ht
  | .error (.failed t), ht => exact hasEffect_next ht
  | .error (.fault f), _ => exact fun _ ht => by cases ht

theorem HasEffect.of_interior {o : Host.Outcome State Fault Refusal} (hsu : Interior s u) (h : HasEffect u o) : HasEffect s o :=
  fun t ht => StepEffect.of_interior hsu (h t ht)

/-! ### The input and the coder -/

theorem inByte_leads (a : Nat) : Leads s (fun _ => True) (inByte a u) :=
  leads_ite (leads_ok trivial) (leads_fault _)

theorem peek16_leads (h : Interior s u) : Leads s (fun _ => True) (peek16 P u) :=
  leads_ite (leads_failed h _) ((inByte_leads _).bind fun _ _ => (inByte_leads _).bind fun _ _ => leads_ok trivial)

theorem readUnit_leads (h : Interior s u) : Leads s (fun a => Interior s a.2) (readUnit P u) :=
  (peek16_leads h).bind fun _ _ => leads_ok (h.andThen rfl)

theorem renormalize_leads (h : Interior s u) : Leads s (Interior s) (renormalize P u) :=
  leads_ite ((readUnit_leads h).bind fun _ hread => leads_ok (hread.andThen rfl)) (leads_ok (h.andThen rfl))

theorem rawBits_leads (k : Nat) (h : Interior s u) : Leads s (fun a => Interior s a.2) (rawBits P k u) :=
  (renormalize_leads (u := setState1 (u.state1 >>> k) u) (h.andThen rfl)).bind fun _ hrenorm => leads_ok hrenorm

theorem decodeSymbol_leads (m : ModelId) (h : Interior s u) : Leads s (fun a => Interior s a.2) (decodeSymbol P m u) := by
  unfold decodeSymbol
  split
  · exact leads_fault _
  · have hstate : ∀ v, Interior s (setState1 v u) := fun v => h.andThen rfl
    exact leads_ok ((hstate _).setModel m _)

theorem decodeAndRenorm_leads (m : ModelId) (h : Interior s u) : Leads s (fun a => Interior s a.2) (decodeAndRenorm P m u) :=
  (decodeSymbol_leads m h).bind fun _ hdecode => (renormalize_leads hdecode).bind fun _ hrenorm => leads_ok hrenorm

theorem pullIfLow_leads (x : Word) (h : Interior s u) : Leads s (fun a => Interior s a.2) (pullIfLow P x u) :=
  leads_ite ((readUnit_leads h).bind fun _ hread => leads_ok hread) (leads_ok h)

theorem loadStates_leads (v : Word) (h : Interior s u) : Leads s (Interior s) (loadStates P v u) :=
  (pullIfLow_leads _ h).bind fun _ ha => (pullIfLow_leads _ ha).bind fun _ hx => (readUnit_leads hx).bind fun _ hx3 =>
    leads_ok (hx3.andThen rfl)

theorem longBits_leads (nb bits : Nat) (h : Interior s u) : Leads s (fun a => Interior s a.2) (longBits P nb bits u) :=
  leads_ite (leads_ok h) ((readUnit_leads h).bind fun _ hread => leads_ok hread)

/-! ### Writes of OUT -/

/-- From `s` to `t` the `n` bytes of OUT from `dst` on are written, listed bytes stay listed, and nothing else changes but bytes
inside OUT. -/
structure WritesBlock (dst n : Nat) (s t : State) : Prop where
  frame : t = setOut t.outMem s
  outside : ∀ a, s.decompSize.toNat ≤ a → memRead t.outMem a = memRead s.outMem a
  kept : ∀ a, (memRead s.outMem a).isSome = true → (memRead t.outMem a).isSome = true
  block : ∀ a, dst ≤ a → a < dst + n → (memRead t.outMem a).isSome = true

theorem writesBlock_nil (dst : Nat) (s : State) : WritesBlock dst 0 s s :=
  ⟨rfl, fun _ _ => rfl, fun _ h => h, fun a h1 h2 => by omega⟩

theorem writesBlock_one {a : Nat} (b : Byte) (ha : a < s.decompSize.toNat) :
    WritesBlock a 1 s (setOut (memWrite s.outMem a b) s) where
  frame := rfl
  outside := fun a' ha' => memRead_memWrite_other _ _ _ _ (by omega)
  kept := fun a' ha' => by
    by_cases heq : a' = a
    · simp [heq]
    · rw [setOut_outMem, memRead_memWrite_other _ _ _ _ heq]
      exact ha'
  block := fun a' hlow hhigh => by
    obtain rfl : a' = a := by omega
    simp

theorem WritesBlock.cons {dst n : Nat} (hsu : WritesBlock dst 1 s u) (hut : WritesBlock (dst + 1) n u t) :
    WritesBlock dst (n + 1) s t where
  frame := by rw [hut.frame, hsu.frame]; rfl
  outside := fun a ha => by
    have hu : u.decompSize = s.decompSize := by rw [hsu.frame]; rfl
    exact (hut.outside a (hu ▸ ha)).trans (hsu.outside a ha)
  kept := fun a ha => hut.kept a (hsu.kept a ha)
  block := fun a hlow hhigh => by
    by_cases hfirst : a < dst + 1
    · exact hut.kept a (hsu.block a hlow hfirst)
    · exact hut.block a (by omega) (by omega)

theorem WritesBlock.confined {dst n : Nat} (h : WritesBlock dst n s t) : Confined s t where
  inMem := by rw [h.frame]; rfl
  compSize := by rw [h.frame]; rfl
  decompSize := by rw [h.frame]; rfl
  hostScript := by rw [h.frame]; rfl
  hostData := by rw [h.frame]; rfl
  listed := h.outside
  epoch := fun a _ => by rw [h.frame]; rfl

/-- A block written at the cursor, which then moves past it (R71); should the cursor wrap, it only gets smaller. -/
theorem WritesBlock.interior {n : Nat} (h : WritesBlock s.dstCur.toNat n s t) : Interior s (advanceDst n t) where
  confined := { h.confined with }
  phase := by rw [h.frame]; rfl
  written := fun hw a ha => by
    have hcur : t.dstCur = s.dstCur := by rw [h.frame]; rfl
    have hmove : (advanceDst n t).dstCur.toNat ≤ s.dstCur.toNat + n := by
      rw [advanceDst_dstCur, hcur, BitVec.toNat_add, BitVec.toNat_ofNat]
      omega
    by_cases hold : a < s.dstCur.toNat
    · exact h.kept a (hw a hold)
    · exact h.block a (by omega) (by omega)

theorem outWrite_leads (a : Nat) (b : Byte) : Leads s (WritesBlock a 1 u) (outWrite a b u) := by
  unfold outWrite
  split
  · exact leads_ok (writesBlock_one b ‹_›)
  · exact leads_fault _

theorem outByteBack_leads (pos d : Nat) : Leads s (fun _ => True) (outByteBack pos d u) :=
  leads_ite (leads_fault _) (leads_ite (leads_ok trivial) (leads_fault _))

/-- The loops of R182 and R235: a byte that some read gives, then the rest of the block. -/
theorem writeThen_leads {n dst : Nat} {read : Except Stop Byte} {rest : State → Except Stop State}
    (hread : Leads s (fun _ => True) read) (hrest : ∀ v, Leads s (WritesBlock (dst + 1) n v) (rest v)) :
    Leads s (WritesBlock dst (n + 1) u) (read >>= fun b => outWrite dst b u >>= rest) :=
  hread.bind fun b _ => (outWrite_leads dst b).bind fun v hv => (hrest v).imp fun _ => hv.cons

theorem copyFromIn_leads (n : Nat) : ∀ (src dst : Nat) (u : State), Leads s (WritesBlock dst n u) (copyFromIn n src dst u) := by
  induction n with
  | zero => exact fun _ dst u => leads_ok (writesBlock_nil dst u)
  | succ n ih => exact fun src dst u => writeThen_leads (inByte_leads src) (ih (src + 1) (dst + 1))

theorem copyWithinOut_leads (n : Nat) : ∀ (dst d : Nat) (u : State), Leads s (WritesBlock dst n u) (copyWithinOut n dst d u) := by
  induction n with
  | zero => exact fun dst _ u => leads_ok (writesBlock_nil dst u)
  | succ n ih => exact fun dst d u => writeThen_leads (outByteBack_leads dst d) (ih (dst + 1) d)

/-! ### The operations the engine fetches -/

/-- AfterQuantum ends the decode only where no output is left (R115). -/
theorem afterQuantum_leads (h : Interior s u) : Leads s (StepEffect s) (afterQuantum Params.default u) := by
  rw [afterQuantum_default]
  split
  · exact leads_ok (h.gotoPhase fun hp => nomatch hp)
  · exact leads_ok (h.gotoPhase fun _ => BitVec.not_lt.mp ‹_›)

theorem execMagic_effect (s : State) : HasEffect s (execMagic s P) := by
  have hset : Interior s (setSrcCur P.magicOffset s) := .of_view rfl
  refine ((readUnit_leads hset).bind fun _ hread => ?_).hasEffect
  exact leads_ite (leads_ok (hread.gotoPhase fun hp => nomatch hp)) (leads_failed hread _)

theorem execQstart_effect (s : State) : HasEffect s (execQstart s P) := by
  have hset : Interior s (setQuantumEnd (nextQuantumEnd P s) s) := .of_view rfl
  refine ((peek16_leads hset).bind fun marker _ => ?_).hasEffect
  exact leads_ite (leads_ok (hset.endsWith rfl)) (leads_ok (hset.endsWith rfl))

theorem execQraw_effect (s : State) : HasEffect s (execQraw s Params.default) := by
  have hread : Interior s (advanceSrc 2 s) := .of_view rfl
  refine (leads_ite (leads_failed hread _) ((copyFromIn_leads _ _ _ _).bind fun u hu => ?_)).hasEffect
  exact afterQuantum_leads ((hread.trans hu.interior).andThen rfl)

theorem execQhdr_effect (s : State) : HasEffect s (execQhdr s P) := by
  refine ((readUnit_leads (.refl s)).bind fun _ hw0 => (readUnit_leads hw0).bind fun _ hw1 => ?_).hasEffect
  refine leads_ite (leads_failed hw1 _) ((loadStates_leads _ hw1).bind fun u hu => leads_ok ?_)
  exact Interior.gotoPhase (u := setFirstLiteral true u) (hu.andThen rfl) fun hp => nomatch hp

theorem execFirstlit_effect (s : State) : HasEffect s (execFirstlit s P) := by
  refine (leads_ite ((rawBits_leads 8 (.refl s)).bind fun ⟨b, u⟩ hbits => ?_) ?_).hasEffect
  · refine (outWrite_leads _ _).bind fun v hv => leads_ok ?_
    exact Interior.gotoPhase (u := setFirstLiteral false (advanceDst 1 v)) ((hbits.trans hv.interior).andThen rfl)
      fun hp => nomatch hp
  · exact leads_ok ((Interior.refl s).gotoPhase fun hp => nomatch hp)

theorem execQend_effect (s : State) : HasEffect s (execQend s Params.default) :=
  (leads_ite (leads_failed (.refl s) _) (afterQuantum_leads (.refl s))).hasEffect

theorem execLit_effect (delta : BitVec 8) (s : State) : HasEffect s (execLit delta s) :=
  ((outByteBack_leads _ _).bind fun _ _ => (outWrite_leads _ _).bind fun _ hu => leads_ok hu.interior.stepEffect).hasEffect

theorem execMatchs_effect (code : BitVec 5) (s : State) : HasEffect s (execMatchs code s) :=
  hasEffect_next ((Interior.refl s).endsWith rfl)

theorem execMatchx_effect (code : BitVec 4) (s : State) : HasEffect s (execMatchx code s P) := by
  rw [execMatchx]
  generalize extendedBits (288 + code.toNat) = nb
  refine ((rawBits_leads nb (.refl s)).bind fun ⟨extra, _⟩ hbits => ?_).hasEffect
  exact leads_ok (hbits.endsWith (t := lengthDecoded (extendedLength nb extra) _) rfl)

theorem execDcache_effect (rank : BitVec 3) (s : State) : HasEffect s (execDcache rank s P) :=
  hasEffect_next ((Interior.refl s).endsWith rfl)

/-- DNEW in any of its three rows (R230). -/
theorem newDistanceOp_effect (osym : Nat) (s : State) : HasEffect s (conclude (newDistanceOp P osym s)) := by
  refine ((decodeAndRenorm_leads .obl (.refl s)).bind fun _ hnb => (rawBits_leads _ hnb).bind fun _ hbits => ?_).hasEffect
  exact (longBits_leads _ _ hbits).bind fun _ hlong => leads_ok (hlong.endsWith rfl)

theorem execCopy_effect (len dist : Word) (s : State) : HasEffect s (execCopy len dist s) := by
  refine (leads_ite (leads_failed (.refl s) _) (leads_ite (leads_failed (.refl s) _) ?_)).hasEffect
  exact (copyWithinOut_leads _ _ _ s).bind fun _ hu => leads_ok (hu.interior.endsWith rfl)

/-! ### The engine step -/

theorem engineStep_effect_of_run {i : Instr} (hf : fetch P s = .run i s) (h : HasEffect s (execUnder P i s)) :
    HasEffect s (engineStep P s) := by
  rw [engineStep_run hf]
  exact h

/-- A step that fetches a symbol has the effect of what the symbol selects. -/
theorem engineStep_effect_of_symbol {m : ModelId} {f : Format} (hf : fetch P s = fetchSymbol P m f s)
    (hop : ∀ sym i u, decode f sym = .ok i → HasEffect u (execUnder P i u)) : HasEffect s (engineStep P s) := by
  have hdecode := decodeAndRenorm_leads (P := P) m (.refl s)
  match hr : decodeAndRenorm P m s, hdecode with
  | .ok (sym, u), hu =>
    match hi : decode f sym with
    | .ok i =>
      rw [engineStep_run (hf.trans (fetchSymbol_run hr hi))]
      exact HasEffect.of_interior hu (hop sym i u hi)
    | .error _ => simp [HasEffect, engineStep, hf, fetchSymbol, hr, hi]
  | .error (.failed u), hu =>
    simp only [engineStep, hf, fetchSymbol, hr, conclude_failed]
    exact hasEffect_next hu
  | .error (.fault _), _ => simp [HasEffect, engineStep, hf, fetchSymbol, hr]

theorem engineStep_effect_literal (hf : fetch P s = fetchSymbol P (.lit (modelIndex s.dstCur)) .litSym s) :
    HasEffect s (engineStep P s) := by
  refine engineStep_effect_of_symbol hf fun sym i u hi => ?_
  obtain ⟨delta, rfl⟩ | ⟨code, rfl⟩ | ⟨code, rfl⟩ := decode_litSym_inv hi
  · exact execLit_effect delta u
  · exact execMatchs_effect code u
  · exact execMatchx_effect code u

theorem engineStep_effect_distance (hf : fetch P s = fetchSymbol P (.offLow (modelIndex s.dstCur)) .offSym s) :
    HasEffect s (engineStep P s) := by
  refine engineStep_effect_of_symbol hf fun sym i u hi => ?_
  obtain ⟨rank, rfl⟩ | ⟨code, rfl⟩ | ⟨code, rfl⟩ | ⟨code, rfl⟩ := decode_offSym_inv hi
  · exact execDcache_effect rank u
  all_goals exact newDistanceOp_effect _ u

/-- In the body outside a match: QEND where the quantum is full, a literal symbol elsewhere (R192). -/
theorem engineStep_effect_body (hf : fetch Params.default s = if s.dstCur < s.dstQuantumEnd
    then fetchSymbol Params.default (.lit (modelIndex s.dstCur)) .litSym s else .run .qend s) :
    HasEffect s (engineStep Params.default s) := by
  split at hf
  · exact engineStep_effect_literal hf
  · exact engineStep_effect_of_run hf (execQend_effect s)

/-- The effect of an engine step, by phase and stage; the invariant is not needed. -/
theorem engineStep_effect (s : State) : HasEffect s (engineStep Params.default s) := by
  cases hp : s.phase
  case idle | doneOk | doneFail =>
    rw [engineStep_quiet (by simp only [busy, hp])]
    exact hasEffect_next (Interior.refl s).stepEffect
  case magic => exact engineStep_effect_of_run (fetch_magic hp) (execMagic_effect s)
  case qfirst => exact engineStep_effect_of_run (fetch_firstlit hp) (execFirstlit_effect s)
  case qstart =>
    cases hg : s.stage
    case raw => exact engineStep_effect_of_run (fetch_qraw hp hg) (execQraw_effect s)
    case coded => exact engineStep_effect_of_run (fetch_qhdr hp hg) (execQhdr_effect s)
    case head | distance | copy =>
      exact engineStep_effect_of_run (i := .qstart) (by simp only [fetch, hp, hg]) (execQstart_effect s)
  case qbody =>
    cases hg : s.stage
    case distance => exact engineStep_effect_distance (fetch_distance hp hg)
    case copy => exact engineStep_effect_of_run (fetch_copy hp hg) (execCopy_effect _ _ s)
    case head | raw | coded => exact engineStep_effect_body (by simp only [fetch, hp, hg])

end Sys2Proof.Machine

namespace Sys2Proof.Proofs

open Sys2Proof.Machine

/-- Settles O53: every engine step is `Confined`. -/
theorem engineTouchesOnlyOutput : Obligations.EngineTouchesOnlyOutput := by
  intro s t ht
  have hc := (engineStep_effect s t ht).confined
  exact ⟨hc.inMem, hc.compSize, hc.decompSize, hc.hostScript, hc.hostData, fun a ha => ⟨hc.listed a ha, hc.outValue_eq ha⟩⟩

/-- Settles O55: a step that does not fail keeps the output written up to the cursor, and at DONE_OK the cursor stands at the end of
the output (`engineStep_effect`), which the invariant places at DECOMP_SIZE. -/
theorem doneOkMeansOutputFull : Obligations.DoneOkMeansOutputFull := by
  intro s t h hw hb ht
  have heffect := engineStep_effect s t ht
  have hwritten : t.phase ≠ .doneFail → outWritten t := fun hne => heffect.written hne hw
  refine ⟨fun hrunning => hwritten ?running, fun hdone a ha => ?full⟩
  case running =>
    rcases hrunning with hbusy | hdone
    · exact ((busy_iff t).mp hbusy).2.2
    · simp [hdone]
  case full =>
    have hsize : t.decompSize.toNat ≤ t.dstCur.toNat := by
      rcases engineStep_next h hb ht with hfailed | hadv
      · exact absurd (hfailed.phase.symm.trans hdone) (by decide)
      · rw [← hadv.grounded.dstEnd_eq]
        exact BitVec.le_def.mp (heffect.full ((busy_iff s).mp hb).2.1 hdone)
    exact hwritten (by simp [hdone]) a (ha.trans_le hsize)

end Sys2Proof.Proofs
end

section
/-! PROOFS. The encoding table (R82 to R89, R101) read both ways: the word of every operand of a row decodes to the row's operation
(O46, O47), and a symbol of the literal or OffsetLow alphabet is the word of the one operation it decodes to (O48). Each row of a
symbol alphabet is a base and a field of `n` bits. -/

namespace Sys2Proof

variable {w base n : Nat} {i : Instr}

/-! ### A field above the base of its row -/

theorem ofNat_base_add_sub (base : Nat) (x : BitVec n) : BitVec.ofNat n (base + x.toNat - base) = x := by
  rw [Nat.add_sub_cancel_left, BitVec.ofNat_toNat, BitVec.setWidth_eq]

theorem base_add_toNat_ofNat_sub (hbase : base ≤ w) (hroom : w < base + 2 ^ n) :
    base + (BitVec.ofNat n (w - base)).toNat = w := by
  rw [BitVec.toNat_ofNat, Nat.mod_eq_of_lt (Nat.sub_lt_left_of_lt_add hbase hroom), Nat.add_sub_cancel' hbase]

/-! ### The rows of the literal alphabet (R87) -/

theorem decode_litRow (h : w < 256) : decode .litSym w = .ok (.lit (BitVec.ofNat 8 w)) := by
  simp only [decode, h, if_true]

theorem decode_matchsRow (hbase : 256 ≤ w) (h : w < 288) : decode .litSym w = .ok (.matchs (BitVec.ofNat 5 (w - 256))) := by
  simp only [decode, hbase.not_gt, h, if_true, if_false]

theorem decode_matchxRow (hbase : 288 ≤ w) (h : w < 300) : decode .litSym w = .ok (.matchx (BitVec.ofNat 4 (w - 288))) := by
  simp only [decode, hbase.not_gt, show ¬ w < 256 by omega, h, if_true, if_false]

theorem decode_litSym_outside (h : 300 ≤ w) : decode .litSym w = .error .outsideLiteralAlphabet := by
  simp only [decode, h.not_gt, show ¬ w < 256 by omega, show ¬ w < 288 by omega, if_false]

/-! ### The rows of the OffsetLow alphabet (R88) -/

theorem decode_dcacheRow (h : w < 8) : decode .offSym w = .ok (.dcache (BitVec.ofNat 3 w)) := by
  simp only [decode, h, if_true]

theorem decode_dnewLowRow (hbase : 8 ≤ w) (h : w < 16) : decode .offSym w = .ok (.dnewLow (BitVec.ofNat 3 (w - 8))) := by
  simp only [decode, hbase.not_gt, h, if_true, if_false]

theorem decode_dnewMidRow (hbase : 16 ≤ w) (h : w < 32) : decode .offSym w = .ok (.dnewMid (BitVec.ofNat 4 (w - 16))) := by
  simp only [decode, hbase.not_gt, show ¬ w < 8 by omega, h, if_true, if_false]

theorem decode_dnewHighRow (hbase : 32 ≤ w) (h : w < 40) : decode .offSym w = .ok (.dnewHigh (BitVec.ofNat 3 (w - 32))) := by
  simp only [decode, hbase.not_gt, show ¬ w < 8 by omega, show ¬ w < 16 by omega, h, if_true, if_false]

theorem decode_offSym_outside (h : 40 ≤ w) : decode .offSym w = .error .outsideOffsetLowAlphabet := by
  simp only [decode, h.not_gt, show ¬ w < 8 by omega, show ¬ w < 16 by omega, show ¬ w < 32 by omega, if_false]

/-! ### The OffsetBitLength alphabet (R89) -/

theorem decode_oblRow (h : w < 21) : decode .oblSym w = .ok .nbits := by
  simp only [decode, h, if_true]

theorem decode_oblSym_outside (h : 21 ≤ w) : decode .oblSym w = .error .outsideBitLengthAlphabet := by
  simp only [decode, h.not_gt, if_false]

/-! ### From an operand to its word and back -/

theorem decode_litWord (delta : BitVec 8) : decode .litSym delta.toNat = .ok (.lit delta) := by
  rw [decode_litRow delta.isLt, BitVec.ofNat_toNat, BitVec.setWidth_eq]

theorem decode_matchsWord (code : BitVec 5) : decode .litSym (256 + code.toNat) = .ok (.matchs code) := by
  rw [decode_matchsRow (by omega) (by omega), ofNat_base_add_sub]

theorem decode_matchxWord {code : BitVec 4} (h : code.toNat ≤ 11) : decode .litSym (288 + code.toNat) = .ok (.matchx code) := by
  rw [decode_matchxRow (by omega) (by omega), ofNat_base_add_sub]

theorem decode_dcacheWord (rank : BitVec 3) : decode .offSym rank.toNat = .ok (.dcache rank) := by
  rw [decode_dcacheRow rank.isLt, BitVec.ofNat_toNat, BitVec.setWidth_eq]

theorem decode_dnewLowWord (code : BitVec 3) : decode .offSym (8 + code.toNat) = .ok (.dnewLow code) := by
  rw [decode_dnewLowRow (by omega) (by omega), ofNat_base_add_sub]

theorem decode_dnewMidWord (code : BitVec 4) : decode .offSym (16 + code.toNat) = .ok (.dnewMid code) := by
  rw [decode_dnewMidRow (by omega) (by omega), ofNat_base_add_sub]

theorem decode_dnewHighWord (code : BitVec 3) : decode .offSym (32 + code.toNat) = .ok (.dnewHigh code) := by
  rw [decode_dnewHighRow (by omega) (by omega), ofNat_base_add_sub]

/-! ### From a symbol to its operation and back -/

theorem wf_matchx_iff {code : BitVec 4} : (Instr.matchx code).wf = true ↔ code.toNat ≤ 11 := decide_eq_true_iff

/-- A literal symbol is the word of one operation; MATCHX's row ends at 299, so its code is at most 11. -/
theorem wf_and_encode_of_decode_litSym (h : decode .litSym w = .ok i) : i.wf = true ∧ encode i = some (.litSym, w) := by
  rcases lt_or_ge w 256 with hlit | hlit
  · cases (decode_litRow hlit).symm.trans h
    exact ⟨rfl, by rw [encode, BitVec.toNat_ofNat, Nat.mod_eq_of_lt hlit]⟩
  rcases lt_or_ge w 288 with hshort | hshort
  · cases (decode_matchsRow hlit hshort).symm.trans h
    exact ⟨rfl, by rw [encode, base_add_toNat_ofNat_sub hlit hshort]⟩
  rcases lt_or_ge w 300 with hext | hext
  · cases (decode_matchxRow hshort hext).symm.trans h
    have hword : 288 + (BitVec.ofNat 4 (w - 288)).toNat = w := base_add_toNat_ofNat_sub hshort (by omega)
    exact ⟨wf_matchx_iff.mpr (by omega), by rw [encode, hword]⟩
  · cases (decode_litSym_outside hext).symm.trans h

theorem wf_and_encode_of_decode_offSym (h : decode .offSym w = .ok i) : i.wf = true ∧ encode i = some (.offSym, w) := by
  rcases lt_or_ge w 8 with hcache | hcache
  · cases (decode_dcacheRow hcache).symm.trans h
    exact ⟨rfl, by rw [encode, BitVec.toNat_ofNat, Nat.mod_eq_of_lt hcache]⟩
  rcases lt_or_ge w 16 with hlow | hlow
  · cases (decode_dnewLowRow hcache hlow).symm.trans h
    exact ⟨rfl, by rw [encode, base_add_toNat_ofNat_sub hcache hlow]⟩
  rcases lt_or_ge w 32 with hmid | hmid
  · cases (decode_dnewMidRow hlow hmid).symm.trans h
    exact ⟨rfl, by rw [encode, base_add_toNat_ofNat_sub hlow hmid]⟩
  rcases lt_or_ge w 40 with hhigh | hhigh
  · cases (decode_dnewHighRow hmid hhigh).symm.trans h
    exact ⟨rfl, by rw [encode, base_add_toNat_ofNat_sub hmid hhigh]⟩
  · cases (decode_offSym_outside hhigh).symm.trans h

end Sys2Proof

namespace Sys2Proof.Proofs

/-- Settles O47, row by row: an operation of a symbol alphabet by the lemma of its row, the others have one fixed word or none. -/
theorem decodeOfEncode : Obligations.DecodeOfEncode := by
  intro i f w hwf hword
  cases i with
  | start | magic | qraw | qhdr | nbits => cases hword; rfl
  | lit delta => cases hword; exact decode_litWord delta
  | matchs code => cases hword; exact decode_matchsWord code
  | matchx code => cases hword; exact decode_matchxWord (wf_matchx_iff.mp hwf)
  | dcache rank => cases hword; exact decode_dcacheWord rank
  | dnewLow code => cases hword; exact decode_dnewLowWord code
  | dnewMid code => cases hword; exact decode_dnewMidWord code
  | dnewHigh code => cases hword; exact decode_dnewHighWord code
  | qstart | firstlit | qend | copy | decodesym | rebuild | renorm | rawbits | read16 => cases hword

/-- Settles O48, one lemma for each alphabet. -/
theorem symbolWordsHaveOneMeaning : Obligations.SymbolWordsHaveOneMeaning := by
  rintro f w i (rfl | rfl) h
  · exact wf_and_encode_of_decode_litSym h
  · exact wf_and_encode_of_decode_offSym h

/-- Settles O46: each written word is the word of its row at that operand, and the first symbol past each alphabet is outside it. -/
theorem writtenWordsDecode : Obligations.WrittenWordsDecode :=
  ⟨rfl, rfl, decode_litWord 0x41#8, decode_matchsWord 3#5, decode_matchxWord (code := 11#4) le_rfl, decode_dcacheWord 6#3,
    decode_dnewLowWord 2#3, decode_dnewMidWord 9#4, decode_dnewHighWord 7#3, decode_oblRow (by decide),
    decode_litSym_outside le_rfl, decode_offSym_outside le_rfl, decode_oblSym_outside le_rfl⟩

end Sys2Proof.Proofs
end

section
/-! PROOFS. The match lengths (R91): an extended length less 32 is `2 ^ nb` and a remainder below it, so `nb` is its binary logarithm
(O26). -/

namespace Sys2Proof.Machine

theorem shortLength_eq_iff {sym len : Nat} (h : 256 ≤ sym) : shortLength sym = len ↔ sym = len + 254 := by
  unfold shortLength
  omega

theorem extendedLength_eq (nb extra : Nat) : extendedLength nb extra = extra + 2 ^ nb + 32 := by
  unfold extendedLength
  rw [Nat.shiftLeft_eq]
  omega

/-- A length and its `nb` and `extra` determine each other: `nb` is the place of the highest set bit of `len - 32`. -/
theorem extendedLength_eq_iff {nb extra len : Nat} (hlen : 33 ≤ len) :
    extra < 2 ^ nb ∧ extendedLength nb extra = len ↔ nb = Nat.log 2 (len - 32) ∧ extra = len - 32 - 2 ^ nb := by
  have hlog : Nat.log 2 (len - 32) = nb ↔ 2 ^ nb ≤ len - 32 ∧ len - 32 < 2 ^ (nb + 1) :=
    Nat.log_eq_iff (.inr ⟨one_lt_two, by omega⟩)
  rw [extendedLength_eq, eq_comm (a := nb), hlog, pow_succ]
  omega

end Sys2Proof.Machine

namespace Sys2Proof.Proofs

open Sys2Proof.Machine

/-- Settles O26: a length of MATCHX has the `nb` and the `extra` of `extendedLength_eq_iff` and no others. -/
theorem matchLengthsTile : Obligations.MatchLengthsTile := by
  refine ⟨?short, extendedLength_eq, ?bits, ?tile⟩
  case short =>
    intro len
    constructor
    · rintro ⟨sym, hlow, hhigh, hlen⟩
      rw [shortLength_eq_iff hlow] at hlen
      omega
    · rintro ⟨hlow, hhigh⟩
      exact ⟨len + 254, by omega, by omega, (shortLength_eq_iff (by omega)).mpr rfl⟩
  case bits =>
    intro sym hlow hhigh
    unfold extendedBits
    omega
  case tile =>
    intro len hlow hhigh
    have hpos : 1 ≤ Nat.log 2 (len - 32) := Nat.log_pos one_lt_two (by omega)
    have hmax : Nat.log 2 (len - 32) < 13 := Nat.log_lt_of_lt_pow (by omega) (by omega)
    have hsplit {nb extra : Nat} := extendedLength_eq_iff (nb := nb) (extra := extra) (len := len) (by omega)
    refine ⟨(Nat.log 2 (len - 32), len - 32 - 2 ^ Nat.log 2 (len - 32)), ?_, ?_⟩
    · exact ⟨hpos, Nat.le_of_lt_succ hmax, hsplit.mpr ⟨rfl, rfl⟩⟩
    · rintro ⟨nb, extra⟩ ⟨-, -, hq⟩
      obtain ⟨hnb, hextra⟩ : nb = Nat.log 2 (len - 32) ∧ extra = len - 32 - 2 ^ nb := hsplit.mp hq
      rw [hextra, hnb]

end Sys2Proof.Proofs
end

section
/-! PROOFS. A decode ends (O56). Each engine step goes along one edge of the operation grammar of R99, and either the place it leads
to has fewer operations before the next byte of output, or output is produced; `stepsLeft` falls by at least one either way (R118). -/

namespace Sys2Proof.Machine

variable {s t u : State}

/-! ### The edges of the grammar -/

/-- One engine step in the grammar of R99 (log 2): from a phase and stage, with so many bytes of output, to the next. -/
inductive Edge : Phase → Stage → Nat → Phase → Stage → Prop where
  | magic {g : Stage} : Edge .magic g 0 .qstart .head
  | marker {g : Stage} (hg : g = .raw ∨ g = .coded) : Edge .qstart .head 0 .qstart g
  | rawBlock {n : Nat} {p : Phase} (hn : 1 ≤ n) (hp : QuantumNext p) : Edge .qstart .raw n p .head
  | header : Edge .qstart .coded 0 .qfirst .head
  | firstLiteral {g : Stage} : Edge .qfirst g 1 .qbody .head
  | quantumEnd {p : Phase} (hp : QuantumNext p) : Edge .qbody .head 0 p .head
  | literal : Edge .qbody .head 1 .qbody .head
  | length : Edge .qbody .head 0 .qbody .distance
  | distance : Edge .qbody .distance 0 .qbody .copy
  | copy {n : Nat} (hn : 1 ≤ n) : Edge .qbody .copy n .qbody .head

/-- The step from `s` to `t` goes along an edge, and the output it produces was left before. -/
def Follows (s t : State) : Prop := ∃ n, Edge s.phase s.stage n t.phase t.stage ∧ outputLeft t + n = outputLeft s

theorem Follows.of_coderStep (hsu : CoderStep s u) : Follows u t → Follows s t
  | ⟨n, hedge, hout⟩ => ⟨n, hsu.phase ▸ hsu.stage ▸ hedge, hout.trans hsu.outputLeft⟩

/-- The outcome of a step from `s` obeys the grammar: a next state is a failed decode or follows an edge. -/
def Obeys (s : State) (o : Host.Outcome State Fault Refusal) : Prop := ∀ t, o = .next t → Failed t ∨ Follows s t

theorem Answers.obeys {r : Except Stop State} (h : Answers r (Follows s)) : Obeys s (conclude r) := by
  match r, h with
  | .ok t, ht => rintro _ ⟨⟩; exact .inr ht
  | .error (.failed t), ht => rintro _ ⟨⟩; exact .inl ht

theorem Obeys.of_coderStep {o : Host.Outcome State Fault Refusal} (hsu : CoderStep s u) (h : Obeys u o) : Obeys s o :=
  fun t ht => (h t ht).imp_right (Follows.of_coderStep hsu)

theorem obeys_next (h : Follows s t) : Obeys s (.next t) := by
  rintro _ ⟨⟩
  exact .inr h

theorem outputLeft_advanceDst {n : Nat} (hn : n ≤ outputLeft s) : outputLeft (advanceDst n s) + n = outputLeft s := by
  have hcur := dstCur_advanceDst hn
  rw [outputLeft] at hn
  rw [outputLeft, outputLeft, hcur, advanceDst_dstEnd]
  omega

/-! ### MAGIC and the quanta -/

theorem execMagic_obeys (h : Grounded s) (hp : s.phase = .magic) : Obeys s (execMagic s Params.default) := by
  have hset : Grounded (setSrcCur 0#32 s) := h.setSrcCur (BitVec.le_def.mpr (Nat.zero_le _))
  refine Answers.obeys ((readUnit_answers hset).bind fun ⟨unit, t⟩ ⟨hread, _⟩ => ?_)
  refine answers_ite (fun _ => answers_ok ⟨0, ?_, hread.outputLeft⟩) fun _ => hread.grounded.fails _
  rw [hp]
  exact .magic

theorem execQstart_obeys (h : Grounded s) (hp : s.phase = .qstart) (hg : s.stage = .head) :
    Obeys s (execQstart s Params.default) := by
  have hgo : ∀ st, st = Stage.raw ∨ st = Stage.coded →
      Follows s (gotoStage st (setQuantumEnd (nextQuantumEnd Params.default s) s)) := fun st hst => by
    refine ⟨0, ?_, rfl⟩
    rw [hg, gotoStage_phase, setQuantumEnd_phase, hp]
    exact .marker hst
  refine Answers.obeys ((peek16_answers (h.setQuantumEnd _)).bind fun marker _ => ?_)
  exact answers_ite (fun _ => answers_ok (hgo _ (.inl rfl))) fun _ => answers_ok (hgo _ (.inr rfl))

/-- AfterQuantum takes an edge that ends a quantum (R115). -/
theorem afterQuantum_follows {n : Nat} (hedge : ∀ {p}, QuantumNext p → Edge s.phase s.stage n p .head)
    (hout : outputLeft u + n = outputLeft s) : Answers (afterQuantum Params.default u) (Follows s) := by
  rw [afterQuantum_default]
  exact answers_ok ⟨n, hedge (ite_eq_or_eq _ _ _), hout⟩

/-- The quantum that QSTART has fixed is not empty and fits the output left (R180, R181). -/
theorem quantumLength_range (hroom : s.dstCur < s.dstQuantumEnd) (hquantum : s.dstQuantumEnd ≤ s.dstEnd) :
    1 ≤ quantumLength s ∧ quantumLength s ≤ outputLeft s := by
  rw [BitVec.lt_def] at hroom
  rw [BitVec.le_def] at hquantum
  rw [quantumLength, outputLeft, BitVec.toNat_sub_of_le (BitVec.le_def.mpr hroom.le)]
  omega

/-- The end of the output still to come lies inside OUT (R69). -/
theorem Grounded.room_le (h : Grounded s) {n : Nat} (hn : n ≤ outputLeft s) : s.dstCur.toNat + n ≤ s.decompSize.toNat := by
  have hend := h.dstEnd_eq
  have hcur := BitVec.le_def.mp h.dstInside
  rw [outputLeft] at hn
  omega

theorem execQraw_obeys (h : Grounded s) (hp : s.phase = .qstart) (hg : s.stage = .raw) (hunit : 2 ≤ inputLeft s)
    (hroom : s.dstCur < s.dstQuantumEnd) (hquantum : s.dstQuantumEnd ≤ s.dstEnd) :
    Obeys s (execQraw s Params.default) := by
  obtain ⟨hpos, hfits⟩ := quantumLength_range hroom hquantum
  have hu := h.advanceSrc hunit
  refine Answers.obeys (answers_ite (fun _ => hu.fails _) fun hshort => ?_)
  have hblock : quantumLength s ≤ inputLeft (advanceSrc 2 s) := not_lt.mp hshort
  have hsrc : (advanceSrc 2 s).srcCur.toNat + quantumLength s ≤ (advanceSrc 2 s).compSize.toNat := by
    have hend := hu.srcEnd_le
    rw [inputLeft] at hblock
    omega
  obtain ⟨m, hcopy, -⟩ := copyFromIn_ok _ _ (advanceSrc 2 s).dstCur.toNat _ hsrc (h.room_le hfits)
  rw [hcopy, bind_ok]
  refine afterQuantum_follows (fun hnext => ?_) (outputLeft_advanceDst hfits)
  rw [hp, hg]
  exact .rawBlock hpos hnext

theorem execQhdr_obeys (h : Grounded s) (hp : s.phase = .qstart) (hg : s.stage = .coded) :
    Obeys s (execQhdr s Params.default) := by
  refine Answers.obeys ((readUnit_answers h).bind fun ⟨w0, t⟩ ⟨hst, _⟩ => ?_)
  refine (readUnit_answers hst.grounded).bind fun ⟨w1, u⟩ ⟨htu, _⟩ => ?_
  refine answers_ite (fun _ => htu.grounded.fails _) fun hv => ?_
  refine (loadStates_answers htu.grounded (not_lt.mp hv)).bind fun w ⟨huw, _⟩ => ?_
  refine answers_ok ⟨0, ?_, (hst.trans (htu.trans huw)).outputLeft⟩
  rw [hp, hg]
  exact .header

theorem execQend_obeys (h : Grounded s) (hp : s.phase = .qbody) (hg : s.stage = .head) :
    Obeys s (execQend s Params.default) := by
  refine Answers.obeys (answers_ite (fun _ => h.fails _) fun _ => afterQuantum_follows (n := 0) ?_ rfl)
  rw [hp, hg]
  exact .quantumEnd

/-! ### FIRSTLIT and the body -/

theorem execFirstlit_obeys (h : Grounded s) (hp : s.phase = .qfirst) (hready : coderReady s) (hpending : s.firstLiteralPending = true)
    (hleft : 1 ≤ outputLeft s) : Obeys s (execFirstlit s Params.default) := by
  rw [execFirstlit, if_pos hpending]
  refine Answers.obeys ((rawBits_answers h hready (by omega)).bind fun ⟨b, t⟩ ⟨hst, _, _⟩ => ?_)
  have hleft' : 1 ≤ outputLeft t := hleft.trans hst.outputLeft.ge
  refine writeByte_answers (f := fun u => gotoPhase .qbody (setFirstLiteral false u)) hst.grounded hleft' fun m _ => ?_
  refine Follows.of_coderStep hst ⟨1, ?_, outputLeft_advanceDst (s := setOut m t) hleft'⟩
  rw [hst.phase, hp]
  exact .firstLiteral

theorem execLit_obeys (h : InBody s) (hg : s.stage = .head) (delta : BitVec 8) : Obeys s (execLit delta s) := by
  have hleft := h.outputLeft_pos
  have hin : s.dstCur.toNat - s.lastCopyOffset.toNat < s.decompSize.toNat := by
    have := h.grounded.room_le hleft
    omega
  rw [execLit, outByteBack_ok h.lastCopy_le hin, bind_ok]
  refine Answers.obeys (writeByte_answers (f := id) h.grounded hleft fun m _ => ?_)
  refine ⟨1, ?_, outputLeft_advanceDst (s := setOut m s) hleft⟩
  simp only [id, advanceDst_phase, advanceDst_stage, setOut_phase, setOut_stage, h.inBody, hg]
  exact .literal

/-- A decoded length leads to its distance (R210). -/
theorem follows_lengthDecoded (h : InBody s) (hg : s.stage = .head) (len : Nat) : Follows s (lengthDecoded len s) := by
  refine ⟨0, ?_, rfl⟩
  rw [hg, lengthDecoded_phase, h.inBody]
  exact .length

theorem execMatchx_obeys (h : InBody s) (hg : s.stage = .head) (code : BitVec 4) : Obeys s (execMatchx code s Params.default) := by
  have hbits : extendedBits (288 + code.toNat) ≤ 16 := by
    have := code.isLt
    unfold extendedBits
    omega
  rw [execMatchx]
  generalize extendedBits (288 + code.toNat) = nb at hbits
  refine Answers.obeys ((rawBits_answers h.grounded h.ready hbits).bind fun ⟨extra, t⟩ ⟨hst, hready, _⟩ => answers_ok ?_)
  exact Follows.of_coderStep hst
    (follows_lengthDecoded (h.of_coderStep hst hready) (hst.stage.trans hg) (extendedLength nb extra))

/-- A decoded distance leads to its copy, whatever it leaves in the cache (R210). -/
theorem follows_distance (h : InBody s) (hg : s.stage = .distance) (hp : t.phase = s.phase) (hcopy : t.stage = .copy)
    (hout : outputLeft t = outputLeft s) : Follows s t := by
  refine ⟨0, ?_, hout⟩
  rw [hp, h.inBody, hg, hcopy]
  exact .distance

theorem execDcache_obeys (h : InBody s) (hg : s.stage = .distance) (rank : BitVec 3) :
    Obeys s (execDcache rank s Params.default) :=
  obeys_next (follows_distance h hg rfl rfl rfl)

theorem newDistanceOp_obeys (h : InBody s) (hg : s.stage = .distance) (osym : Nat) :
    Obeys s (conclude (newDistanceOp Params.default osym s)) := by
  refine Answers.obeys ((decodeAndRenorm_answers .obl h.grounded h.ready).bind fun ⟨nb, t⟩ ⟨hnb, hst, ht⟩ => ?_)
  refine (rawBits_answers hst.grounded ht (Nat.mod_lt nb (by omega)).le).bind fun ⟨low, u⟩ ⟨htu, hu, hlow⟩ => ?_
  refine (longBits_answers htu.grounded hu (Nat.lt_succ_iff.mp hnb) hlow).bind fun ⟨bits, w⟩ ⟨huw, hw, _⟩ => answers_ok ?_
  have hsw := hst.trans (htu.trans huw)
  exact Follows.of_coderStep hsw (follows_distance (h.of_coderStep hsw hw) (hsw.stage.trans hg) rfl rfl rfl)

theorem execCopy_obeys {len dist : Word} (h : InBody s) (hg : s.stage = .copy) (hlength : 1 ≤ len.toNat) :
    Obeys s (execCopy len dist s) := by
  refine Answers.obeys (answers_ite (fun _ => h.grounded.fails _) fun hdist => ?_)
  refine answers_ite (fun _ => h.grounded.fails _) fun hlen => ?_
  have hleft : len.toNat ≤ outputLeft s := not_lt.mp hlen
  obtain ⟨hzero, hback⟩ := not_or.mp hdist
  have hpos : 1 ≤ dist.toNat := Nat.pos_of_ne_zero fun he => hzero (BitVec.eq_of_toNat_eq he)
  obtain ⟨m, hcopy, -⟩ := copyWithinOut_ok _ _ _ s hpos (not_lt.mp hback) (h.grounded.room_le hleft)
  rw [hcopy, bind_ok]
  refine answers_ok ⟨len.toNat, ?_, outputLeft_advanceDst (s := setOut m s) hleft⟩
  simp only [gotoStage_phase, gotoStage_stage, setLastCopy_phase, advanceDst_phase, setOut_phase, h.inBody, hg]
  exact .copy hlength

/-! ### The engine step -/

theorem engineStep_obeys_of_run {P : Parameters} {i : Instr} (hf : fetch P s = .run i s) (h : Obeys s (execUnder P i s)) :
    Obeys s (engineStep P s) := by
  rw [engineStep_run hf]
  exact h

/-- A step that fetches a symbol obeys the grammar when what the symbol selects does. -/
theorem engineStep_obeys_of_symbol {m : ModelId} {f : Format} (h : InBody s)
    (hf : fetch Params.default s = fetchSymbol Params.default m f s)
    (hop : ∀ sym i u, decode f sym = .ok i → u.stage = s.stage → InBody u → Obeys u (execUnder Params.default i u)) :
    Obeys s (engineStep Params.default s) := by
  have hdecode := decodeAndRenorm_answers m h.grounded h.ready
  match hr : decodeAndRenorm Params.default m s, hdecode with
  | .error (.failed u), hu =>
    simp only [engineStep, hf, fetchSymbol, hr, conclude_failed]
    rintro _ ⟨⟩
    exact .inl hu
  | .ok (sym, u), ⟨_, hsu, hready⟩ =>
    match hi : decode f sym with
    | .ok i =>
      rw [engineStep_run (hf.trans (fetchSymbol_run hr hi))]
      exact Obeys.of_coderStep hsu (hop sym i u hi hsu.stage (h.of_coderStep hsu hready))
    | .error _ => simp [Obeys, engineStep, hf, fetchSymbol, hr, hi]

theorem engineStep_obeys_literal (h : InBody s) (hg : s.stage = .head) : Obeys s (engineStep Params.default s) := by
  refine engineStep_obeys_of_symbol h (fetch_literal h.inBody hg h.room) fun sym i u hi hsu hu => ?_
  have hg' := hsu.trans hg
  obtain ⟨delta, rfl⟩ | ⟨code, rfl⟩ | ⟨code, rfl⟩ := decode_litSym_inv hi
  · exact execLit_obeys hu hg' delta
  · exact obeys_next (follows_lengthDecoded hu hg' _)
  · exact execMatchx_obeys hu hg' code

theorem engineStep_obeys_distance (h : InBody s) (hg : s.stage = .distance) : Obeys s (engineStep Params.default s) := by
  refine engineStep_obeys_of_symbol h (fetch_distance h.inBody hg) fun sym i u hi hsu hu => ?_
  have hg' := hsu.trans hg
  obtain ⟨rank, rfl⟩ | ⟨code, rfl⟩ | ⟨code, rfl⟩ | ⟨code, rfl⟩ := decode_offSym_inv hi
  · exact execDcache_obeys hu hg' rank
  all_goals exact newDistanceOp_obeys hu hg' _

/-- Under the invariant an engine step of a running decode that does not fail it goes along an edge of the grammar (R99). -/
theorem engineStep_obeys (h : Inv s) (hb : busy s = true) : Obeys s (engineStep Params.default s) := by
  obtain ⟨hground, hp⟩ := (inv_iff_grounded hb).mp h
  cases hphase : s.phase <;> simp only [phaseInv, hphase] at hp
  case idle | doneOk | doneFail => simp [busy, hphase] at hb
  case magic => exact engineStep_obeys_of_run (fetch_magic hphase) (execMagic_obeys hground hphase)
  case qstart =>
    obtain ⟨-, hhead | ⟨hraw | hcoded, hunit, hroom, hquantum, -⟩⟩ := hp
    · exact engineStep_obeys_of_run (fetch_qstart hphase hhead) (execQstart_obeys hground hphase hhead)
    · exact engineStep_obeys_of_run (fetch_qraw hphase hraw) (execQraw_obeys hground hphase hraw hunit hroom hquantum)
    · exact engineStep_obeys_of_run (fetch_qhdr hphase hcoded) (execQhdr_obeys hground hphase hcoded)
  case qfirst =>
    obtain ⟨hready, hpending, hroom, hquantum⟩ := hp
    exact engineStep_obeys_of_run (fetch_firstlit hphase)
      (execFirstlit_obeys hground hphase hready hpending (outputLeft_pos hroom hquantum))
  case qbody =>
    obtain ⟨hready, hquantum, hstarted, hhead | ⟨hg, hroom, hlength⟩⟩ := hp
    · by_cases hroom : s.dstCur < s.dstQuantumEnd
      · exact engineStep_obeys_literal ⟨hground, hready, hphase, hquantum, hstarted, hroom⟩ hhead
      · exact engineStep_obeys_of_run (fetch_qend hphase hhead (BitVec.not_lt.mp hroom)) (execQend_obeys hground hphase hhead)
    · have hbody : InBody s := ⟨hground, hready, hphase, hquantum, hstarted, hroom⟩
      rcases hg with hdistance | hcopy
      · exact engineStep_obeys_distance hbody hdistance
      · exact engineStep_obeys_of_run (fetch_copy hphase hcopy) (execCopy_obeys hbody hcopy (one_le_two.trans hlength.1))

/-! ### The bound falls -/

/-- The part of `stepsLeft` that the place in the grammar gives: the operations until output is produced or the decode ends. -/
def placeSteps : Phase → Stage → Nat
  | .magic, _ => 4
  | .qstart, .raw | .qstart, .coded => 2
  | .qstart, _ => 3
  | .qfirst, _ => 1
  | .qbody, .distance => 5
  | .qbody, .copy => 4
  | .qbody, _ => 6
  | .idle, _ | .doneOk, _ | .doneFail, _ => 0

theorem stepsLeft_running (hrun : Running s.phase) : stepsLeft s = 8 * outputLeft s + placeSteps s.phase s.stage := by
  cases hp : s.phase <;> cases hg : s.stage <;> simp [stepsLeft, placeSteps, Running, hp, hg] at hrun ⊢

theorem stepsLeft_le (s : State) : stepsLeft s ≤ 8 * outputLeft s + placeSteps s.phase s.stage := by
  by_cases hrun : Running s.phase
  · exact (stepsLeft_running hrun).le
  · have hzero : stepsLeft s = 0 := by
      cases hp : s.phase <;> simp [stepsLeft, Running, hp] at hrun ⊢
    omega

/-- An edge leads nearer to the end, counting eight operations for each byte of output it produces. -/
theorem Edge.placeSteps_lt {p p' : Phase} {g g' : Stage} {n : Nat} (h : Edge p g n p' g') :
    placeSteps p' g' < 8 * n + placeSteps p g := by
  cases h with
  | magic | header | firstLiteral | literal | length | distance => simp [placeSteps]
  | marker hg => rcases hg with rfl | rfl <;> decide
  | rawBlock hn hp => rcases hp with rfl | rfl <;> simp only [placeSteps] <;> omega
  | quantumEnd hp => rcases hp with rfl | rfl <;> decide
  | copy hn => simp only [placeSteps]; omega

theorem Follows.stepsLeft_lt (hrun : Running s.phase) : Follows s t → stepsLeft t < stepsLeft s
  | ⟨n, hedge, hout⟩ => by
    have hplace := hedge.placeSteps_lt
    have ht := stepsLeft_le t
    rw [stepsLeft_running hrun]
    omega

/-! ### The run -/

/-- The decode has ended, in success or in failure (R31). -/
def Ended (s : State) : Prop := s.phase = .doneOk ∨ s.phase = .doneFail

theorem Ended.quiet : Ended s → busy s = false
  | .inl hp | .inr hp => by simp only [busy, hp]

/-- No edge leads to IDLE: once started, a decode that does not run has ended (R31). -/
theorem Edge.ne_idle {p p' : Phase} {g g' : Stage} {n : Nat} (h : Edge p g n p' g') : p' ≠ .idle := by
  cases h with
  | rawBlock _ hp | quantumEnd hp => rcases hp with rfl | rfl <;> decide
  | _ => decide

theorem Follows.ended_of_quiet (h : Follows s t) (hb : busy t = false) : Ended t := by
  obtain ⟨n, hedge, -⟩ := h
  have hidle := hedge.ne_idle
  cases hp : t.phase <;> simp [busy, Ended, hp] at hb hidle ⊢

/-- Under the invariant a step of a running decode ends it or brings its end nearer, the host leaving the engine alone. -/
theorem step_approaches (h : Inv s) (hb : busy s = true) (hs : s.hostScript = []) :
    ∃ t, step s = .next t ∧ t.hostScript = [] ∧ (Ended t ∨ Inv t ∧ busy t = true ∧ stepsLeft t < stepsLeft s) := by
  obtain ⟨hground, hp⟩ := (inv_iff_grounded hb).mp h
  obtain ⟨t, ht, -⟩ := engineStep_runs hground hp hb
  refine ⟨t, (step_engine hs).trans ht, (engineStep_effect s t ht).confined.hostScript.trans hs, ?_⟩
  rcases engineStep_obeys h hb t ht with hfailed | hfollows
  · exact .inl (.inr hfailed.phase)
  · cases hbt : busy t with
    | false => exact .inl (hfollows.ended_of_quiet hbt)
    | true => exact .inr ⟨engineStep_inv h ht, rfl, hfollows.stepsLeft_lt (busy_iff_running.mp hb)⟩

theorem run_succ {n : Nat} (hst : step s = .next t) : Host.Core.run core (n + 1) s = Host.Core.run core n t := by
  have hst' : core.step s = .next t := hst
  simp only [Host.Core.run, hst']

/-- A decode that has ended stays where it is, for any number of steps (R264). -/
theorem run_ended (n : Nat) (hs : s.hostScript = []) (h : Ended s) : Host.Core.run core n s = .next s := by
  induction n with
  | zero => rfl
  | succ n ih => rw [run_succ ((step_engine hs).trans (engineStep_quiet h.quiet)), ih]

/-- A running decode has a step left. -/
theorem stepsLeft_pos (hrun : Running s.phase) : 1 ≤ stepsLeft s := by
  have hplace : 1 ≤ placeSteps s.phase s.stage := by
    cases hp : s.phase <;> cases hg : s.stage <;> simp [placeSteps, Running, hp] at hrun ⊢
  rw [stepsLeft_running hrun]
  omega

/-- Any number of steps that `stepsLeft` does not exceed ends the decode (R118). -/
theorem run_ends {n : Nat} (h : Inv s) (hb : busy s = true) (hs : s.hostScript = []) (hn : stepsLeft s ≤ n) :
    ∃ t, Host.Core.run core n s = .next t ∧ Ended t := by
  induction n generalizing s with
  | zero =>
    have := stepsLeft_pos (busy_iff_running.mp hb)
    omega
  | succ n ih =>
    obtain ⟨t, hst, hts, hended | ⟨ht, hbt, hlt⟩⟩ := step_approaches h hb hs
    · exact ⟨t, (run_succ hst).trans (run_ended n hts hended), hended⟩
    · rw [run_succ hst]
      exact ih ht hbt hts (by omega)

end Sys2Proof.Machine

namespace Sys2Proof.Proofs

open Sys2Proof.Machine

/-- Settles O56: each step of the run goes along an edge of the grammar (`engineStep_obeys`) and brings `stepsLeft` down, or fails the
decode; so the run has ended when `stepsLeft` steps are made (`run_ends`). -/
theorem decodeTerminates : Obligations.DecodeTerminates := fun _ h hb hs => run_ends h hb hs le_rfl

end Sys2Proof.Proofs
end

section
/-! PROOFS. START and MAGIC (R110 to R114): what a START does once its preconditions are decided (O9, O11), and the check of the first
unit (O13). -/

namespace Sys2Proof.Machine

variable {P : Parameters} {s : State}

/-! ### START -/

/-- A START whose preconditions hold (R112). -/
theorem execStart_initializes (hb : busy s = false) (hcomp : 2 ≤ s.compSize.toNat) (hdecomp : s.decompSize ≠ 0#32) :
    execStart s P = .next (gotoPhase .magic (initDecoderState P { s with failCause := .none })) := by
  have hpre : ¬ (s.compSize.toNat < 2 ∨ s.decompSize = 0#32) := not_or.mpr ⟨not_lt.mpr hcomp, hdecomp⟩
  rw [execStart, if_neg (Bool.eq_false_iff.mp hb), if_neg hpre]

/-- A START whose preconditions do not hold fails before it initializes anything (R111, R255). -/
theorem execStart_precondition (hb : busy s = false) (hpre : s.compSize.toNat < 2 ∨ s.decompSize = 0#32) :
    execStart s P = .next (raiseFailure .precondition s) := by
  rw [execStart, if_neg (Bool.eq_false_iff.mp hb), if_pos hpre]

/-! ### MAGIC -/

/-- A unit in little-endian order, as a number (R63). -/
theorem toNat_assemble16_little (b0 b1 : Byte) : (assemble16 .little b0 b1).toNat = b0.toNat + 256 * b1.toNat := by
  have h0 := b0.isLt
  have h1 := b1.isLt
  simp only [assemble16, BitVec.toNat_or, BitVec.toNat_shiftLeft, BitVec.toNat_setWidth]
  rw [Nat.mod_eq_of_lt (show b1.toNat < 2 ^ 16 by omega), Nat.mod_eq_of_lt (show b0.toNat < 2 ^ 16 by omega),
    Nat.mod_eq_of_lt (show b1.toNat <<< 8 < 2 ^ 16 by rw [Nat.shiftLeft_eq]; omega), ← Nat.shiftLeft_add_eq_or_of_lt h0,
    Nat.shiftLeft_eq]
  omega

/-- The bytes of a unit in little-endian order determine it and are determined by it (R63). -/
theorem assemble16_little_eq_iff {b0 b1 c0 c1 : Byte} : assemble16 .little b0 b1 = assemble16 .little c0 c1 ↔ b0 = c0 ∧ b1 = c1 := by
  simp only [BitVec.toNat_eq, toNat_assemble16_little]
  have hb := b0.isLt
  have hc := c0.isLt
  omega

/-- MAGIC with its unit at the start of IN (R114): the unit is skipped and decides. -/
theorem execMagic_eq (hunit : 2 ≤ s.srcEnd.toNat) (hend : s.srcEnd.toNat ≤ s.compSize.toNat) :
    execMagic s = conclude (if unitAt s 0 = Params.magic then .ok (gotoPhase .qstart { s with srcCur := 2#32 })
      else .error (.failed (raiseFailure (.formatMagic (unitAt s 0)) { s with srcCur := 2#32 }))) := by
  have hread : readUnit Params.default (setSrcCur Params.default.magicOffset s) = .ok (unitAt s 0, { s with srcCur := 2#32 }) :=
    readUnit_ok (s := setSrcCur 0#32 s) hunit hend
  simp only [execMagic, hread, bind_ok]

end Sys2Proof.Machine

namespace Sys2Proof.Proofs

open Sys2Proof.Machine

/-- Settles O9: the state is that of `execStart_initializes`, field by field. -/
theorem startInitializesDecoder : Obligations.StartInitializesDecoder := fun _ hb hcomp hdecomp =>
  execStart_initializes hb hcomp hdecomp

/-- Settles O11: the failure of `execStart_precondition` changes OUT, the phase and the cause alone. -/
theorem startFailsPrecondition : Obligations.StartFailsPrecondition := fun _ hb hpre =>
  ⟨_, execStart_precondition hb hpre, rfl, rfl⟩

/-- Settles O13: the unit decides as in `execMagic_eq`, and its bytes are those of 0x75B1 (`assemble16_little_eq_iff`). -/
theorem magicChecksFirstUnit : Obligations.MagicChecksFirstUnit := by
  intro s hunit hend
  have hmagic : exec .magic s = _ := execMagic_eq hunit hend
  refine ⟨fun hu => ?accept, fun hu => ?reject, assemble16_little_eq_iff (c0 := 0xB1#8) (c1 := 0x75#8)⟩
  case accept => exact hmagic.trans (congrArg conclude (if_pos hu))
  case reject => exact hmagic.trans (congrArg conclude (if_neg hu))

end Sys2Proof.Proofs
end

section
/-! PROOFS. The symbol decode (R140 to R143, R147, R148): the search ends at `Sym(cdf, r)` and reads no margin (O36), DECODESYM leaves
the exact number of step 5 and changes its model alone (O37, O38), and the update counts before it tests (O39). -/

namespace Sys2Proof.Machine

variable {P : Parameters} {c : ModelClass} {M N : AdaptiveModel} {m : ModelId} {s : State} {r sym : Nat}

/-! ### The search from a guess that is not too high (R148) -/

/-- The interval of `Sym(cdf, r)` holds the residue, for its lower bound too when the table starts at 0. -/
theorem bounds_of_symOf (h0 : M.bound 0 = 0) (hsym : symOf M.cdf r = some sym) : M.bound sym ≤ r ∧ r < M.bound (sym + 1) := by
  obtain ⟨-, habove, hbelow⟩ := symOf_some hsym
  refine ⟨?_, habove⟩
  rcases Nat.eq_zero_or_pos sym with rfl | hpos
  · exact h0.trans_le (Nat.zero_le r)
  · exact hbelow sym hpos le_rfl

/-- The step up of R140 goes past no symbol whose upper bound is above the residue. -/
theorem searchStart_le_of_guess (hguess : M.lookup.getD (r >>> Params.lookupShift c) 0 ≤ sym) (habove : r < M.bound (sym + 1)) :
    searchStart c M r ≤ sym := by
  rcases Nat.eq_or_lt_of_le hguess with heq | hlt
  · rw [searchStart, heq, if_neg habove.le.not_gt]
  · unfold searchStart
    split
    · exact hlt
    · exact hguess

/-- From a start at or below `Sym(cdf, r)` the search passes only bounds at or below the residue (R148). -/
theorem searchSymbol_of_symOf (hsym : symOf M.cdf r = some sym) (hguess : M.lookup.getD (r >>> Params.lookupShift c) 0 ≤ sym) :
    searchSymbol c M r = some sym := by
  obtain ⟨hlen, habove, hbelow⟩ := symOf_some hsym
  obtain ⟨k, rfl⟩ := Nat.exists_eq_add_of_le (searchStart_le_of_guess hguess habove)
  have hdrop (j : Nat) : (M.cdf.drop (searchStart c M r + 1)).getD j 0 = M.cdf.getD (searchStart c M r + j + 1) 0 := by
    rw [List.getD_eq_getElem?_getD, List.getElem?_drop, ← List.getD_eq_getElem?_getD, Nat.add_right_comm]
  rw [searchSymbol_eq]
  refine symFrom_eq (by rw [List.length_drop]; omega) ?_ fun j hj => ?_
  · exact (hdrop k).symm ▸ habove
  · exact (hdrop j).symm ▸ hbelow _ (by omega) (by omega)

/-- The search reads the table and one entry of the lookup table (R140 step 2). -/
theorem searchSymbol_congr (hcdf : M.cdf = N.cdf)
    (hguess : M.lookup.getD (r >>> Params.lookupShift c) 0 = N.lookup.getD (r >>> Params.lookupShift c) 0) :
    searchSymbol c M r = searchSymbol c N r := by
  rw [searchSymbol_eq, searchSymbol_eq, searchStart, searchStart, AdaptiveModel.bound, AdaptiveModel.bound, hcdf, hguess]

theorem getD_eq_of_take_eq {l l' : List Nat} {n i : Nat} (h : l.take n = l'.take n) (hi : i < n) : l.getD i 0 = l'.getD i 0 := by
  rw [List.getD_eq_getElem?_getD, List.getD_eq_getElem?_getD, ← List.getElem?_take_of_lt hi, h, List.getElem?_take_of_lt hi]

/-! ### The margin of a lookup table (R36, R147) -/

theorem fillLookup_length (c : ModelClass) (cdf : List Nat) :
    (fillLookup P c cdf).length = Params.lookupSize c + P.lookupMargin := by
  simp [fillLookup]

theorem fillLookup_take (c : ModelClass) (cdf : List Nat) :
    (fillLookup P c cdf).take (Params.lookupSize c) = fillLookup { P with lookupMargin := 0 } c cdf := by
  simp [fillLookup]

/-! ### DECODESYM -/

/-- A symbol decode answers the symbol that its search finds, in the state of R140 steps 5 and 6. -/
theorem decodeSymbol_eq (hsearch : searchSymbol m.cls (s.model m) (s.state1.toNat % 32768) = some sym) :
    decodeSymbol P m s = .ok (sym, afterDecode m sym s P) :=
  decodeSymbol_ok hsearch

theorem execDecodesym_eq (hsearch : searchSymbol m.cls (s.model m) (s.state1.toNat % 32768) = some sym) :
    exec (.decodesym m) s = .next { afterDecode m sym s with ret := BitVec.ofNat 32 sym } := by
  show conclude (returning (decodeSymbol Params.default m s)) = _
  rw [decodeSymbol_eq hsearch]
  rfl

theorem afterDecode_state1 : (afterDecode m sym s P).state1 = BitVec.ofNat 32 (decodedState1 (s.model m) sym s.state1.toNat) := by
  simp [afterDecode]

theorem afterDecode_model_same : (afterDecode m sym s P).model m = updateModel P m.cls (s.model m) sym := by
  rw [afterDecode, setModel_model, if_pos rfl]

/-- No other model is touched (R34). -/
theorem afterDecode_model_other {k : ModelId} (hk : k ≠ m) : (afterDecode m sym s P).model k = s.model k := by
  rw [afterDecode, setModel_model, if_neg hk]
  cases k <;> rfl

/-- Besides the models, a symbol decode writes `state1` alone. -/
theorem afterDecode_frame : afterDecode m sym s P =
    { s with
      state1 := BitVec.ofNat 32 (decodedState1 (s.model m) sym s.state1.toNat)
      lit := (afterDecode m sym s P).lit
      offLow := (afterDecode m sym s P).offLow
      obl := (afterDecode m sym s P).obl } := by
  cases m <;> rfl

theorem alphabet_le (c : ModelClass) : c.alphabet ≤ 300 := by
  cases c <;> decide

/-! ### The update of the frequencies (R142, R143) -/

theorem countSymbol_frequency_same (hsym : sym < M.frequency.length) :
    (countSymbol M sym).frequency.getD sym 0 = M.frequency.getD sym 0 + 31 := by
  simp [countSymbol, hsym, Params.freqInc]

theorem countSymbol_frequency_other {k : Nat} (hk : k ≠ sym) : (countSymbol M sym).frequency.getD k 0 = M.frequency.getD k 0 := by
  simp [countSymbol, List.getD_eq_getElem?_getD, hk.symm]

theorem countSymbol_frequency_eq_set (hsym : sym < M.frequency.length) :
    (countSymbol M sym).frequency = M.frequency.set sym (M.frequency.getD sym 0 + 31) := by
  simp [countSymbol, List.modify_eq_set, hsym, Params.freqInc]

/-- With a count left, the update only counts (R143). -/
theorem updateModel_counts (hcount : 2 ≤ M.adaptCounter) : updateModel P c M sym = countSymbol M sym :=
  if_neg (by omega)

/-- With the last count, the update rebuilds what it has counted (R142, R143, R293). -/
theorem updateModel_rebuilds (hcount : M.adaptCounter = 1) : updateModel P c M sym = rebuildModel P c (countSymbol M sym) sym :=
  if_pos (by omega)

end Sys2Proof.Machine

namespace Sys2Proof.Proofs

open Sys2Proof.Machine

/-- Settles O36: the search by `searchSymbol_of_symOf`; of the lookup table it reads one entry of a block. -/
theorem searchFindsContainingSymbol : Obligations.SearchFindsContainingSymbol := by
  refine ⟨fun c M r t h0 hsym hguess => ?search, fun c M N r hr hcdf hblocks => ?blocks, fun P c cdf => ?fill⟩
  case search => exact ⟨searchSymbol_of_symOf hsym hguess, bounds_of_symOf h0 hsym⟩
  case blocks => exact searchSymbol_congr hcdf (getD_eq_of_take_eq hblocks (shiftRight_lookupShift_lt hr))
  case fill => exact ⟨fillLookup_length c cdf, fillLookup_take c cdf⟩

/-- Settles O38: the search finds the residue's symbol (`searchSymbol_inv`) and `afterDecode` says what else is written. -/
theorem decodesymDecodesResidue : Obligations.DecodesymDecodesResidue := by
  intro m s hM
  obtain ⟨sym, hsearch, hsym, hlow, hhigh⟩ := searchSymbol_inv hM (Nat.mod_lt s.state1.toNat (by decide))
  exact ⟨sym, hsym, hlow, hhigh, execDecodesym_eq hsearch, afterDecode_model_same, fun _ => afterDecode_model_other, afterDecode_frame⟩

/-- Settles O37: the number of step 5 fits in the register (`nextCoderState_range`), and the symbol in `ret`. -/
theorem decodedStateInRange : Obligations.DecodedStateInRange := by
  intro m s hM hstate
  obtain ⟨sym, hsearch, hsym, hlow, hhigh⟩ := searchSymbol_inv hM (Nat.mod_lt s.state1.toNat (by decide))
  obtain ⟨hmin, hmax⟩ := nextCoderState_range hM hstate s.state1.isLt hsym hlow hhigh
  have hret : (BitVec.ofNat 32 sym).toNat = sym := by
    have := alphabet_le m.cls
    rw [BitVec.toNat_ofNat, Nat.mod_eq_of_lt (by omega)]
  have hstate1 : (afterDecode m sym s).state1.toNat = decodedState1 (s.model m) sym s.state1.toNat := by
    rw [afterDecode_state1, BitVec.toNat_ofNat]
    exact Nat.mod_eq_of_lt hmax
  refine ⟨_, execDecodesym_eq hsearch, ?_⟩
  simp only [hret, hstate1]
  exact ⟨hmin, hmax, hlow, rfl⟩

/-- Settles O39: the update by its two cases, and the decode by the search on a table with both ends (`symOf_exists`). -/
theorem updateCountsThenRebuilds : Obligations.UpdateCountsThenRebuilds := by
  refine ⟨fun P c M sym hlen hsym => ⟨fun hcount => ?count, fun hcount => ?rebuild⟩, fun P m s hlen h0 hlast _ hguess => ?decode⟩
  case count =>
    rw [updateModel_counts hcount]
    exact ⟨countSymbol_frequency_same (hlen ▸ hsym), fun k => countSymbol_frequency_other, rfl, rfl, rfl⟩
  case rebuild =>
    have hcounted : countSymbol M sym =
        { M with frequency := M.frequency.set sym (M.frequency.getD sym 0 + 31), adaptCounter := 0 } := by
      rw [← countSymbol_frequency_eq_set (hlen ▸ hsym), countSymbol, hcount]
    rw [updateModel_rebuilds hcount, hcounted]
  case decode =>
    obtain ⟨sym, hnext, hsym, -, -⟩ := symOf_exists hlen hlast h0 (Nat.mod_lt s.state1.toNat (by decide))
    have hsearch := searchSymbol_of_symOf hnext (hguess sym hnext)
    exact ⟨sym, afterDecode m sym s P, decodeSymbol_eq hsearch, hsym, hnext, afterDecode_state1, afterDecode_model_same,
      fun _ => afterDecode_model_other⟩

end Sys2Proof.Proofs
end

section
/-! PROOFS. The tables: the initial ones of the three classes (R130 to R135, O10), the total of a rebuild (R146, O40), and what
REBUILD leaves of each entry (R144, R145, R147, O42). -/

namespace Sys2Proof.Machine

variable {P : Parameters} {c : ModelClass} {M : AdaptiveModel} {sym : Nat}

/-! ### The initial tables -/

theorem getD_map_range (f : Nat → Nat) {n i : Nat} (hi : i < n) : ((List.range n).map f).getD i 0 = f i := by
  simp [hi]

/-- R131, both parts of the table. -/
theorem initModel_bound_literal {i : Nat} (hi : i ≤ 300) :
    (initModel Params.default .literal).bound i = if i < 264 then 32732 * i / 264 else 32468 + i :=
  getD_map_range _ (by omega)

/-- R132. -/
theorem initModel_bound_offsetLow {i : Nat} (hi : i ≤ 40) : (initModel Params.default .offsetLow).bound i = 32768 * i / 40 :=
  getD_map_range _ (by omega)

/-- R133. -/
theorem initModel_bound_offsetBitLength {i : Nat} (hi : i ≤ 21) :
    (initModel Params.default .offsetBitLength).bound i = 32768 * i / 21 :=
  getD_map_range _ (by omega)

/-- The blocks of a fresh lookup table (R135). -/
theorem initModel_lookup {b : Nat} (hb : b < Params.lookupSize c) :
    symOf (initModel Params.default c).cdf (b <<< Params.lookupShift c) = some ((initModel Params.default c).lookup.getD b 0) := by
  have hM := initModel_inv c
  exact (fillLookup_owns hM.cdfLength hM.cdfLast hM.cdfFirst b hb).1

/-! ### A rebuild -/

/-- A rebuild sums the count and the bias of the symbol (R146). -/
theorem biasedFrequency_sum (hM : ModelInv c M) (hsym : sym < c.alphabet) (hcount : M.adaptCounter = 1) :
    (biasedFrequency c (countSymbol M sym) sym).sum = 32769 := by
  have htotal := countSymbol_frequencyTotal hM hsym
  rw [hcount] at htotal
  rw [biasedFrequency, sum_modify _ _ _ (countSymbol_frequencyLength hM ▸ hsym), htotal]
  exact alphabet_add_bias c

theorem rebuildModel_frequency (hf : M.frequency.length = c.alphabet) :
    (rebuildModel P c M sym).frequency = List.replicate c.alphabet 1 := by
  simp [rebuildModel, biasedFrequency, hf, List.map_const']

/-- A block whose first residue has a symbol holds that symbol (R147). -/
theorem fillLookup_getD {cdf : List Nat} {b t : Nat} (hb : b < Params.lookupSize c)
    (ht : symOf cdf (b <<< Params.lookupShift c) = some t) : (fillLookup P c cdf).getD b 0 = t := by
  simp [fillLookup, List.getD_eq_getElem?_getD, List.getElem?_append_left, hb, ht]

end Sys2Proof.Machine

namespace Sys2Proof.Proofs

open Sys2Proof.Machine

/-- Settles O10: the tables by their formulas, class by class, and the lookup blocks by `fillLookup_owns`. -/
theorem initialModelTables : Obligations.InitialModelTables := by
  refine ⟨fun i hi => ?low, fun i hi hi' => ?high, fun i => initModel_bound_offsetLow, fun i => initModel_bound_offsetBitLength,
    fun c => ⟨rfl, rfl, fun b => initModel_lookup⟩⟩
  case low => rw [initModel_bound_literal (by omega), if_pos (by omega)]
  case high => rw [initModel_bound_literal hi', if_neg (by omega)]

/-- Settles O40: the ends are those of the invariant, which the update keeps (`updateModel_inv`). -/
theorem rebuildTotalIsFixed : Obligations.RebuildTotalIsFixed := by
  intro c M sym hM hsym hcount
  have hM' := updateModel_inv hM hsym
  exact ⟨biasedFrequency_sum hM hsym hcount, hM'.cdfLast, hM'.cdfFirst⟩

/-- Settles O42, a field of the rebuilt model at a time. -/
theorem rebuildSmoothsTable : Obligations.RebuildSmoothsTable := fun m sym s hf hc =>
  ⟨rebuildModel Params.default m.cls (s.model m) sym.toNat, rfl, rebuiltCdf_length _ _ _ hf hc, rebuiltCdf_zero _ _ _ hc,
    fun k hk => rebuiltCdf_getD rfl _ _ _ k hf hc hk, rebuildModel_frequency hf, rfl, fun _ _ => fillLookup_getD⟩

end Sys2Proof.Proofs
end

section
/-! PROOFS. The coder's operations on their own (R161 to R167): READ16 (O43), RENORM (O44) and RAWBITS (O45), each by what its shared
operation does with the input there and without it. -/

namespace Sys2Proof.Machine

variable {P : Parameters} {s : State}

/-! ### READ16 -/

theorem execRead16_ok (hleft : 2 ≤ inputLeft s) (hend : s.srcEnd.toNat ≤ s.compSize.toNat) :
    execRead16 s P = .next (setRet ((unitAt s s.srcCur.toNat P).setWidth 32) (advanceSrc 2 s)) := by
  rw [execRead16, readUnit_ok hleft hend]
  rfl

theorem execRead16_short (hleft : inputLeft s < 2) : execRead16 s P = .next (truncated s) := by
  rw [execRead16, readUnit_short hleft]
  rfl

/-- A unit of IN in the default byte order, as a number (R63). -/
theorem toNat_unitAt (s : State) (a : Nat) : (unitAt s a).toNat = (inValue s a).toNat + 256 * (inValue s (a + 1)).toNat :=
  toNat_assemble16_little _ _

/-! ### RENORM -/

theorem execRenorm_ready (hend : s.srcEnd.toNat ≤ s.compSize.toNat) (hready : renormReady s) :
    execRenorm s P = .next (afterRenorm s P) := by
  rw [execRenorm, renormalize_ready hend hready]
  rfl

theorem execRenorm_notReady (hready : ¬ renormReady s) : execRenorm s P = .next (truncated s) := by
  rw [execRenorm, renormalize_notReady hready]
  rfl

/-- No refill is due: the coder states change places and no input is touched (R163). -/
theorem afterRenorm_swap (hhigh : 0x10000 ≤ s.state1.toNat) :
    afterRenorm s P = { s with state1 := s.state2, state2 := s.state1 } :=
  if_neg hhigh.not_gt

/-- A refill is due (R163). -/
theorem afterRenorm_refill (hlow : s.state1.toNat < 0x10000) :
    afterRenorm s P = { s with
      state1 := s.state2
      state2 := BitVec.ofNat 32 (s.state1.toNat * 0x10000 + (unitAt s s.srcCur.toNat P).toNat)
      srcCur := s.srcCur + 2#32 } :=
  if_pos hlow

/-- The refilled state fits in its register. -/
theorem afterRenorm_state2_toNat (hlow : s.state1.toNat < 0x10000) :
    (afterRenorm s P).state2.toNat = s.state1.toNat * 65536 + (unitAt s s.srcCur.toNat P).toNat := by
  have hunit := (unitAt s s.srcCur.toNat P).isLt
  rw [afterRenorm_refill hlow]
  exact Nat.mod_eq_of_lt (by omega)

/-! ### RAWBITS -/

/-- No bits taken leave the coder as it was (R167). -/
theorem withoutLowBits_zero (s : State) : withoutLowBits 0 s = s := by
  simp [withoutLowBits]

theorem execRawbits_ready {k : BitVec 4} (hend : s.srcEnd.toNat ≤ s.compSize.toNat)
    (hready : renormReady (withoutLowBits k.toNat s)) :
    execRawbits k s P =
      .next (setRet (BitVec.ofNat 32 (s.state1.toNat % 2 ^ k.toNat)) (afterRenorm (withoutLowBits k.toNat s) P)) := by
  have hrenorm : renormalize P (setState1 (s.state1 >>> k.toNat) s) = .ok (afterRenorm (withoutLowBits k.toNat s) P) := by
    rw [setState1_shift]
    exact renormalize_ready hend hready
  rw [execRawbits, rawBits_ok hrenorm]
  rfl

end Sys2Proof.Machine

namespace Sys2Proof.Proofs

open Sys2Proof.Machine

/-- Settles O43: the unit is `unitAt`, whose two bytes are in little-endian order (`toNat_unitAt`). -/
theorem read16ReturnsUnit : Obligations.Read16ReturnsUnit := by
  refine fun s hend => ⟨execRead16_short, fun hleft => ⟨_, execRead16_ok hleft hend, ?unit, srcCur_advanceSrc hleft, rfl⟩⟩
  case unit =>
    rw [setRet_ret, BitVec.toNat_setWidth_of_le (by decide)]
    exact toNat_unitAt s s.srcCur.toNat

/-- Settles O44: both clauses that complete are `afterRenorm`, without a refill and with one. -/
theorem renormRefillsAndSwaps : Obligations.RenormRefillsAndSwaps := by
  refine fun s hend => ⟨fun hhigh => ?swap, fun hlow hleft => ?refill, fun hlow hleft => ?short⟩
  case swap =>
    rw [← afterRenorm_swap hhigh]
    exact execRenorm_ready hend (.inl hhigh)
  case refill =>
    have hstate2 := afterRenorm_state2_toNat (P := Params.default) hlow
    refine ⟨_, execRenorm_ready hend (.inr hleft), hstate2, fun hmin => ?_, ?_⟩
    · omega
    · rw [afterRenorm_refill hlow]
  case short => exact execRenorm_notReady (not_or.mpr ⟨hlow.not_ge, hleft.not_ge⟩)

/-- Settles O45: one `Renorm` of the shifted coder; for `k = 0` nothing is shifted, and a ready coder is only swapped. -/
theorem rawbitsTakesLowBits : Obligations.RawbitsTakesLowBits := by
  refine fun k s hend hready => ⟨execRawbits_ready hend hready, ?zero⟩
  case zero =>
    rintro rfl hhigh
    have hrawbits : exec (.rawbits 0#4) s = _ := execRawbits_ready hend hready
    rw [hrawbits, BitVec.toNat_zero, withoutLowBits_zero, afterRenorm_swap hhigh, pow_zero, Nat.mod_one]
    rfl

end Sys2Proof.Proofs
end

section
/-! PROOFS. The start and the end of a quantum (43_quantum.md): its size (R181, O15), QSTART (R180, O16), the raw quantum (R182, O17,
O18), the first literal of a coded one (R190, O21), and QEND (R194, O22). -/

namespace Sys2Proof.Machine

variable {P : Parameters} {s : State}

/-! ### The size of a quantum -/

/-- From the cursor to the next multiple of 65536, or to the end of the output (R181). -/
theorem quantumSize_aligned (cur fin : Nat) : quantumSize .aligned cur fin = min fin (cur - cur % 65536 + 65536) - cur := by
  have hmultiple : cur / 65536 * 65536 = cur - cur % 65536 := by omega
  rw [quantumSize, hmultiple, Params.quantumMax]

theorem quantumSize_range (b : QuantumBoundary) {cur fin : Nat} (h : cur < fin) :
    1 ≤ quantumSize b cur fin ∧ quantumSize b cur fin ≤ 65536 ∧ cur + quantumSize b cur fin ≤ fin := by
  cases b with
  | relative => simp only [quantumSize, Params.quantumMax]; omega
  | aligned => rw [quantumSize_aligned]; omega

/-- The quantum's end does not wrap (R180). -/
theorem toNat_nextQuantumEnd (h : s.dstCur < s.dstEnd) :
    (nextQuantumEnd P s).toNat = s.dstCur.toNat + quantumSize P.quantumBoundary s.dstCur.toNat s.dstEnd.toNat := by
  obtain ⟨-, -, hinside⟩ := quantumSize_range P.quantumBoundary (BitVec.lt_def.mp h)
  have hend := s.dstEnd.isLt
  rw [nextQuantumEnd, BitVec.toNat_add, BitVec.toNat_ofNat]
  omega

/-! ### QSTART -/

/-- QSTART with its marker there: the quantum's end, and the stage that the marker selects (R180, R83). -/
theorem execQstart_eq (hleft : 2 ≤ inputLeft s) (hend : s.srcEnd.toNat ≤ s.compSize.toNat) :
    execQstart s P = .next (gotoStage (if unitAt s s.srcCur.toNat P = 0#16 then .raw else .coded)
      (setQuantumEnd (nextQuantumEnd P s) s)) := by
  have hpeek : peek16 P (setQuantumEnd (nextQuantumEnd P s) s) = .ok (unitAt s s.srcCur.toNat P) := peek16_ok hleft hend
  simp only [execQstart, hpeek, bind_ok]
  split <;> rfl

/-! ### QRAW -/

theorem quantumLength_eq {n : Nat} (hn : s.dstQuantumEnd.toNat = s.dstCur.toNat + n) : quantumLength s = n := by
  rw [quantumLength, BitVec.toNat_sub_of_le (BitVec.le_def.mpr (hn ▸ Nat.le_add_right _ _)), hn, Nat.add_sub_cancel_left]

/-- The cursor after a whole quantum is the quantum's end (R182). -/
theorem advanceDst_quantum {n : Nat} (hn : s.dstQuantumEnd.toNat = s.dstCur.toNat + n) :
    advanceDst n s = { s with dstCur := s.dstQuantumEnd } := by
  have hcursor : s.dstCur + BitVec.ofNat 32 n = s.dstQuantumEnd := by
    have hend := s.dstQuantumEnd.isLt
    apply BitVec.eq_of_toNat_eq
    rw [BitVec.toNat_add, BitVec.toNat_ofNat]
    omega
  rw [advanceDst, hcursor]

/-- The raw block with its bytes there: the copy, then both cursors (R182). -/
theorem copyRawBlock_ok {n : Nat} (hleft : n ≤ inputLeft s) (hsrc : s.srcCur.toNat + n ≤ s.compSize.toNat)
    (hdst : s.dstCur.toNat + n ≤ s.decompSize.toNat) :
    ∃ m, copyRawBlock P n s = afterQuantum P (advanceDst n (advanceSrc n (setOut m s))) ∧
      (∀ i, i < n → memRead m (s.dstCur.toNat + i) = some (inValue s (s.srcCur.toNat + i))) ∧
      ∀ a, (a < s.dstCur.toNat ∨ s.dstCur.toNat + n ≤ a) → memRead m a = memRead s.outMem a := by
  obtain ⟨m, hcopy, hbytes, hothers, -⟩ := copyFromIn_ok n s.srcCur.toNat s.dstCur.toNat s hsrc hdst
  refine ⟨m, ?_, hbytes, hothers⟩
  rw [copyRawBlock, if_neg hleft.not_gt, hcopy, bind_ok]

/-- What QRAW writes, its marker included (R182). -/
theorem rawQuantum_eq (m : Memory) (quantumEnd : Word) (p : Phase) (n : Nat) (s : State) :
    gotoPhase p { advanceSrc n (setOut m (advanceSrc 2 s)) with dstCur := quantumEnd } =
      { s with
        outMem := m
        srcCur := (advanceSrc n (advanceSrc 2 s)).srcCur
        dstCur := quantumEnd
        phase := p
        stage := .head } := by
  simp only [gotoPhase, advanceSrc, setOut]

/-- The one check of the raw block comes before its first byte (R182, R251). -/
theorem copyRawBlock_short {n : Nat} (hleft : inputLeft s < n) : copyRawBlock P n s = .error (.failed (truncated s)) :=
  if_pos hleft

/-! ### RawBits by its input -/

theorem rawBits_ready {k : Nat} (hend : s.srcEnd.toNat ≤ s.compSize.toNat) (hready : renormReady (withoutLowBits k s)) :
    rawBits P k s = .ok (s.state1.toNat % 2 ^ k, afterRenorm (withoutLowBits k s) P) := by
  apply rawBits_ok
  rw [setState1_shift]
  exact renormalize_ready hend hready

/-- Raw bits whose `Renorm` has not its input have been shifted out when it fails (R166, R251). -/
theorem rawBits_notReady {k : Nat} (hready : ¬ renormReady (withoutLowBits k s)) :
    rawBits P k s = .error (.failed (truncated (withoutLowBits k s))) := by
  rw [rawBits, setState1_shift, renormalize_notReady hready, bind_error]

/-- A `Renorm` changes the coder states and the input cursor alone (R163). -/
theorem afterRenorm_frame : afterRenorm s P =
    { s with
      state1 := s.state2
      state2 := (afterRenorm s P).state2
      srcCur := (afterRenorm s P).srcCur } := by
  unfold afterRenorm
  split <;> rfl

@[simp] theorem afterRenorm_compSize : (afterRenorm s P).compSize = s.compSize := by rw [afterRenorm_frame]
@[simp] theorem afterRenorm_decompSize : (afterRenorm s P).decompSize = s.decompSize := by rw [afterRenorm_frame]
@[simp] theorem afterRenorm_srcEnd : (afterRenorm s P).srcEnd = s.srcEnd := by rw [afterRenorm_frame]
@[simp] theorem afterRenorm_dstCur : (afterRenorm s P).dstCur = s.dstCur := by rw [afterRenorm_frame]
@[simp] theorem afterRenorm_outMem : (afterRenorm s P).outMem = s.outMem := by rw [afterRenorm_frame]

/-! ### FIRSTLIT -/

/-- The write of the first literal, the coder apart (R190). -/
theorem writeFirstLiteral_ok {b : Byte} (hroom : s.dstCur.toNat < s.decompSize.toNat) :
    (outWrite s.dstCur.toNat b s >>= fun t => .ok (gotoPhase .qbody (setFirstLiteral false (advanceDst 1 t)))) =
      .ok { s with
        outMem := memWrite s.outMem s.dstCur.toNat b
        dstCur := s.dstCur + 1#32
        firstLiteralPending := false
        phase := .qbody
        stage := .head } := by
  simp only [outWrite_ok hroom, bind_ok, gotoPhase, setFirstLiteral, advanceDst, setOut]

/-- A pending first literal with input for its `Renorm` and room in OUT (R190). -/
theorem execFirstlit_ready (hpending : s.firstLiteralPending = true) (hend : s.srcEnd.toNat ≤ s.compSize.toNat)
    (hready : renormReady (withoutLowBits 8 s)) (hroom : s.dstCur.toNat < s.decompSize.toNat) :
    execFirstlit s P = .next { afterRenorm (withoutLowBits 8 s) P with
      outMem := memWrite s.outMem s.dstCur.toNat (BitVec.ofNat 8 s.state1.toNat)
      dstCur := s.dstCur + 1#32
      firstLiteralPending := false
      phase := .qbody
      stage := .head } := by
  have hbyte : BitVec.ofNat 8 (s.state1.toNat % 2 ^ 8) = BitVec.ofNat 8 s.state1.toNat :=
    BitVec.eq_of_toNat_eq (by simp only [BitVec.toNat_ofNat, Nat.mod_mod])
  rw [execFirstlit, if_pos hpending, rawBits_ready hend hready, bind_ok]
  refine (congrArg conclude (writeFirstLiteral_ok ?_)).trans ?_
  · rw [afterRenorm_dstCur, afterRenorm_decompSize]
    exact hroom
  · rw [afterRenorm_dstCur, afterRenorm_outMem, hbyte]
    rfl

theorem execFirstlit_notReady (hpending : s.firstLiteralPending = true) (hready : ¬ renormReady (withoutLowBits 8 s)) :
    execFirstlit s P = .next (truncated (withoutLowBits 8 s)) := by
  rw [execFirstlit, if_pos hpending, rawBits_notReady hready, bind_error, conclude_failed]

/-! ### QEND -/

/-- Both states at the end value: AfterQuantum decides (R194, R115). -/
theorem execQend_passes (h1 : s.state1 = 0x10000#32) (h2 : s.state2 = 0x10000#32) :
    execQend s P = conclude (afterQuantum P s) := by
  rw [execQend, Params.stateLow, if_neg (not_or.mpr ⟨not_not.mpr h1, not_not.mpr h2⟩)]

theorem execQend_rejects (h : s.state1 ≠ 0x10000#32 ∨ s.state2 ≠ 0x10000#32) :
    execQend s P = .next (raiseFailure (.formatEndstate s.state1 s.state2) s) := by
  rw [execQend, Params.stateLow, if_pos h, conclude_failed]

/-- Output left: the next quantum, under any parameters (R115). -/
theorem afterQuantum_more (h : s.dstCur < s.dstEnd) : afterQuantum P s = .ok (gotoPhase .qstart s) :=
  if_pos h

/-- The output full and the input used up: the decode is done, whatever `TRAILING_INPUT` is (D14). -/
theorem afterQuantum_usedUp (h : s.dstEnd ≤ s.dstCur) (hsrc : s.srcCur = s.srcEnd) :
    afterQuantum P s = .ok (gotoPhase .doneOk s) := by
  have haccepted : endAccepted P s = true := by
    cases htrailing : P.trailingInput with
    | ignore => exact endAccepted_ignore s htrailing
    | fail => rw [endAccepted_fail s htrailing, hsrc, decide_eq_true rfl]
  rw [afterQuantum, if_neg (BitVec.not_lt.mpr h), if_pos haccepted]

/-- The output full and input left over, under `TRAILING_INPUT = fail` (D14; log 23). -/
theorem afterQuantum_leftOver (htrailing : P.trailingInput = .fail) (h : s.dstEnd ≤ s.dstCur) (hsrc : s.srcCur ≠ s.srcEnd) :
    afterQuantum P s = .error (.failed (raiseFailure (.trailingInput s.srcCur) s)) := by
  have hrefused : ¬ endAccepted P s = true := by
    rw [endAccepted_fail s htrailing, decide_eq_true_eq]
    exact hsrc
  rw [afterQuantum, if_neg (BitVec.not_lt.mpr h), if_neg hrefused]

end Sys2Proof.Machine

namespace Sys2Proof.Proofs

open Sys2Proof.Machine

/-- Settles O15: both formulas, their range (`quantumSize_range`), and that at a multiple of 65536 they are one. -/
theorem quantumSizeRule : Obligations.QuantumSizeRule := by
  refine fun cur fin h => ⟨rfl, quantumSize_aligned cur fin, fun b => quantumSize_range b h, fun hmultiple => ?_⟩
  rw [quantumSize_aligned, quantumSize, Params.quantumMax]
  omega

/-- Settles O16: the state is that of `execQstart_eq`, and the quantum's end does not wrap (`toNat_nextQuantumEnd`). -/
theorem qstartSelectsByMarker : Obligations.QstartSelectsByMarker := fun _ h hleft hend =>
  ⟨_, execQstart_eq hleft hend, toNat_nextQuantumEnd h, rfl⟩

/-- Settles O17: past the marker the block has its bytes, so it is copied (`copyRawBlock_ok`); AfterQuantum then tests the cursor,
which is the quantum's end. -/
theorem qrawCopiesVerbatim : Obligations.QrawCopiesVerbatim := by
  intro s n hquantum hin hcomp hdecomp
  have hmarker : 2 ≤ inputLeft s := by rw [inputLeft]; omega
  have hcursor := srcCur_advanceSrc hmarker
  have hblock : n ≤ inputLeft (advanceSrc 2 s) := by rw [inputLeft_advanceSrc hmarker, inputLeft]; omega
  obtain ⟨m, hcopy, hbytes, hothers⟩ := copyRawBlock_ok (P := Params.default) hblock
    (by rw [hcursor, advanceSrc_compSize]; omega) (by rw [advanceSrc_dstCur, advanceSrc_decompSize]; omega)
  have hexec : exec .qraw s = conclude (copyRawBlock Params.default (quantumLength s) (advanceSrc 2 s)) := rfl
  rw [quantumLength_eq hquantum, hcopy, advanceDst_quantum (s := advanceSrc n (setOut m (advanceSrc 2 s))) hquantum,
    afterQuantum_default, conclude_ok, rawQuantum_eq] at hexec
  exact ⟨_, hexec, fun i hi => hcursor ▸ hbytes i hi, hothers,
    (srcCur_advanceSrc (s := advanceSrc 2 s) hblock).trans (congrArg (· + n) hcursor), rfl⟩

/-- Settles O18: past the marker fewer bytes are left than the block has (`copyRawBlock_short`). -/
theorem qrawTruncatedFails : Obligations.QrawTruncatedFails := by
  intro s n hquantum hmarker hshort
  have hblock : inputLeft (advanceSrc 2 s) < n := by
    have hunit : 2 ≤ inputLeft s := by rw [inputLeft]; omega
    rw [inputLeft_advanceSrc hunit, inputLeft]
    omega
  have hexec : exec .qraw s = conclude (copyRawBlock Params.default (quantumLength s) (advanceSrc 2 s)) := rfl
  rw [hexec, quantumLength_eq hquantum, copyRawBlock_short hblock]
  rfl

/-- Settles O21: `execFirstlit_ready` gives the state, whose OUT is one `memWrite`. -/
theorem firstlitEmitsRawByte : Obligations.FirstlitEmitsRawByte := by
  refine fun s => ⟨fun hpending hend hready hroom => ?ready, fun hpending hready => ?short, fun hclear => ?clear⟩
  case ready =>
    exact ⟨_, execFirstlit_ready hpending hend hready hroom, memRead_memWrite_same _ _ _,
      fun a ha => memRead_memWrite_other _ _ _ _ ha, rfl⟩
  case short => exact execFirstlit_notReady hpending hready
  case clear => exact congrArg conclude (if_neg (Bool.eq_false_iff.mp hclear))

/-- Settles O22: past the check of the states (`execQend_passes`) each clause is one case of AfterQuantum. -/
theorem qendChecksBothStates : Obligations.QendChecksBothStates := by
  refine fun s => ⟨fun P htrailing h1 h2 => ⟨fun hmore => ?more, fun hfull hsrc => ?usedUp, fun hfull hsrc => ?leftOver⟩,
    fun h1 h2 => ?default, execQend_rejects⟩
  case more => exact (execQend_passes h1 h2).trans (congrArg conclude (afterQuantum_more hmore))
  case usedUp => exact (execQend_passes h1 h2).trans (congrArg conclude (afterQuantum_usedUp hfull hsrc))
  case leftOver => exact (execQend_passes h1 h2).trans (congrArg conclude (afterQuantum_leftOver htrailing hfull hsrc))
  case default => exact (execQend_passes h1 h2).trans (congrArg conclude (afterQuantum_default s))

end Sys2Proof.Proofs
end

section
/-! PROOFS. The header of a coded quantum (R186 to R189, R93). Each of its reads finds its unit or is the first that does not, so
`withInput` says both at once; QHDR is then one equation (`execQhdr_eq`), from which its completion (O19), the reject of a low value
(O20) and its truncation (for O60, below) are read off. -/

namespace Sys2Proof.Machine

variable {P : Parameters} {s : State} {n k : Nat}

/-! ### Reads one after another -/

theorem advanceSrc_zero (s : State) : advanceSrc 0 s = s := by
  simp [advanceSrc]

theorem advanceSrc_advanceSrc (m n : Nat) (s : State) : advanceSrc n (advanceSrc m s) = advanceSrc (m + n) s := by
  simp only [advanceSrc, BitVec.add_assoc, BitVec.ofNat_add]

/-- The failure of the first unit that the input has not: the cursor is past the whole units (R251). -/
def outOfUnits (s : State) : Stop := .failed (truncated (advanceSrc (inputLeft s / 2 * 2) s))

/-- The answer of reads that take the first `n` bytes of the input, in whole units. -/
def withInput {α : Type} (s : State) (n : Nat) (r : Except Stop α) : Except Stop α :=
  if n ≤ inputLeft s then r else .error (outOfUnits s)

theorem withInput_of_le {α : Type} {r : Except Stop α} (h : n ≤ inputLeft s) : withInput s n r = r := if_pos h

theorem withInput_of_lt {α : Type} {r : Except Stop α} (h : inputLeft s < n) : withInput s n r = .error (outOfUnits s) :=
  if_neg h.not_ge

/-- Reads that take `n` bytes, and the reads after them up to `k` bytes. -/
theorem withInput_bind {α β : Type} {r : Except Stop α} {a : α} {f : α → Except Stop β} {r' : Except Stop β}
    (hr : r = withInput s n (.ok a)) (hnk : n ≤ k) (hf : n ≤ inputLeft s → f a = withInput s k r') :
    (r >>= f) = withInput s k r' := by
  by_cases hn : n ≤ inputLeft s
  · rw [hr, withInput_of_le hn, bind_ok, hf hn]
  · rw [hr, withInput_of_lt (by omega), withInput_of_lt (by omega), bind_error]

/-- The read of the unit after `n` bytes (R161). -/
theorem readUnit_after (hend : s.srcEnd.toNat ≤ s.compSize.toNat) (hn : n ≤ inputLeft s) (heven : n % 2 = 0) :
    readUnit P (advanceSrc n s) = withInput s (n + 2) (.ok (unitAt s (s.srcCur.toNat + n) P, advanceSrc (n + 2) s)) := by
  have hleft := inputLeft_advanceSrc hn
  by_cases h : n + 2 ≤ inputLeft s
  · rw [withInput_of_le h, readUnit_ok (s := advanceSrc n s) (by omega) hend, srcCur_advanceSrc hn, advanceSrc_advanceSrc]
    rfl
  · have hcut : inputLeft s / 2 * 2 = n := by omega
    rw [withInput_of_lt (by omega), readUnit_short (by omega), outOfUnits, hcut]
    rfl

/-! ### The optional chunks -/

/-- The bytes that a chunk takes from the input: a unit when the register is below 0x10000 (R186). -/
def chunkBytes (x : Word) : Nat := if x.toNat < 65536 then 2 else 0

/-- The register after its chunk (R186). -/
def withChunk (x : Word) (w : StreamUnit) : Word := if x.toNat < 65536 then foldUnit x w else x

theorem chunkBytes_eq (x : Word) : chunkBytes x = 2 * if x.toNat < 65536 then 1 else 0 := by
  unfold chunkBytes
  split <;> rfl

theorem toNat_withChunk (x : Word) (w : StreamUnit) :
    (withChunk x w).toNat = if x.toNat < 65536 then x.toNat * 65536 + w.toNat else x.toNat := by
  unfold withChunk
  split
  · exact toNat_foldUnit w ‹_›
  · rfl

/-- A nonzero register is a ready coder state after its chunk (R188). -/
theorem withChunk_ready {x : Word} (w : StreamUnit) (hx : 1 ≤ x.toNat) : 65536 ≤ (withChunk x w).toNat := by
  rw [toNat_withChunk]
  split <;> omega

theorem pullIfLow_after (x : Word) (hend : s.srcEnd.toNat ≤ s.compSize.toNat) (hn : n ≤ inputLeft s) (heven : n % 2 = 0) :
    pullIfLow P x (advanceSrc n s) = withInput s (n + chunkBytes x)
      (.ok (withChunk x (unitAt s (s.srcCur.toNat + n) P), advanceSrc (n + chunkBytes x) s)) := by
  by_cases hx : x.toNat < 65536
  · rw [chunkBytes, withChunk, if_pos hx, if_pos hx, pullIfLow, if_pos (show x < Params.stateLow from hx)]
    exact withInput_bind (readUnit_after hend hn heven) le_rfl fun h => (withInput_of_le h).symm
  · rw [chunkBytes, withChunk, if_neg hx, if_neg hx, pullIfLow_high (not_lt.mp hx), Nat.add_zero,
      withInput_of_le hn]

/-! ### The states of a header value -/

/-- The header value at the cursor (R186). -/
def headerAt (s : State) (P : Parameters := Params.default) : Word :=
  headerValue (unitAt s s.srcCur.toNat P) (unitAt s (s.srcCur.toNat + 2) P)

/-- The register `a` of R186, after chunk x1. -/
def headerA (s : State) (P : Parameters := Params.default) : Word :=
  withChunk (headerAt s P >>> 4) (unitAt s (s.srcCur.toNat + 4) P)

/-- The register of `state1` before chunk x2 (R186). -/
def headerShifted (s : State) (P : Parameters := Params.default) : Word := headerA s P >>> ((headerAt s P).toNat % 16)

/-- The bytes of the header before chunk x2: two units, and x1 when it is there (R186). -/
def bytesBeforeX2 (s : State) (P : Parameters := Params.default) : Nat := 4 + chunkBytes (headerAt s P >>> 4)

/-- The bytes of the header before the unit x3 (R186). -/
def bytesBeforeX3 (s : State) (P : Parameters := Params.default) : Nat := bytesBeforeX2 s P + chunkBytes (headerShifted s P)

/-- `state1` as the header gives it (R186). -/
def headerState1 (s : State) (P : Parameters := Params.default) : Word :=
  withChunk (headerShifted s P) (unitAt s (s.srcCur.toNat + bytesBeforeX2 s P) P)

/-- `state2` as the header gives it (R186). -/
def headerState2At (s : State) (P : Parameters := Params.default) : Word :=
  headerState2 ((headerAt s P).toNat % 16) (foldUnit (headerA s P) (unitAt s (s.srcCur.toNat + bytesBeforeX3 s P) P))

theorem bytesBeforeX2_even (s : State) : bytesBeforeX2 s P % 2 = 0 := by
  rw [bytesBeforeX2, chunkBytes_eq]
  omega

theorem bytesBeforeX3_even (s : State) : bytesBeforeX3 s P % 2 = 0 := by
  rw [bytesBeforeX3, bytesBeforeX2, chunkBytes_eq, chunkBytes_eq]
  omega

theorem loadStates_after (hend : s.srcEnd.toNat ≤ s.compSize.toNat) (h4 : 4 ≤ inputLeft s) :
    loadStates P (headerAt s P) (advanceSrc 4 s) = withInput s (bytesBeforeX3 s P + 2)
      (.ok (setStates (headerState1 s P) (headerState2At s P) (advanceSrc (bytesBeforeX3 s P + 2) s))) := by
  have hbytes : 4 + chunkBytes (headerAt s P >>> 4) ≤ bytesBeforeX3 s P + 2 :=
    Nat.le_add_right_of_le (Nat.le_add_right _ _)
  refine withInput_bind (pullIfLow_after _ hend h4 (by rfl)) hbytes fun hX2 => ?_
  refine withInput_bind (pullIfLow_after _ hend hX2 (bytesBeforeX2_even s)) (Nat.le_add_right _ 2) fun hX3 => ?_
  exact withInput_bind (readUnit_after hend hX3 (bytesBeforeX3_even s)) le_rfl fun h => (withInput_of_le h).symm

/-- QHDR, whatever input is left: the header value needs two units, a legal one up to three more (R186). -/
theorem execQhdr_eq (hend : s.srcEnd.toNat ≤ s.compSize.toNat) :
    execQhdr s P = conclude (withInput s 4 (
      if headerAt s P < Params.stateLow then .error (.failed (raiseFailure (.formatHeader (headerAt s P)) (advanceSrc 4 s)))
      else withInput s (bytesBeforeX3 s P + 2) (.ok (gotoPhase .qfirst (setFirstLiteral true
        (setStates (headerState1 s P) (headerState2At s P) (advanceSrc (bytesBeforeX3 s P + 2) s))))))) := by
  have hread0 : readUnit P s = withInput s 2 (.ok (unitAt s s.srcCur.toNat P, advanceSrc 2 s)) := by
    simpa only [advanceSrc_zero, Nat.zero_add, Nat.add_zero] using readUnit_after (P := P) hend (Nat.zero_le _) (Nat.zero_mod 2)
  refine congrArg conclude (withInput_bind hread0 (by decide) fun h2 => ?_)
  refine withInput_bind (readUnit_after hend h2 (by rfl)) le_rfl fun h4 => ?_
  rw [withInput_of_le h4]
  by_cases hlow : headerAt s P < Params.stateLow
  · rw [if_pos hlow]
    exact if_pos hlow
  · rw [if_neg hlow]
    refine (if_neg hlow).trans ?_
    exact withInput_bind (loadStates_after hend h4) le_rfl fun h => (withInput_of_le h).symm

/-! ### The header in numbers (R93) -/

theorem toNat_headerAt (s : State) : (headerAt s P).toNat =
    (unitAt s s.srcCur.toNat P).toNat * 65536 + (unitAt s (s.srcCur.toNat + 2) P).toNat := by
  have hunit := (unitAt s s.srcCur.toNat P).isLt
  have hwide : ((unitAt s s.srcCur.toNat P).setWidth 32).toNat = (unitAt s s.srcCur.toNat P).toNat :=
    BitVec.toNat_setWidth_of_le (by decide)
  rw [headerAt, headerValue, toNat_foldUnit _ (by omega), hwide]

theorem toNat_headerA (s : State) : (headerA s P).toNat =
    if (headerAt s P).toNat / 16 < 65536 then (headerAt s P).toNat / 16 * 65536 + (unitAt s (s.srcCur.toNat + 4) P).toNat
    else (headerAt s P).toNat / 16 := by
  rw [headerA, toNat_withChunk, BitVec.toNat_ushiftRight, Nat.shiftRight_eq_div_pow]

theorem toNat_headerShifted (s : State) :
    (headerShifted s P).toNat = (headerA s P).toNat / 2 ^ ((headerAt s P).toNat % 16) := by
  rw [headerShifted, BitVec.toNat_ushiftRight, Nat.shiftRight_eq_div_pow]

theorem bytesBeforeX2_eq (s : State) : bytesBeforeX2 s P = 4 + 2 * if (headerAt s P).toNat / 16 < 65536 then 1 else 0 := by
  rw [bytesBeforeX2, chunkBytes_eq, BitVec.toNat_ushiftRight, Nat.shiftRight_eq_div_pow]

theorem bytesBeforeX3_eq (s : State) : bytesBeforeX3 s P =
    4 + 2 * (if (headerAt s P).toNat / 16 < 65536 then 1 else 0) +
      2 * (if (headerA s P).toNat / 2 ^ ((headerAt s P).toNat % 16) < 65536 then 1 else 0) := by
  rw [bytesBeforeX3, bytesBeforeX2_eq, chunkBytes_eq, toNat_headerShifted]

/-- A unit folded into a register, below the bit `n + 16` (R186). -/
theorem foldUnit_mod {a : Word} (w : StreamUnit) (hn : n < 16) :
    (foldUnit a w).toNat % 2 ^ (n + 16) = a.toNat % 2 ^ n * 65536 + w.toNat := by
  have hw : w.toNat < 2 ^ 16 := w.isLt
  have hfold : (foldUnit a w).toNat = a.toNat % 2 ^ 16 * 2 ^ 16 + w.toNat := by
    have hshift : a.toNat <<< 16 % 2 ^ 32 = (a.toNat % 2 ^ 16) <<< 16 := by
      rw [Nat.shiftLeft_eq, Nat.shiftLeft_eq]
      omega
    rw [foldUnit, BitVec.toNat_or, BitVec.toNat_shiftLeft, BitVec.toNat_setWidth_of_le (by decide), hshift,
      ← Nat.shiftLeft_add_eq_or_of_lt hw, Nat.shiftLeft_eq]
  have hlow : a.toNat % 2 ^ 16 % 2 ^ n = a.toNat % 2 ^ n := Nat.mod_mod_of_dvd _ (Nat.pow_dvd_pow 2 hn.le)
  have hunit : (a.toNat % 2 ^ 16 * 2 ^ 16 + w.toNat) % 2 ^ 16 = w.toNat := by omega
  have hhigh : (a.toNat % 2 ^ 16 * 2 ^ 16 + w.toNat) / 2 ^ 16 = a.toNat % 2 ^ 16 := by omega
  rw [hfold, Nat.add_comm n, Nat.pow_add, Nat.mod_mul, hunit, hhigh, hlow, Nat.add_comm, Nat.mul_comm]

/-- `state2` is the bit `n + 16` and below it the low `n` bits of `a` and the unit x3 (R186, R93). -/
theorem toNat_headerState2 {a : Word} (w : StreamUnit) (hn : n < 16) :
    (headerState2 n (foldUnit a w)).toNat = 2 ^ (n + 16) + a.toNat % 2 ^ n * 65536 + w.toNat := by
  have hpow : 2 ^ (n + 16) < 2 ^ 32 := Nat.pow_lt_pow_right (by decide) (by omega)
  have hbit : (1#32 <<< (n + 16)).toNat = 2 ^ (n + 16) := by
    rw [BitVec.toNat_shiftLeft, Nat.shiftLeft_eq, BitVec.toNat_ofNat]
    omega
  have hmask : (1#32 <<< (n + 16) - 1#32).toNat = 2 ^ (n + 16) - 1 := by
    have hpos := Nat.two_pow_pos (n + 16)
    rw [BitVec.toNat_sub_of_le (by rw [BitVec.le_def, hbit]; exact hpos), hbit]
    rfl
  have hor := Nat.two_pow_add_eq_or_of_lt (Nat.mod_lt (foldUnit a w).toNat (Nat.two_pow_pos (n + 16))) 1
  rw [headerState2, BitVec.toNat_or, BitVec.toNat_and, hbit, hmask, Nat.and_two_pow_sub_one_eq_mod]
  rw [Nat.mul_one] at hor
  rw [← hor, foldUnit_mod w hn, Nat.add_assoc]

theorem toNat_headerState2At (s : State) : (headerState2At s P).toNat =
    2 ^ ((headerAt s P).toNat % 16 + 16) + (headerA s P).toNat % 2 ^ ((headerAt s P).toNat % 16) * 65536 +
      (unitAt s (s.srcCur.toNat + bytesBeforeX3 s P) P).toNat :=
  toNat_headerState2 _ (Nat.mod_lt _ (by decide))

theorem toNat_headerState1 (s : State) : (headerState1 s P).toNat =
    if (headerShifted s P).toNat < 65536 then
      (headerShifted s P).toNat * 65536 + (unitAt s (s.srcCur.toNat + bytesBeforeX2 s P) P).toNat
    else (headerShifted s P).toNat :=
  toNat_withChunk _ _

/-- Of a legal header value neither register is ever 0, so `state1` is ready (R187, R188). -/
theorem headerState1_ready (hlegal : 65536 ≤ (headerAt s P).toNat) : 65536 ≤ (headerState1 s P).toNat := by
  have hA : 65536 ≤ (headerA s P).toNat := withChunk_ready _ (toNat_ushiftRight_pos (le_trans (by decide) hlegal))
  have hpow : 2 ^ ((headerAt s P).toNat % 16) ≤ 2 ^ 16 := Nat.pow_le_pow_right (by decide) (Nat.mod_lt _ (by decide)).le
  exact withChunk_ready _ (toNat_ushiftRight_pos (hpow.trans hA))

/-! ### The outcomes of QHDR -/

/-- What QHDR writes once both states are known (R186, R189). -/
theorem enterFirst_eq (v1 v2 : Word) (n : Nat) (s : State) :
    gotoPhase .qfirst (setFirstLiteral true (setStates v1 v2 (advanceSrc n s))) =
      { s with
        state1 := v1
        state2 := v2
        srcCur := (advanceSrc n s).srcCur
        firstLiteralPending := true
        phase := .qfirst
        stage := .head } := by
  simp only [gotoPhase, setFirstLiteral, setStates, advanceSrc]

/-- A legal header value with all its units (R186, R189). -/
theorem execQhdr_loads (hend : s.srcEnd.toNat ≤ s.compSize.toNat) (hlegal : 65536 ≤ (headerAt s P).toNat)
    (hleft : bytesBeforeX3 s P + 2 ≤ inputLeft s) :
    execQhdr s P = .next { s with
      state1 := headerState1 s P
      state2 := headerState2At s P
      srcCur := (advanceSrc (bytesBeforeX3 s P + 2) s).srcCur
      firstLiteralPending := true
      phase := .qfirst
      stage := .head } := by
  have h4 : 4 ≤ inputLeft s := by
    rw [bytesBeforeX3_eq] at hleft
    omega
  have hhigh : ¬ headerAt s P < Params.stateLow := not_lt.mpr hlegal
  rw [execQhdr_eq hend, withInput_of_le h4, if_neg hhigh, withInput_of_le hleft, conclude_ok, enterFirst_eq]

/-- A header value below 0x10000, after its two units (R94). -/
theorem execQhdr_rejects (hend : s.srcEnd.toNat ≤ s.compSize.toNat) (h4 : 4 ≤ inputLeft s)
    (hlow : (headerAt s P).toNat < 65536) :
    execQhdr s P = .next (raiseFailure (.formatHeader (headerAt s P)) (advanceSrc 4 s)) := by
  have hlt : headerAt s P < Params.stateLow := hlow
  rw [execQhdr_eq hend, withInput_of_le h4, if_pos hlt, conclude_failed]

/-- A header whose two units, or whose chunks after a legal value, are not all there (R251). -/
theorem execQhdr_short (hend : s.srcEnd.toNat ≤ s.compSize.toNat)
    (hshort : inputLeft s < 4 ∨ 65536 ≤ (headerAt s P).toNat ∧ inputLeft s < bytesBeforeX3 s P + 2) :
    execQhdr s P = .next (truncated (advanceSrc (inputLeft s / 2 * 2) s)) := by
  rw [execQhdr_eq hend]
  by_cases h4 : inputLeft s < 4
  · rw [withInput_of_lt h4]
    rfl
  · obtain ⟨hlegal, hcut⟩ := hshort.resolve_left h4
    have hhigh : ¬ headerAt s P < Params.stateLow := not_lt.mpr hlegal
    rw [withInput_of_le (not_lt.mp h4), if_neg hhigh, withInput_of_lt hcut]
    rfl

end Sys2Proof.Machine

namespace Sys2Proof.Proofs

open Sys2Proof.Machine

/-- Settles O19: the numbers of the statement are those of `execQhdr_loads`, register by register. -/
theorem qhdrReconstructsStates : Obligations.QhdrReconstructsStates := by
  intro s p v n a0 k1 a k2 hend hp hv hlegal hn ha0 hk1 ha hk2 hleft
  subst hp
  rw [← toNat_headerAt (P := Params.default)] at hv
  subst hv hn ha0
  rw [← toNat_headerA] at ha
  subst ha
  have hX2 : bytesBeforeX2 s = 4 + 2 * k1 := hk1 ▸ bytesBeforeX2_eq s
  have hX3 : bytesBeforeX3 s = 4 + 2 * k1 + 2 * k2 := hk1 ▸ hk2 ▸ bytesBeforeX3_eq s
  have hstate1 := toNat_headerState1 (P := Params.default) s
  have hstate2 := toNat_headerState2At (P := Params.default) s
  rw [toNat_headerShifted, hX2, ← Nat.add_assoc] at hstate1
  rw [hX3, ← Nat.add_assoc, ← Nat.add_assoc] at hstate2
  have hready2 : 65536 ≤ (headerState2At s).toNat := headerState2_ready (Nat.mod_lt _ (by decide)) _
  have hbytes : bytesBeforeX3 s + 2 ≤ inputLeft s := by omega
  have hcursor := srcCur_advanceSrc hbytes
  refine ⟨_, execQhdr_loads hend hlegal hbytes, hstate1, hstate2, ⟨headerState1_ready hlegal, hready2⟩, ?src, rfl⟩
  case src => exact hcursor.trans (by omega)

/-- Settles O20: with a first unit of 0 the header value is the second unit, so it is below 0x10000 (`execQhdr_rejects`). -/
theorem qhdrRejectsLowHeader : Obligations.QhdrRejectsLowHeader := by
  intro s hend h4 hunit
  have hvalue : headerAt s = (unitAt s (s.srcCur.toNat + 2)).setWidth 32 := by
    simp [headerAt, headerValue, foldUnit, hunit]
  have hlow : (headerAt s).toNat < 65536 := by
    rw [hvalue, BitVec.toNat_setWidth_of_le (by decide)]
    exact (unitAt s (s.srcCur.toNat + 2)).isLt
  rw [← hvalue]
  exact execQhdr_rejects hend h4 hlow

end Sys2Proof.Proofs
end

section
/-! PROOFS. A unit that is missing (R250, R251): what a symbol's decode, its `Renorm` and the direct unit of DNEW do, and with the
reads of QHDR the failures of both (O60). -/

namespace Sys2Proof.Machine

variable {P : Parameters} {s : State}

/-! ### A symbol and its Renorm -/

/-- The residue's symbol is the one decoded, on a model that meets R37 (R148). -/
theorem decodeSymbol_nextSymbol {m : ModelId} {sym : Nat} (hM : ModelInv m.cls (s.model m)) (hsym : nextSymbol m s = some sym) :
    decodeSymbol P m s = .ok (sym, afterDecode m sym s P) := by
  obtain ⟨-, habove, -⟩ := symOf_some hsym
  exact decodeSymbol_eq (searchSymbol_of_symOf hsym (guess_le hM (Nat.mod_lt _ (by decide)) habove))

theorem decodeAndRenorm_notReady {m : ModelId} {sym : Nat} (hM : ModelInv m.cls (s.model m)) (hsym : nextSymbol m s = some sym)
    (hready : ¬ renormReady (afterDecode m sym s P)) :
    decodeAndRenorm P m s = .error (.failed (truncated (afterDecode m sym s P))) := by
  simp only [decodeAndRenorm, decodeSymbol_nextSymbol hM hsym, bind_ok, renormalize_notReady hready, bind_error]

@[simp] theorem afterDecode_srcEnd (m : ModelId) (sym : Nat) (s : State) : (afterDecode m sym s P).srcEnd = s.srcEnd := by
  rw [afterDecode_frame]

@[simp] theorem afterDecode_compSize (m : ModelId) (sym : Nat) (s : State) : (afterDecode m sym s P).compSize = s.compSize := by
  rw [afterDecode_frame]

theorem decodeAndRenorm_ready {m : ModelId} {sym : Nat} (hM : ModelInv m.cls (s.model m)) (hsym : nextSymbol m s = some sym)
    (hend : s.srcEnd.toNat ≤ s.compSize.toNat) (hready : renormReady (afterDecode m sym s P)) :
    decodeAndRenorm P m s = .ok (sym, afterRenorm (afterDecode m sym s P) P) := by
  have hend' : (afterDecode m sym s P).srcEnd.toNat ≤ (afterDecode m sym s P).compSize.toNat := by simpa using hend
  simp only [decodeAndRenorm, decodeSymbol_nextSymbol hM hsym, bind_ok, renormalize_ready hend' hready]

/-! ### DNEW -/

/-- The direct unit of a bit count of 16 or more is not there (R230, R251). -/
theorem longBits_short {nb bits : Nat} (hnb : 16 ≤ nb) (hleft : inputLeft s < 2) :
    longBits P nb bits s = .error (.failed (truncated s)) := by
  rw [longBits, if_neg hnb.not_gt, readUnit_short hleft, bind_error]
  rfl

/-- All three rows of DNEW are one operation of their symbol (R88, log 30). -/
theorem exec_dnew {i : Instr} {osym : Nat} (h : dnewOf i osym) : exec i s = conclude (newDistanceOp Params.default osym s) := by
  rcases h with ⟨c, rfl, rfl⟩ | ⟨c, rfl, rfl⟩ | ⟨c, rfl, rfl⟩ <;> rfl

end Sys2Proof.Machine

namespace Sys2Proof.Proofs

open Sys2Proof.Machine

/-- Settles O60: QHDR by `execQhdr_short`; DNEW, in each row `newDistanceOp`, by the first of its three reads that fails. -/
theorem missingUnitFailsHeaderAndDistance : Obligations.MissingUnitFailsHeaderAndDistance := by
  intro s hend
  refine ⟨?header, fun i osym nb hi hM hsym => ?distance⟩
  case header =>
    intro p v n a0 k1 a k2 hp hv hn ha0 hk1 ha hk2 hshort
    subst hp
    rw [← toNat_headerAt (P := Params.default)] at hv
    subst hv hn ha0
    rw [← toNat_headerA] at ha
    subst ha
    have hX3 : bytesBeforeX3 s = 4 + 2 * k1 + 2 * k2 := hk1 ▸ hk2 ▸ bytesBeforeX3_eq s
    exact execQhdr_short hend (hshort.imp_right (And.imp_right fun h => by omega))
  case distance =>
    have hM' : ModelInv (ModelId.cls .obl) (s.model .obl) := hM
    have hend' : (afterRenorm (afterDecode .obl nb s)).srcEnd.toNat ≤ (afterRenorm (afterDecode .obl nb s)).compSize.toNat := by
      simpa using hend
    rw [exec_dnew hi, newDistanceOp]
    refine ⟨fun hcount => ?count, fun hcount u hu => ?rest⟩
    case count => rw [decodeAndRenorm_notReady hM' hsym hcount, bind_error, conclude_failed]
    case rest =>
      subst hu
      simp only [decodeAndRenorm_ready hM' hsym hend hcount, bind_ok]
      refine ⟨fun hraw => ?raw, fun hraw hnb hleft => ?unit⟩
      case raw => rw [rawBits_notReady hraw, bind_error, conclude_failed]
      case unit => simp only [rawBits_ready hend' hraw, bind_ok, longBits_short hnb hleft, bind_error, conclude_failed]

end Sys2Proof.Proofs
end

section
/-! PROOFS. Literals and matches before their distance is known (44_lz_dispatch.md): LIT (R212, O23), the two rows of the match length
(R216, O24; R218, O25), and COPY, its checks (R233, O35) and its bytes (R235, R236, O34). -/

namespace Sys2Proof.Machine

variable {P : Parameters} {s : State}

/-! ### The operations of this family -/

theorem exec_lit (delta : BitVec 8) (s : State) : exec (.lit delta) s = execLit delta s := rfl
theorem exec_matchs (code : BitVec 5) (s : State) : exec (.matchs code) s = execMatchs code s := rfl
theorem exec_matchx (code : BitVec 4) (s : State) : exec (.matchx code) s = execMatchx code s := rfl
theorem exec_dcache (rank : BitVec 3) (s : State) : exec (.dcache rank) s = execDcache rank s := rfl
theorem exec_nbits (s : State) : exec .nbits s = execNbits s := rfl
theorem exec_copy (len dist : Word) (s : State) : exec (.copy len dist) s = execCopy len dist s := rfl

/-! ### LIT -/

/-- LIT with its base byte behind the cursor and room in OUT (R212, R213). -/
theorem execLit_ok {delta : BitVec 8} (hback : s.lastCopyOffset.toNat ≤ s.dstCur.toNat)
    (hpos : 1 ≤ s.lastCopyOffset.toNat) (hroom : s.dstCur.toNat < s.decompSize.toNat) :
    execLit delta s = .next (advanceDst 1 (setOut
      (memWrite s.outMem s.dstCur.toNat (delta + outValue s (s.dstCur.toNat - s.lastCopyOffset.toNat))) s)) := by
  rw [execLit, outByteBack_ok hback (by omega), bind_ok, outWrite_ok hroom, bind_ok, conclude_ok]

/-! ### The match length -/

/-- A word holds a number below its range (log 25). -/
theorem toNat_ofNat_word {x : Nat} (h : x < 2 ^ 32) : (BitVec.ofNat 32 x).toNat = x := by
  rw [BitVec.toNat_ofNat, Nat.mod_eq_of_lt h]

/-- A length fits its carrier (R91, log 2). -/
theorem toNat_lengthDecoded {len : Nat} (h : len ≤ 8223) : (lengthDecoded len s).copyLength.toNat = len := by
  rw [lengthDecoded_copyLength, toNat_ofNat_word (by omega)]

/-- Row MATCHX has the symbols from 288, so its code is one less than its number of raw bits (R218). -/
theorem extendedBits_matchx (code : BitVec 4) : extendedBits (288 + code.toNat) = code.toNat + 1 := by
  unfold extendedBits
  omega

theorem execMatchx_ready {code : BitVec 4} (hend : s.srcEnd.toNat ≤ s.compSize.toNat)
    (hready : renormReady (withoutLowBits (code.toNat + 1) s)) :
    execMatchx code s P = .next (lengthDecoded
      (extendedLength (code.toNat + 1) (s.state1.toNat % 2 ^ (code.toNat + 1)))
      (afterRenorm (withoutLowBits (code.toNat + 1) s) P)) := by
  rw [execMatchx, extendedBits_matchx, rawBits_ready hend hready, bind_ok]
  rfl

theorem execMatchx_notReady {code : BitVec 4} (hready : ¬ renormReady (withoutLowBits (code.toNat + 1) s)) :
    execMatchx code s P = .next (truncated (withoutLowBits (code.toNat + 1) s)) := by
  rw [execMatchx, extendedBits_matchx, rawBits_notReady hready, bind_error, conclude_failed]

/-! ### COPY -/

variable {len dist : Word}

theorem execCopy_badDistance (h : dist = 0#32 ∨ s.dstCur < dist) :
    execCopy len dist s = .next (raiseFailure (.invalidDistance dist s.dstCur) s) := by
  rw [execCopy, if_pos h, conclude_failed]

/-- The length is checked after a distance that passed (R233, R234). -/
theorem execCopy_overflow (hzero : dist ≠ 0#32) (hback : dist ≤ s.dstCur) (hlen : outputLeft s < len.toNat) :
    execCopy len dist s = .next (raiseFailure (.outputOverflow len s.dstCur) s) := by
  rw [execCopy, if_neg (not_or.mpr ⟨hzero, BitVec.not_lt.mpr hback⟩), if_pos hlen, conclude_failed]

/-- A COPY that passes both checks is its loop, the cursor and `lastCopyOffset` (R235, R236). -/
theorem execCopy_passes (hzero : dist ≠ 0#32) (hback : dist ≤ s.dstCur) (hlen : len.toNat ≤ outputLeft s) :
    execCopy len dist s = conclude (copyWithinOut len.toNat s.dstCur.toNat dist.toNat s >>= fun t =>
      .ok (gotoStage .head (setLastCopy dist (advanceDst len.toNat t)))) := by
  rw [execCopy, if_neg (not_or.mpr ⟨hzero, BitVec.not_lt.mpr hback⟩), if_neg hlen.not_gt]

/-- A copy that fits before the end of the output fits in OUT; with the cursor past that end it is empty (log 38). -/
theorem copyWithinOut_fits {n cur d e : Nat} (hpos : 1 ≤ d) (hback : d ≤ cur) (hlen : n ≤ e - cur)
    (hend : e ≤ s.decompSize.toNat) :
    ∃ m, copyWithinOut n cur d s = .ok (setOut m s) ∧
      (∀ i, i < n → memRead m (cur + i) = some (outValue (setOut m s) (cur + i - d))) ∧
      ∀ a, (a < cur ∨ cur + n ≤ a) → memRead m a = memRead s.outMem a := by
  cases n with
  | zero => exact ⟨s.outMem, rfl, fun i hi => absurd hi i.not_lt_zero, fun _ _ => rfl⟩
  | succ n =>
    obtain ⟨m, hcopy, hcopied, hothers, -⟩ := copyWithinOut_ok (n + 1) cur d s hpos hback (by omega)
    exact ⟨m, hcopy, hcopied, hothers⟩

/-- An offset that holds what it held reads as it did. -/
theorem outValue_setOut_eq {m : Memory} {a : Nat} (h : memRead m a = memRead s.outMem a) :
    outValue (setOut m s) a = outValue s a := by
  simp only [outValue, outEpoch, setOut_outMem, setOut_outForgotten, h]

/-- Where every copied byte equals the byte `d` before it, the copy repeats the `d` bytes before the cursor (R235). -/
theorem outValue_copied_periodic {m : Memory} {n cur d : Nat} (hpos : 1 ≤ d) (hback : d ≤ cur)
    (hcopied : ∀ i, i < n → memRead m (cur + i) = some (outValue (setOut m s) (cur + i - d)))
    (hbefore : ∀ a, a < cur → memRead m a = memRead s.outMem a) (i : Nat) (hi : i < n) :
    outValue (setOut m s) (cur + i - d) = outValue s (cur - d + i % d) := by
  induction i using Nat.strong_induction_on with
  | _ i ih =>
    rcases lt_or_ge i d with hfirst | hlater
    · rw [Nat.mod_eq_of_lt hfirst, show cur - d + i = cur + i - d by omega]
      exact outValue_setOut_eq (hbefore _ (by omega))
    · have hprevious : outValue (setOut m s) (cur + (i - d)) = outValue (setOut m s) (cur + (i - d) - d) := by
        rw [outValue, setOut_outMem, hcopied (i - d) (by omega), Option.getD_some]
      rw [Nat.mod_eq_sub_mod hlater, Nat.add_sub_assoc hlater, hprevious]
      exact ih (i - d) (by omega) (by omega)

end Sys2Proof.Machine

namespace Sys2Proof.Proofs

open Sys2Proof.Machine

/-- Settles O23: one byte is written, whose sum is that of bytes (`execLit_ok`), and the cursor does not wrap. -/
theorem litAddsDelta : Obligations.LitAddsDelta := by
  intro delta s hpos hback hroom
  refine ⟨_, execLit_ok hback hpos hroom, ?byte, fun a ha => memRead_memWrite_other _ _ _ _ ha, ?cursor, rfl⟩
  case byte =>
    rw [advanceDst_outMem, setOut_outMem, memRead_memWrite_same, Option.map_some, BitVec.toNat_add]
  case cursor =>
    have := s.decompSize.isLt
    rw [advanceDst_dstCur, setOut_dstCur, BitVec.toNat_add, BitVec.toNat_ofNat]
    omega

/-- Settles O24: the length of the row (`shortLength_range`) in its carrier. -/
theorem matchsGivesShortLength : Obligations.MatchsGivesShortLength := by
  intro code s
  obtain ⟨hlow, hhigh⟩ := shortLength_range code
  have hlen := toNat_lengthDecoded (s := s) (len := shortLength (256 + code.toNat)) (by omega)
  exact ⟨_, rfl, hlen, hlow.trans_eq hlen.symm, hlen.trans_le hhigh, rfl⟩

/-- Settles O25: the raw bits by their `Renorm` (`execMatchx_ready`, `execMatchx_notReady`), the range of the length by R91. -/
theorem matchxGivesExtendedLength : Obligations.MatchxGivesExtendedLength := by
  rintro code s nb hcode rfl hend
  refine ⟨fun hready => ?ready, execMatchx_notReady⟩
  case ready =>
    obtain ⟨hlow, hhigh⟩ := extendedLength_range (nb := code.toNat + 1) (by omega) (by omega)
      (Nat.mod_lt s.state1.toNat (Nat.two_pow_pos _))
    have hlen := toNat_lengthDecoded (s := afterRenorm (withoutLowBits (code.toNat + 1) s)) hhigh
    exact ⟨_, execMatchx_ready hend hready, hlen.trans (extendedLength_eq _ _), hlow.trans_eq hlen.symm,
      hlen.trans_le hhigh, rfl⟩

/-- Settles O35: the two checks in their order, before the loop. -/
theorem copyValidatesInOrder : Obligations.CopyValidatesInOrder :=
  fun _ _ _ => ⟨execCopy_badDistance, execCopy_overflow⟩

/-- Settles O34: the loop copies each byte from `matchDist` before it (`copyWithinOut_fits`), which is periodic. -/
theorem copyRepeatsPeriodically : Obligations.CopyRepeatsPeriodically := by
  intro len dist s hpos hback hlen hend
  have hzero : dist ≠ 0#32 := by
    rintro rfl
    simp at hpos
  obtain ⟨m, hcopy, hcopied, hothers⟩ := copyWithinOut_fits hpos hback hlen hend
  refine ⟨gotoStage .head (setLastCopy dist (advanceDst len.toNat (setOut m s))), ?run, fun i hi => ?bytes, hothers, ?frame⟩
  case run => rw [exec_copy, execCopy_passes hzero hback hlen, hcopy, bind_ok, conclude_ok]
  case bytes =>
    rw [← outValue_copied_periodic hpos hback hcopied (fun a ha => hothers a (.inl ha)) i hi]
    exact hcopied i hi
  case frame => simp [gotoStage, setLastCopy, advanceDst, setOut]

end Sys2Proof.Proofs
end

section
/-! PROOFS. The distance cache and new distances: a new distance and its symbols determine each other (R92, R231, O27), MTF_UPDATE by
ranks (R226, O28; R227, O29), and the ranked list under DCACHE (R225, O30) and MISS_INSERT (R232, O31). -/

namespace Sys2Proof.Machine

variable {s : State} {nb bits osym d k : Nat}

/-! ### New distances -/

/-- The distance of R92 without its nested difference. -/
theorem newDistance_eq (hhigh : osym ≤ 39) : newDistance nb bits osym = 32 * 2 ^ nb + bits * 32 + osym - 39 := by
  simp only [newDistance, Nat.shiftLeft_eq]
  omega

/-- A new distance lies in the range of its bit count (R231). -/
theorem newDistance_bounds (hbits : bits < 2 ^ nb) (hlow : 8 ≤ osym) (hhigh : osym ≤ 39) :
    32 * 2 ^ nb - 31 ≤ newDistance nb bits osym ∧ newDistance nb bits osym ≤ 64 * 2 ^ nb - 32 := by
  rw [newDistance_eq hhigh]
  omega

/-- A distance and its triple determine each other: `distance + 31` is the symbol's place in a block of 32, and the block's number has
`nb` as the place of its highest set bit (R92). -/
theorem newDistance_eq_iff (hd : 1 ≤ d) :
    bits < 2 ^ nb ∧ 8 ≤ osym ∧ osym ≤ 39 ∧ newDistance nb bits osym = d ↔
      nb = Nat.log 2 ((d + 31) / 32) ∧ bits = (d + 31) / 32 - 2 ^ nb ∧ osym = (d + 31) % 32 + 8 := by
  have hlog : Nat.log 2 ((d + 31) / 32) = nb ↔ 2 ^ nb ≤ (d + 31) / 32 ∧ (d + 31) / 32 < 2 ^ (nb + 1) :=
    Nat.log_eq_iff (.inr ⟨one_lt_two, by omega⟩)
  rw [eq_comm (a := nb), hlog, pow_succ]
  constructor
  · rintro ⟨hbits, hlow, hhigh, hdist⟩
    rw [newDistance_eq hhigh] at hdist
    omega
  · rintro ⟨hnb, hbits, hosym⟩
    have hhigh : osym ≤ 39 := by omega
    rw [newDistance_eq hhigh]
    omega

/-- A distance of at most 67108832 needs a bit count of at most 20 (R231). -/
theorem log_newDistance_le (h : d ≤ 67108832) : Nat.log 2 ((d + 31) / 32) ≤ 20 :=
  Nat.le_of_lt_succ (Nat.log_lt_of_lt_pow' (by omega) (by omega))

/-! ### The ranked list -/

theorem cacheView_eq_map (s : State) : cacheView s.distMask s.recent = (List.range 8).map (cachedDistance s) := rfl

theorem cacheView_getElem? (s : State) (r : Nat) :
    (cacheView s.distMask s.recent)[r]? = if r < 8 then some (cachedDistance s r) else none := by
  rw [cacheView_eq_map, List.getElem?_map]
  split
  · rw [List.getElem?_range ‹_›, Option.map_some]
  · rw [List.getElem?_eq_none (by rw [List.length_range]; omega), Option.map_none]

/-- MTF_UPDATE moves the distance of a rank to the front of the ranked list (R226, R41). -/
theorem cacheView_mtfUpdate (s : State) (hk : k < 8) :
    cacheView (mtfUpdate s.distMask k) s.recent =
      cachedDistance s k :: (cacheView s.distMask s.recent).eraseIdx k := by
  have hafter (r : Nat) := cacheView_getElem? (setDistMask (mtfUpdate s.distMask k) s) r
  refine List.ext_getElem? fun r => (hafter r).trans ?_
  by_cases hr : r < 8
  · rw [if_pos hr, cachedDistance_setDistMask s hk hr, rankBefore]
    cases r with
    | zero => rfl
    | succ r =>
      rw [List.getElem?_cons_succ, List.getElem?_eraseIdx, cacheView_getElem?, cacheView_getElem?, if_neg r.succ_ne_zero,
        if_pos hr, if_pos (show r < 8 by omega)]
      by_cases hbelow : r < k
      · rw [if_pos hbelow, if_pos (show r + 1 ≤ k from hbelow), Nat.add_sub_cancel]
      · rw [if_neg hbelow, if_neg (show ¬ r + 1 ≤ k from hbelow)]
  · obtain ⟨j, rfl⟩ : ∃ j, r = j + 1 := ⟨r - 1, by omega⟩
    rw [if_neg hr, List.getElem?_cons_succ, List.getElem?_eraseIdx, if_neg (by omega), cacheView_getElem?, if_neg hr]

/-- MISS_INSERT in the ranked list (R232, R41). -/
theorem cacheView_missInsert (s : State) (new : Word) (h : maskIsPermutation s.distMask) :
    cacheView s.distMask (missInsert s.distMask s.recent new) =
      (cacheView s.distMask s.recent).take 6 ++ [new, cachedDistance s 6] := by
  have hrank {r : Nat} (hr : r < 8) := cachedDistance_missInsert s new h hr
  have hfirst : (List.range 6).map (cachedDistance (setRecent (missInsert s.distMask s.recent new) s)) =
      (List.range 6).map (cachedDistance s) := List.map_congr_left fun r hr => by
    rw [List.mem_range] at hr
    rw [hrank (by omega), if_neg (by omega), if_neg (by omega)]
  calc cacheView s.distMask (missInsert s.distMask s.recent new)
      = (List.range 6).map (cachedDistance (setRecent (missInsert s.distMask s.recent new) s)) ++
          [cachedDistance (setRecent (missInsert s.distMask s.recent new) s) 6,
            cachedDistance (setRecent (missInsert s.distMask s.recent new) s) 7] := rfl
    _ = (List.range 6).map (cachedDistance s) ++ [new, cachedDistance s 6] := by
      rw [hfirst, hrank (by omega), hrank (by omega), if_pos rfl, if_neg (by omega), if_pos rfl]
    _ = _ := rfl

end Sys2Proof.Machine

namespace Sys2Proof.Proofs

open Sys2Proof.Machine

/-- Settles O27: the ranges by the bounds of each bit count, and the one triple of a distance by `newDistance_eq_iff`. -/
theorem newDistancesTile : Obligations.NewDistancesTile := by
  refine ⟨fun nb bits osym hnb hbits hlow hhigh => ?range, fun d hlow hhigh => ?tile⟩
  case range =>
    obtain ⟨hmin, hmax⟩ := newDistance_bounds hbits hlow hhigh
    exact ⟨hmin, hmax, newDistance_range hnb hbits hlow hhigh⟩
  case tile =>
    refine ⟨(Nat.log 2 ((d + 31) / 32), (d + 31) / 32 - 2 ^ Nat.log 2 ((d + 31) / 32), (d + 31) % 32 + 8), ?_, ?_⟩
    · exact ⟨log_newDistance_le hhigh, (newDistance_eq_iff hlow).mpr ⟨rfl, rfl, rfl⟩⟩
    · rintro ⟨nb, bits, osym⟩ ⟨-, htriple⟩
      obtain ⟨hnb, hbits, hosym⟩ : nb = _ ∧ bits = _ ∧ osym = _ := (newDistance_eq_iff hlow).mp htriple
      rw [hbits, hosym, hnb]

/-- Settles O28: each rank by where MTF_UPDATE brings it from (`rankSlot_mtfUpdate`), and the worked examples. -/
theorem mtfMovesToFront : Obligations.MtfMovesToFront := by
  refine ⟨fun mask k hk => ⟨?front, fun r hr => ?below, fun r hkr hr => ?above⟩, by decide⟩
  case front => exact rankSlot_mtfUpdate hk (by omega)
  case below => rw [rankSlot_mtfUpdate hk (by omega), rankBefore, if_neg r.succ_ne_zero, if_pos (by omega), Nat.add_sub_cancel]
  case above => rw [rankSlot_mtfUpdate hk hr, rankBefore, if_neg (by omega), if_neg (by omega)]

/-- Settles O29: MTF_UPDATE brings different ranks from different ranks (`mtfUpdate_permutes`). -/
theorem maskStaysPermutation : Obligations.MaskStaysPermutation :=
  ⟨distMaskInit_permutes, fun _ _ hk h => mtfUpdate_permutes hk h⟩

/-- Settles O30: DCACHE takes the entry of its rank, and MTF_UPDATE puts it in front (`cacheView_mtfUpdate`). -/
theorem dcacheMovesDistanceToFront : Obligations.DcacheMovesDistanceToFront := fun rank s =>
  ⟨_, rfl, (cacheView_getElem? s rank.toNat).trans (if_pos rank.isLt), cacheView_mtfUpdate s rank.isLt, rfl⟩

/-- Settles O31: a state that holds the cache has the view of `cacheView_missInsert`. -/
theorem missInsertShiftsOldest : Obligations.MissInsertShiftsOldest := by
  intro mask recent d l6 hmask hl6
  have hsix : cachedDistance (setCache mask recent State.reset) 6 = l6 := Option.some.inj hl6
  exact hsix ▸ cacheView_missInsert (setCache mask recent State.reset) d hmask

end Sys2Proof.Proofs
end

section
/-! PROOFS. The bit count of a new distance (R229, O33) and the three rows of DNEW (R230, O32). `distanceBits` is what DNEW does before
its symbol matters. -/

namespace Sys2Proof.Machine

variable {s : State} {nb bits osym : Nat}

/-! ### NBITS -/

/-- On a model that meets R37 the bit count is one of the alphabet, 0 to 20 (R89). -/
theorem nextSymbol_lt {m : ModelId} {sym : Nat} (hM : ModelInv m.cls (s.model m)) (hsym : nextSymbol m s = some sym) :
    sym < m.cls.alphabet := by
  obtain ⟨hlen, -, -⟩ := symOf_some hsym
  rw [hM.cdfLength] at hlen
  omega

/-! ### The bits of a new distance -/

/-- The bit count, then the raw bits and the direct unit, which are the bits of the distance (R229, R230). -/
def distanceBits (s : State) : Except Stop ((Nat × Nat) × State) := do
  let (nb, s) ← decodeAndRenorm Params.default .obl s
  let (low, s) ← rawBits Params.default (nb % 16) s
  let (bits, s) ← longBits Params.default nb low s
  .ok ((nb, bits), s)

/-- A row of DNEW makes the distance from its bits and inserts it (R230, R232). -/
theorem newDistanceOp_eq (osym : Nat) (s : State) :
    newDistanceOp Params.default osym s = distanceBits s >>= fun q =>
      .ok (insertDistance Params.default (BitVec.ofNat 32 (newDistance q.1.1 q.1.2 osym)) q.2) := by
  simp only [newDistanceOp, distanceBits, bind_assoc, bind_ok]

/-- The direct unit goes below the raw bits (R230, log 21). -/
theorem longBitsCombine_eq (low : Nat) (w : StreamUnit) : Params.longBitsCombine low w.toNat = low * 65536 + w.toNat := by
  rw [Params.longBitsCombine, ← Nat.shiftLeft_add_eq_or_of_lt w.isLt, Nat.shiftLeft_eq]

/-- Below 16 bits there is no direct unit (R230). -/
theorem longBits_none {P : Parameters} (low : Nat) (hnb : nb < 16) : longBits P nb low s = .ok (low, s) := if_pos hnb

/-- From 16 bits on the direct unit, when it is there (R230). -/
theorem longBits_unit (low : Nat) (hnb : 16 ≤ nb) (hleft : 2 ≤ inputLeft s) (hend : s.srcEnd.toNat ≤ s.compSize.toNat) :
    longBits Params.default nb low s = .ok (low * 65536 + (unitAt s s.srcCur.toNat).toNat, advanceSrc 2 s) := by
  rw [longBits, if_neg hnb.not_gt, readUnit_ok hleft hend, bind_ok, ← longBitsCombine_eq]
  rfl

/-- Both cases in the terms of the claims: `x` is the coder state the raw bits come from (R230). -/
theorem longBits_ready (x : Nat) (hnb : nb ≤ 20) (hend : s.srcEnd.toNat ≤ s.compSize.toNat)
    (hunit : 16 ≤ nb → 2 ≤ inputLeft s) :
    longBits Params.default nb (x % 2 ^ (nb % 16)) s =
      .ok (if nb < 16 then x % 2 ^ nb else x % 2 ^ (nb - 16) * 65536 + (unitAt s s.srcCur.toNat).toNat,
        { s with srcCur := if nb < 16 then s.srcCur else s.srcCur + 2#32 }) := by
  rcases lt_or_ge nb 16 with hshort | hlong
  · rw [longBits_none _ hshort, if_pos hshort, if_pos hshort, Nat.mod_eq_of_lt hshort]
  · rw [longBits_unit _ hlong (hunit hlong) hend, if_neg hlong.not_gt, if_neg hlong.not_gt, show nb % 16 = nb - 16 by omega]
    rfl

/-- The bits of a distance are as many as the bit count says (R92). -/
theorem distanceBits_lt (x : Nat) (w : StreamUnit) :
    (if nb < 16 then x % 2 ^ nb else x % 2 ^ (nb - 16) * 65536 + w.toNat) < 2 ^ nb := by
  split
  · exact Nat.mod_lt _ (Nat.two_pow_pos nb)
  · have hlow := Nat.mod_lt x (Nat.two_pow_pos (nb - 16))
    have hunit := w.isLt
    have hsplit : 2 ^ nb = 2 ^ (nb - 16) * 65536 := by
      rw [show 65536 = 2 ^ 16 from rfl, ← pow_add, Nat.sub_add_cancel (by omega)]
    omega

/-- With its input there, the bit count, the raw bits and the direct unit in the terms of the claims (R229, R230). -/
theorem distanceBits_ready {u w : State} (hM : ModelInv .offsetBitLength s.obl) (hend : s.srcEnd.toNat ≤ s.compSize.toNat)
    (hsym : nextSymbol .obl s = some nb) (hcount : renormReady (afterDecode .obl nb s))
    (hu : u = afterRenorm (afterDecode .obl nb s)) (hraw : renormReady (withoutLowBits (nb % 16) u))
    (hw : w = afterRenorm (withoutLowBits (nb % 16) u)) (hunit : 16 ≤ nb → 2 ≤ inputLeft w) :
    distanceBits s =
      .ok ((nb, if nb < 16 then u.state1.toNat % 2 ^ nb
          else u.state1.toNat % 2 ^ (nb - 16) * 65536 + (unitAt w w.srcCur.toNat).toNat),
        { w with srcCur := if nb < 16 then w.srcCur else w.srcCur + 2#32 }) := by
  have hM' : ModelInv (ModelId.cls .obl) (s.model .obl) := hM
  have hnb : nb ≤ 20 := Nat.le_of_lt_succ (nextSymbol_lt hM' hsym)
  have hendu : u.srcEnd.toNat ≤ u.compSize.toNat := by simpa [hu] using hend
  have hendw : w.srcEnd.toNat ≤ w.compSize.toNat := by simpa [hw, withoutLowBits] using hendu
  simp only [distanceBits, decodeAndRenorm_ready hM' hsym hend hcount, ← hu, bind_ok, rawBits_ready hendu hraw, ← hw,
    longBits_ready u.state1.toNat hnb hendw hunit]

@[simp] theorem afterRenorm_distMask (s : State) : (afterRenorm s).distMask = s.distMask := by rw [afterRenorm_frame]
@[simp] theorem afterRenorm_recent (s : State) : (afterRenorm s).recent = s.recent := by rw [afterRenorm_frame]
@[simp] theorem afterDecode_distMask (m : ModelId) (sym : Nat) (s : State) : (afterDecode m sym s).distMask = s.distMask := by
  rw [afterDecode_frame]
@[simp] theorem afterDecode_recent (m : ModelId) (sym : Nat) (s : State) : (afterDecode m sym s).recent = s.recent := by
  rw [afterDecode_frame]
@[simp] theorem withoutLowBits_distMask (k : Nat) (s : State) : (withoutLowBits k s).distMask = s.distMask := rfl
@[simp] theorem withoutLowBits_recent (k : Nat) (s : State) : (withoutLowBits k s).recent = s.recent := rfl

/-- The symbols of the rows of DNEW are 8 to 39 (R88). -/
theorem dnewOf_range {i : Instr} (h : dnewOf i osym) : 8 ≤ osym ∧ osym ≤ 39 := by
  rcases h with ⟨c, -, rfl⟩ | ⟨c, -, rfl⟩ | ⟨c, -, rfl⟩ <;> omega

/-- A new distance fits its 32 bits (R231, log 25). -/
theorem toNat_ofNat_newDistance (hnb : nb ≤ 20) (hbits : bits < 2 ^ nb) (hlow : 8 ≤ osym) (hhigh : osym ≤ 39) :
    (BitVec.ofNat 32 (newDistance nb bits osym)).toNat = newDistance nb bits osym := by
  obtain ⟨-, hmax⟩ := newDistance_range hnb hbits hlow hhigh
  exact toNat_ofNat_word (by omega)

end Sys2Proof.Machine

namespace Sys2Proof.Proofs

open Sys2Proof.Machine

/-- Settles O33: the symbol that holds the residue, decoded and renormalized (`decodeAndRenorm_ready`). -/
theorem nbitsDecodesBitCount : Obligations.NbitsDecodesBitCount := by
  intro s nb hM hend hsym hready
  have hM' : ModelInv (ModelId.cls .obl) (s.model .obl) := hM
  refine ⟨Nat.le_of_lt_succ (nextSymbol_lt hM' hsym), ?_⟩
  rw [exec_nbits, execNbits, decodeAndRenorm_ready hM' hsym hend hready, bind_ok]
  rfl

/-- Settles O32: each row is `distanceBits` (`distanceBits_ready`), then the distance of R92 and its insertion. -/
theorem dnewAssemblesDistance : Obligations.DnewAssemblesDistance := by
  intro i osym s nb hi hM hend hsym hcount u hu hraw w hw hunit bits hbits
  obtain ⟨hlow, hhigh⟩ := dnewOf_range hi
  have hnb : nb ≤ 20 := Nat.le_of_lt_succ (nextSymbol_lt (m := .obl) hM hsym)
  have hlt : bits < 2 ^ nb := hbits ▸ distanceBits_lt u.state1.toNat _
  have hdist := toNat_ofNat_newDistance hnb hlt hlow hhigh
  have hmask : w.distMask = s.distMask := by simp [hw, hu]
  have hrecent : w.recent = s.recent := by simp [hw, hu]
  refine ⟨insertDistance Params.default (BitVec.ofNat 32 (newDistance nb bits osym))
    { w with srcCur := if nb < 16 then w.srcCur else w.srcCur + 2#32 }, ?run, hnb, hlt, hdist.trans (newDistance_eq hhigh), ?frame⟩
  case run =>
    rw [exec_dnew hi, newDistanceOp_eq, distanceBits_ready hM hend hsym hcount hu hraw hw hunit, ← hbits, bind_ok, conclude_ok]
  case frame => rw [← hmask, ← hrecent]; rfl

end Sys2Proof.Proofs
end

section
/-! PROOFS. The operations one by one against the lzstep of R210 in one piece (O59). A row of the lzstep is the pseudocode's piece and
then its carrier (`exec_lengthRow`, `exec_distanceRow`); inside a match the machine's state is the pseudocode's with carriers put in
(`MidMatch`), a relation that no piece tells apart. -/

namespace Sys2Proof.Machine

variable {s t u v : State} {st : Stage} {len : Word} {sym osym n : Nat}

/-! ### The pseudocode in pieces -/

/-- The branch of a literal (R212). -/
def pseudoLiteral (sym : Nat) (s : State) : Except Stop State := do
  let base ← outByteBack s.dstCur.toNat s.lastCopyOffset.toNat s
  let s ← outWrite s.dstCur.toNat (BitVec.ofNat 8 (sym + base.toNat)) s
  .ok (advanceDst 1 s)

/-- The length of a match, short or extended by raw bits (R216, R218). -/
def pseudoLength (sym : Nat) (s : State) : Except Stop (Nat × State) :=
  if sym < 288 then .ok (shortLength sym, s)
  else rawBits Params.default (extendedBits sym) s >>= fun q => .ok (extendedLength (extendedBits sym) q.1, q.2)

/-- A match after its length: the distance symbol of the lzstep's model, the distance, the copy (R224, R237). -/
def pseudoMatch (p : Fin 4) (len : Nat) (s : State) : Except Stop State :=
  decodeAndRenorm Params.default (.offLow p) s >>= fun o =>
    pseudoDistance o.1 o.2 >>= fun d => pseudoCopy len d.1 d.2

/-- The pseudocode's form of an extended length (R210). -/
theorem extendedLength_eq_shift (nb extra : Nat) : extra + (1 <<< nb) + 32 = extendedLength nb extra := by
  rw [extendedLength_eq, Nat.shiftLeft_eq, one_mul]

/-- The lzstep is its symbol, then a literal, or a length and the rest of a match (R210). -/
theorem pseudoLzstep_eq (s : State) :
    pseudoLzstep s = decodeAndRenorm Params.default (.lit (modelIndex s.dstCur)) s >>= fun q =>
      if q.1 < 256 then pseudoLiteral q.1 q.2
      else pseudoLength q.1 q.2 >>= fun l => pseudoMatch (modelIndex s.dstCur) l.1 l.2 := by
  refine congrArg _ (funext fun ⟨sym, u⟩ => ?_)
  dsimp only
  split
  · rfl
  · unfold pseudoLength
    split
    · rfl
    · simp only [bind_assoc, extendedLength_eq_shift]
      rfl

/-- A distance of the cache (R225). -/
theorem pseudoDistance_cached (h : osym < 8) :
    pseudoDistance osym s = .ok ((cachedDistance s osym).toNat, setDistMask (mtfUpdate s.distMask osym) s) := if_pos h

/-- A new distance (R230). -/
theorem pseudoDistance_new (h : 8 ≤ osym) :
    pseudoDistance osym s = distanceBits s >>= fun q => .ok (newDistance q.1.1 q.1.2 osym,
      setRecent (missInsert q.2.distMask q.2.recent (BitVec.ofNat 32 (newDistance q.1.1 q.1.2 osym))) q.2) := by
  rw [pseudoDistance, if_neg h.not_gt]
  simp only [distanceBits, bind_assoc]
  refine congrArg _ (funext fun ⟨nb, u⟩ => ?_)
  dsimp only
  rw [Nat.and_two_pow_sub_one_eq_mod nb 4]
  refine congrArg _ (funext fun ⟨low, v⟩ => ?_)
  dsimp only
  rcases lt_or_ge nb 16 with hshort | hlong
  · rw [longBits_none low hshort, if_neg hshort.not_ge]
    rfl
  · rw [longBits, if_neg hlong.not_gt, if_pos hlong, bind_assoc]
    rfl

/-! ### A row is its piece and a carrier -/

theorem execLit_eq_pseudoLiteral (sym : Nat) (s : State) : execLit (BitVec.ofNat 8 sym) s = conclude (pseudoLiteral sym s) := by
  have hsum (base : Byte) : BitVec.ofNat 8 sym + base = BitVec.ofNat 8 (sym + base.toNat) := by
    rw [BitVec.ofNat_add, BitVec.ofNat_toNat, BitVec.setWidth_eq]
  simp only [execLit, pseudoLiteral, hsum]

/-- MATCHS and MATCHX (R216, R218). -/
theorem exec_lengthRow (hlow : 256 ≤ sym) (hhigh : sym < 300) :
    ∃ i, decode .litSym sym = .ok i ∧
      ∀ s, exec i s = conclude (pseudoLength sym s >>= fun q => .ok (lengthDecoded q.1 q.2)) := by
  rcases lt_or_ge sym 288 with hshort | hext
  · refine ⟨_, decode_matchsRow hlow hshort, fun s => ?_⟩
    rw [exec_matchs, execMatchs, base_add_toNat_ofNat_sub hlow hshort, pseudoLength, if_pos hshort, bind_ok, conclude_ok]
  · refine ⟨_, decode_matchxRow hext hhigh, fun s => ?_⟩
    rw [exec_matchx, execMatchx, base_add_toNat_ofNat_sub hext (by omega), pseudoLength, if_neg hext.not_gt, bind_assoc]
    rfl

/-- An OffsetLow symbol from 8 on selects a row of DNEW (R88). -/
theorem decode_dnewRow (hlow : 8 ≤ osym) (hhigh : osym < 40) : ∃ i, decode .offSym osym = .ok i ∧ dnewOf i osym := by
  rcases lt_or_ge osym 16 with h16 | h16
  · exact ⟨_, decode_dnewLowRow hlow h16, .inl ⟨_, rfl, (base_add_toNat_ofNat_sub hlow h16).symm⟩⟩
  rcases lt_or_ge osym 32 with h32 | h32
  · exact ⟨_, decode_dnewMidRow h16 h32, .inr (.inl ⟨_, rfl, (base_add_toNat_ofNat_sub h16 h32).symm⟩)⟩
  · exact ⟨_, decode_dnewHighRow h32 hhigh, .inr (.inr ⟨_, rfl, (base_add_toNat_ofNat_sub h32 hhigh).symm⟩)⟩

/-- DCACHE and the rows of DNEW (R225, R230). -/
theorem exec_distanceRow (hhigh : osym < 40) :
    ∃ i, decode .offSym osym = .ok i ∧
      ∀ s, exec i s = conclude (pseudoDistance osym s >>= fun q => .ok (distanceDecoded (BitVec.ofNat 32 q.1) q.2)) := by
  rcases lt_or_ge osym 8 with hcache | hnew
  · refine ⟨_, decode_dcacheRow hcache, fun s => ?_⟩
    have hrank : (BitVec.ofNat 3 osym).toNat = osym := by rw [BitVec.toNat_ofNat, Nat.mod_eq_of_lt hcache]
    rw [exec_dcache, execDcache, hrank, pseudoDistance_cached hcache, bind_ok, BitVec.ofNat_toNat, BitVec.setWidth_eq]
    rfl
  · obtain ⟨i, hi, hdnew⟩ := decode_dnewRow hnew hhigh
    refine ⟨i, hi, fun s => ?_⟩
    rw [exec_dnew hdnew, newDistanceOp_eq, pseudoDistance_new hnew, bind_assoc]
    rfl

/-! ### What the pieces answer under the invariant -/

/-- The length of a match fits its carrier (R91). -/
theorem pseudoLength_answers (h : InBody s) (hhigh : sym < 300) :
    Answers (pseudoLength sym s) fun a => a.1 ≤ 8223 ∧ CoderStep s a.2 ∧ coderReady a.2 := by
  have hshort : sym < 288 → shortLength sym ≤ 8223 := fun _ => by unfold shortLength; omega
  refine answers_ite (fun hs => answers_ok ⟨hshort hs, CoderStep.refl h.grounded, h.ready⟩) fun hext => ?_
  have hone : 1 ≤ extendedBits sym := by unfold extendedBits; omega
  have htwelve : extendedBits sym ≤ 12 := by unfold extendedBits; omega
  generalize extendedBits sym = nb at hone htwelve ⊢
  refine (rawBits_answers h.grounded h.ready (by omega)).bind fun ⟨extra, u⟩ ⟨hsu, hready, hextra⟩ => ?_
  exact answers_ok ⟨(extendedLength_range hone htwelve hextra).2, hsu, hready⟩

/-- The bits of a new distance are as many as its bit count says (R89, R92). -/
theorem distanceBits_answers (h : Grounded s) (hready : coderReady s) :
    Answers (distanceBits s) fun a => a.1.1 ≤ 20 ∧ a.1.2 < 2 ^ a.1.1 := by
  refine (decodeAndRenorm_answers .obl h hready).bind fun ⟨nb, t⟩ ⟨hnb, hst, ht⟩ => ?_
  have hnb20 : nb ≤ 20 := Nat.le_of_lt_succ hnb
  refine (rawBits_answers hst.grounded ht (Nat.mod_lt nb (by omega)).le).bind fun ⟨low, u⟩ ⟨htu, hu, hlow⟩ => ?_
  refine (longBits_answers htu.grounded hu hnb20 hlow).bind fun ⟨bits, v⟩ ⟨_, _, hbits⟩ => ?_
  exact answers_ok ⟨hnb20, hbits⟩

/-- The distance of a match fits its carrier (R38, R231). -/
theorem pseudoDistance_answers (h : InBody s) (hosym : osym < 40) :
    Answers (pseudoDistance osym s) fun a => a.1 < 2 ^ 32 := by
  rcases lt_or_ge osym 8 with hcache | hnew
  · rw [pseudoDistance_cached hcache]
    exact answers_ok (cachedDistance s osym).isLt
  · rw [pseudoDistance_new hnew]
    refine (distanceBits_answers h.grounded h.ready).bind fun ⟨⟨nb, bits⟩, t⟩ ⟨hnb, hbits⟩ => ?_
    obtain ⟨-, hmax⟩ := newDistance_range hnb hbits hnew (Nat.le_of_lt_succ hosym)
    exact answers_ok (hmax.trans_lt (by omega))

/-- An operation that answers, fails or completes. -/
theorem Answers.cases {α : Type} {r : Except Stop α} {Q : α → Prop} (h : Answers r Q) :
    (∃ u, r = .error (.failed u)) ∨ ∃ a, r = .ok a ∧ Q a := by
  match r, h with
  | .ok a, ha => exact .inr ⟨a, rfl, ha⟩
  | .error (.failed u), _ => exact .inl ⟨u, rfl⟩

/-- Two runs that agree fail together, or complete together with the same value. -/
theorem Agree.cases {α : Type} {R F : State → State → Prop} {Q : α × State → Prop} {r r' : Except Stop (α × State)}
    (h : Agree F (PairAlike R) r r') (hanswers : Answers r' Q) :
    (∃ u v, r = .error (.failed u) ∧ r' = .error (.failed v) ∧ F u v) ∨
      ∃ a u v, r = .ok (a, u) ∧ r' = .ok (a, v) ∧ R u v ∧ Q (a, v) := by
  cases h with
  | @ok a b hab =>
    obtain ⟨x, u⟩ := a
    obtain ⟨y, v⟩ := b
    obtain ⟨hxy, huv⟩ := hab
    obtain rfl : x = y := hxy
    exact .inr ⟨x, u, v, rfl, rfl, huv, hanswers⟩
  | failed huv => exact .inl ⟨_, _, rfl, rfl, huv⟩
  | fault f => exact hanswers.elim

/-! ### Inside a match -/

/-- Equal but for the carriers (log 2). -/
def CarrierEq (s t : State) : Prop := withoutCarriers s = withoutCarriers t

/-- The state inside a match that the pseudocode has at the head of the body. -/
def inMatch (st : Stage) (len dist : Word) (t : State) : State := { t with stage := st, copyLength := len, matchDist := dist }

/-- The machine is inside a match of length `len`, before the operation of stage `st`, where the pseudocode is in `t`. -/
structure MidMatch (st : Stage) (len : Word) (s t : State) : Prop where
  carriers : ∃ dist, s = inMatch st len dist t
  phase : t.phase = .qbody
  stage : t.stage = .head
  hostScript : t.hostScript = []

/-- Where the machine is in the grammar (R99). -/
theorem MidMatch.place (h : MidMatch st len s t) : s.phase = .qbody ∧ s.stage = st ∧ s.copyLength = len ∧ s.hostScript = [] := by
  obtain ⟨⟨dist, rfl⟩, hphase, -, hscript⟩ := h
  exact ⟨hphase, rfl, rfl, hscript⟩

/-- The length is known, the distance comes next (R224). -/
theorem midMatch_lengthDecoded (hphase : t.phase = .qbody) (hstage : t.stage = .head) (hscript : t.hostScript = []) (len : Nat) :
    MidMatch .distance (BitVec.ofNat 32 len) (lengthDecoded len t) t :=
  ⟨⟨t.matchDist, rfl⟩, hphase, hstage, hscript⟩

/-- The distance is known, the copy comes next (R237). -/
theorem MidMatch.distanceDecoded (h : MidMatch .distance len s t) (dist : Word) :
    MidMatch .copy len (distanceDecoded dist s) t := by
  obtain ⟨⟨_, rfl⟩, hphase, hstage, hscript⟩ := h
  exact ⟨⟨dist, rfl⟩, hphase, hstage, hscript⟩

theorem midMatch_same {β : Type} {f : State → β} (hf : ∀ dist t, f (inMatch st len dist t) = f t) :
    SameOn (MidMatch st len) f := by
  rintro s t ⟨⟨dist, rfl⟩, -, -, -⟩
  exact hf dist t

theorem midMatch_keeps {G : State → State} (hG : ∀ dist t, G (inMatch st len dist t) = inMatch st len dist (G t))
    (hplace : ∀ t, (G t).phase = t.phase ∧ (G t).stage = t.stage ∧ (G t).hostScript = t.hostScript) :
    Keeps (MidMatch st len) (MidMatch st len) G := by
  rintro s t ⟨⟨dist, rfl⟩, hphase, hstage, hscript⟩
  obtain ⟨hp, hg, hs⟩ := hplace t
  exact ⟨⟨dist, hG dist t⟩, hp.trans hphase, hg.trans hstage, hs.trans hscript⟩

/-- A failure leaves the match, so only the carriers differ (R256). -/
theorem midMatch_fails (c : FailCause) : Keeps (MidMatch st len) CarrierEq (raiseFailure c) := by
  rintro s t ⟨⟨dist, rfl⟩, -, -, -⟩
  rfl

theorem midMatch_input : InputAlike (MidMatch st len) CarrierEq where
  compSize := midMatch_same fun _ _ => rfl
  inMem := midMatch_same fun _ _ => rfl
  srcCur := midMatch_same fun _ _ => rfl
  srcEnd := midMatch_same fun _ _ => rfl
  advanceSrc := fun _ => midMatch_keeps (fun _ _ => rfl) fun _ => ⟨rfl, rfl, rfl⟩
  fails := midMatch_fails

theorem midMatch_coder : CoderAlike (MidMatch st len) CarrierEq :=
  { midMatch_input with
    state1 := midMatch_same fun _ _ => rfl
    state2 := midMatch_same fun _ _ => rfl
    model := fun m => midMatch_same fun _ _ => by cases m <;> rfl
    setState1 := fun _ => midMatch_keeps (fun _ _ => rfl) fun _ => ⟨rfl, rfl, rfl⟩
    swapStates := midMatch_keeps (fun _ _ => rfl) fun _ => ⟨rfl, rfl, rfl⟩
    setModel := fun m _ => midMatch_keeps (fun _ _ => by cases m <;> rfl) fun t =>
      ⟨setModel_phase t m _, setModel_stage t m _, setModel_hostScript t m _⟩ }

theorem midMatch_output : OutputAlike (MidMatch st len) where
  decompSize := midMatch_same fun _ _ => rfl
  dstCur := midMatch_same fun _ _ => rfl
  dstEnd := midMatch_same fun _ _ => rfl
  outMem := midMatch_same fun _ _ => rfl
  outForgotten := midMatch_same fun _ _ => rfl
  setOut := fun _ => midMatch_keeps (fun _ _ => rfl) fun _ => ⟨rfl, rfl, rfl⟩
  advanceDst := fun _ => midMatch_keeps (fun _ _ => rfl) fun _ => ⟨rfl, rfl, rfl⟩

/-- No carrier shows in the distance of a match (R225, R230). -/
theorem pseudoDistance_agree (osym : Nat) (h : MidMatch st len s t) :
    Agree CarrierEq (PairAlike (MidMatch st len)) (pseudoDistance osym s) (pseudoDistance osym t) := by
  have hmask : Keeps (MidMatch st len) (MidMatch st len) fun u => setDistMask (mtfUpdate u.distMask osym) u :=
    midMatch_keeps (fun _ _ => rfl) fun _ => ⟨rfl, rfl, rfl⟩
  have hinsert (d : Word) : Keeps (MidMatch st len) (MidMatch st len) fun u => setRecent (missInsert u.distMask u.recent d) u :=
    midMatch_keeps (fun _ _ => rfl) fun _ => ⟨rfl, rfl, rfl⟩
  have hcached : SameOn (MidMatch st len) (cachedDistance · osym) := midMatch_same fun _ _ => rfl
  rcases lt_or_ge osym 8 with hcache | hnew
  · rw [pseudoDistance_cached hcache, pseudoDistance_cached hcache]
    exact .ok ⟨congrArg BitVec.toNat (hcached h), hmask h⟩
  · rw [pseudoDistance_new hnew, pseudoDistance_new hnew]
    refine Agree.bind_pair (R := MidMatch st len) ?_ fun q u v huv => .ok ⟨rfl, hinsert _ huv⟩
    refine (decodeAndRenorm_agree midMatch_coder .obl h).bind_pair fun nb _ _ h₁ => ?_
    refine (rawBits_agree midMatch_coder _ h₁).bind_pair fun low _ _ h₂ => ?_
    exact (longBits_agree midMatch_input nb low h₂).bind_pair fun _ _ _ h₃ => .ok ⟨rfl, h₃⟩

/-- After the copy the machine is at the head of the body again, where the pseudocode stays (R235). -/
theorem execCopy_agree_pseudoCopy (dist : Word) (h : MidMatch .copy len s t) :
    AgreeOut CarrierEq (execCopy len dist s) (conclude (pseudoCopy len.toNat dist.toNat t)) := by
  have hcur : s.dstCur = t.dstCur := midMatch_output.dstCur h
  have hzero : dist = 0#32 ↔ dist.toNat = 0 := BitVec.toNat_eq
  refine (Agree.ite (by rw [hzero, hcur, BitVec.lt_def]) (fun _ => ?_) fun _ => ?_).conclude
  · rw [BitVec.ofNat_toNat, BitVec.setWidth_eq, hcur]
    exact .failed (midMatch_fails _ h)
  refine Agree.ite (by rw [midMatch_output.outputLeft h, outputLeft]) (fun _ => ?_) fun _ => ?_
  · rw [BitVec.ofNat_toNat, BitVec.setWidth_eq, hcur]
    exact .failed (midMatch_fails _ h)
  · rw [hcur]
    refine (copyWithinOut_agree midMatch_output _ _ _ h).bind fun u v huv => .ok ?_
    obtain ⟨⟨d, rfl⟩, -, hstage, -⟩ := huv
    simp [CarrierEq, withoutCarriers, inMatch, gotoStage, setLastCopy, advanceDst, hstage]

/-! ### From the head of the body to the end of an lzstep -/

/-- At most `n` steps from `s`, and at least one, end where `r` does, the carriers apart. -/
def ReachesIn (n : Nat) (s : State) (r : Except Stop State) : Prop :=
  ∃ k, 1 ≤ k ∧ k ≤ n ∧ mapNext withoutCarriers (Host.Core.run core k s) = mapNext withoutCarriers (conclude r)

theorem run_one (s : State) : Host.Core.run core 1 s = step s := by
  have hcore : core.step s = step s := rfl
  cases hstep : step s <;> simp only [Host.Core.run, hcore, hstep] <;> rfl

/-- The one step does all that `r` does. -/
theorem reachesIn_of_eq {r : Except Stop State} (hn : 1 ≤ n) (h : step s = conclude r) : ReachesIn n s r :=
  ⟨1, le_rfl, hn, by rw [run_one, h]⟩

/-- The one step does it, the carriers apart. -/
theorem reachesIn_step {r : Except Stop State} (hn : 1 ≤ n) (h : AgreeOut CarrierEq (step s) (conclude r)) : ReachesIn n s r :=
  ⟨1, le_rfl, hn, by rw [run_one]; exact h.mapNext_eq⟩

/-- A step, and what its next state reaches. -/
theorem ReachesIn.after {r : Except Stop State} (hst : step s = .next t) : ReachesIn n t r → ReachesIn (n + 1) s r
  | ⟨k, _, hk, hrun⟩ => ⟨k + 1, by omega, by omega, by rw [run_succ hst, hrun]⟩

/-- A failure in the fetch of a symbol is a step's only effect (R164, R251). -/
theorem step_symbol_failed {m : ModelId} {f : Format} (hs : s.hostScript = [])
    (hf : fetch Params.default s = fetchSymbol Params.default m f s)
    (hr : decodeAndRenorm Params.default m s = .error (.failed u)) : step s = .next u := by
  simp only [step_engine hs, engineStep, hf, fetchSymbol, hr, conclude_failed]

/-- The step that copies (R235). -/
theorem copy_reaches (h : MidMatch .copy len s t) : ReachesIn 1 s (pseudoCopy len.toNat s.matchDist.toNat t) := by
  obtain ⟨hphase, hstage, hlen, hscript⟩ := h.place
  refine reachesIn_step le_rfl ?_
  rw [step_run hscript (fetch_copy hphase hstage), exec_copy, hlen]
  exact execCopy_agree_pseudoCopy s.matchDist h

/-- From the distance symbol on: its row is the rest of this step, the copy is the next (R237). -/
theorem distance_reaches (hbody : InBody v) (h : MidMatch .distance len u v) (hosym : osym < 40)
    (hstep : step s = conclude (pseudoDistance osym u >>= fun q => .ok (distanceDecoded (BitVec.ofNat 32 q.1) q.2))) :
    ReachesIn 2 s (pseudoDistance osym v >>= fun d => pseudoCopy len.toNat d.1 d.2) := by
  obtain ⟨x, y, hx, hy, hxy⟩ | ⟨dist, x, y, hx, hy, hxy, hfits⟩ :=
    (pseudoDistance_agree osym h).cases (pseudoDistance_answers hbody hosym)
  · refine reachesIn_step one_le_two ?_
    rw [hy, hstep, hx]
    exact .next hxy
  · have hcopy := copy_reaches (hxy.distanceDecoded (BitVec.ofNat 32 dist))
    rw [distanceDecoded_matchDist, toNat_ofNat_word hfits] at hcopy
    rw [hx] at hstep
    rw [hy]
    exact hcopy.after hstep

/-- From the length on: the fetch of the distance symbol, its row, the copy (R224, R237). -/
theorem match_reaches (hbody : InBody t) (h : MidMatch .distance len s t) :
    ReachesIn 2 s (pseudoMatch (modelIndex t.dstCur) len.toNat t) := by
  obtain ⟨hphase, hstage, -, hscript⟩ := h.place
  have hcur : s.dstCur = t.dstCur := midMatch_output.dstCur h
  have hfetch := fetch_distance (P := Params.default) hphase hstage
  rw [hcur] at hfetch
  rw [pseudoMatch]
  obtain ⟨u, v, hu, hv, huv⟩ | ⟨osym, u, v, hu, hv, huv, hosym, htv, hready⟩ :=
    (decodeAndRenorm_agree (P := Params.default) midMatch_coder (.offLow (modelIndex t.dstCur)) h).cases
      (decodeAndRenorm_answers _ hbody.grounded hbody.ready)
  · refine reachesIn_step one_le_two ?_
    rw [hv, step_symbol_failed hscript hfetch hu]
    exact .next huv
  · obtain ⟨i, hi, hexec⟩ := exec_distanceRow hosym
    have hstep := (step_run hscript (hfetch.trans (fetchSymbol_run hu hi))).trans (hexec u)
    rw [hv, bind_ok]
    exact distance_reaches (hbody.of_coderStep htv hready) huv hosym hstep

/-- An lzstep from the head of the body: a literal, or a length and the rest of its match (R210). -/
theorem lzstep_reaches (h : InBody s) (hg : s.stage = .head) (hs : s.hostScript = []) : ReachesIn 3 s (pseudoLzstep s) := by
  have hfetch := fetch_literal (P := Params.default) h.inBody hg h.room
  rw [pseudoLzstep_eq]
  obtain ⟨u, hu⟩ | ⟨⟨sym, u⟩, hu, hsym, hsu, hready⟩ :=
    (decodeAndRenorm_answers (.lit (modelIndex s.dstCur)) h.grounded h.ready).cases
  · refine reachesIn_of_eq (by omega) ?_
    rw [hu, step_symbol_failed hs hfetch hu, bind_error, conclude_failed]
  rw [hu, bind_ok]
  dsimp only
  have hbody : InBody u := h.of_coderStep hsu hready
  rcases lt_or_ge sym 256 with hlit | hmatch
  · rw [if_pos hlit]
    refine reachesIn_of_eq (by omega) ?_
    rw [step_run hs (hfetch.trans (fetchSymbol_run hu (decode_litRow hlit))), exec_lit, execLit_eq_pseudoLiteral]
  · rw [if_neg hmatch.not_gt]
    obtain ⟨i, hi, hexec⟩ := exec_lengthRow hmatch hsym
    have hstep : step s = _ := (step_run hs (hfetch.trans (fetchSymbol_run hu hi))).trans (hexec u)
    obtain ⟨v, hv⟩ | ⟨⟨len, v⟩, hv, hlen, huv, hready'⟩ := (pseudoLength_answers hbody hsym).cases
    · refine reachesIn_of_eq (by omega) ?_
      rw [hstep, hv, bind_error, bind_error]
    · have hsv : CoderStep s v := hsu.trans huv
      have hmid := midMatch_lengthDecoded (hsv.phase.trans h.inBody) (hsv.stage.trans hg) (by rw [hsv.frame]; exact hs) len
      have hrest := match_reaches (hbody.of_coderStep huv hready') hmid
      rw [toNat_ofNat_word (by omega), hsv.dstCur] at hrest
      rw [hv] at hstep ⊢
      exact hrest.after hstep

end Sys2Proof.Machine

namespace Sys2Proof.Proofs

open Sys2Proof.Machine

/-- Settles O59: a literal is one step; a match is three, its length, its distance and its copy (`lzstep_reaches`). -/
theorem operationsComposeLzstep : Obligations.OperationsComposeLzstep := by
  intro s h hscript hphase hstage hroom
  obtain ⟨hground, hin⟩ := (inv_iff_grounded (by simp only [busy, hphase])).mp h
  simp only [phaseInv, hphase] at hin
  obtain ⟨hready, hquantum, hstarted, -⟩ := hin
  exact lzstep_reaches ⟨hground, hready, hphase, hquantum, hstarted, hroom⟩ hstage hscript

end Sys2Proof.Proofs
end

section
/-! PROOFS. The exceptions of 60_exceptions.md: the engine's rest in the phases that are not BUSY (R264, O8), and the input that ends
before a unit is read (R250, R251, R260, O14), by the operation that reads it. -/

namespace Sys2Proof.Machine

variable {P : Parameters} {s : State}

/-! ### A first unit that is missing -/

/-- QSTART has fixed the quantum's end when its peek fails (R180, R251). -/
theorem execQstart_short (hleft : inputLeft s < 2) :
    execQstart s P = .next (truncated (setQuantumEnd (nextQuantumEnd P s) s)) := by
  have hpeek : peek16 P (setQuantumEnd (nextQuantumEnd P s) s) = .error (.failed (truncated _)) := peek16_short hleft
  simp only [execQstart, hpeek, bind_error, conclude_failed]

/-- QHDR without its first unit fails before it has moved the cursor (R186, R251); this needs no bound on the end of the input. -/
theorem execQhdr_noUnit (hleft : inputLeft s < 2) : execQhdr s P = .next (truncated s) := by
  rw [execQhdr, readUnit_short hleft]
  rfl

/-! ### A refill that is missing -/

theorem execRawbits_notReady {k : BitVec 4} (hready : ¬ renormReady (withoutLowBits k.toNat s)) :
    execRawbits k s P = .next (truncated (withoutLowBits k.toNat s)) := by
  rw [execRawbits, rawBits_notReady hready]
  rfl

theorem execNbits_notReady {nb : Nat} (hM : ModelInv .offsetBitLength s.obl) (hsym : nextSymbol .obl s = some nb)
    (hready : ¬ renormReady (afterDecode .obl nb s P)) :
    execNbits s P = .next (truncated (afterDecode .obl nb s P)) := by
  have hM' : ModelInv (ModelId.cls .obl) (s.model .obl) := hM
  rw [execNbits, decodeAndRenorm_notReady hM' hsym hready, bind_error, conclude_failed]

/-- In the body, at the head of an lzstep or after a length, a symbol of one model is fetched (R192, R211, R224). -/
theorem fetch_bodySymbol {m : ModelId} (hphase : s.phase = .qbody)
    (hselect : (s.stage = .head ∧ s.dstCur < s.dstQuantumEnd ∧ m = .lit (modelIndex s.dstCur)) ∨
      (s.stage = .distance ∧ m = .offLow (modelIndex s.dstCur))) :
    ∃ f, fetch P s = fetchSymbol P m f s := by
  obtain ⟨hstage, hroom, rfl⟩ | ⟨hstage, rfl⟩ := hselect
  · exact ⟨.litSym, fetch_literal hphase hstage hroom⟩
  · exact ⟨.offSym, fetch_distance hphase hstage⟩

end Sys2Proof.Machine

namespace Sys2Proof.Proofs

open Sys2Proof.Machine

/-- Settles O8: with no host event the step is the engine's, which repeats a state that is not BUSY. -/
theorem quiescentPhasesDoNothing : Obligations.QuiescentPhasesDoNothing := fun _ hbusy hscript =>
  (step_engine hscript).trans (engineStep_quiet hbusy)

/-- Settles O14: the reads of a first unit, then the three kinds of `Renorm` that finds no input for its refill. -/
theorem truncatedReadsFail : Obligations.TruncatedReadsFail := by
  intro s
  refine ⟨fun hleft => ⟨execRead16_short hleft, execQhdr_noUnit hleft, ⟨_, execQstart_short hleft⟩, fun hlow => ?renorm⟩,
    fun k hready => execRawbits_notReady hready, fun nb hM hsym hready => execNbits_notReady hM hsym hready,
    fun m sym hscript hphase hselect hM hsym hready => ?symbol⟩
  case renorm => exact execRenorm_notReady (not_or.mpr ⟨hlow.not_ge, hleft.not_ge⟩)
  case symbol =>
    obtain ⟨f, hfetch⟩ := fetch_bodySymbol hphase hselect
    exact step_symbol_failed hscript hfetch (decodeAndRenorm_notReady hM hsym hready)

end Sys2Proof.Proofs
end

section
/-! PROOFS. Hardware reset (70_reset_and_hazards.md R280): the host event as a step, and what it keeps of the two spaces in each of its
two cases, a reset during BUSY and any other (O7). -/

namespace Sys2Proof.Machine

variable {P : Parameters} {s : State} {rest : List HostEvent}

/-! ### What every hardware reset leaves -/

/-- A pending reset happens in every phase; it is never refused (R280). -/
theorem step_hwReset (hs : s.hostScript = .hwReset :: rest) :
    step s = .next (hardwareReset Params.default { s with hostScript := rest }) := step_host hs

@[simp] theorem hardwareReset_phase (P : Parameters) (s : State) : (hardwareReset P s).phase = .idle := rfl

@[simp] theorem hardwareReset_failCause (P : Parameters) (s : State) : (hardwareReset P s).failCause = .none := rfl

@[simp] theorem hardwareReset_inMem (P : Parameters) (s : State) : (hardwareReset P s).inMem = s.inMem := by
  unfold hardwareReset
  split <;> rfl

@[simp] theorem hardwareReset_hostScript (P : Parameters) (s : State) : (hardwareReset P s).hostScript = s.hostScript := by
  unfold hardwareReset
  split <;> rfl

/-! ### OUT after a hardware reset -/

/-- During BUSY a reset does to OUT what `forgetOut` does (R280, R72). -/
theorem outValue_hardwareReset_busy (a : Nat) (h : busy s = true) :
    outValue (hardwareReset P s) a = outValue (forgetOut s) a := by
  unfold hardwareReset
  rw [if_pos h]
  rfl

/-- OUT stays the host's in a reset of a block that is not BUSY (R46, log 28). -/
theorem hardwareReset_out_idle (h : busy s = false) :
    (hardwareReset P s).outMem = s.outMem ∧ (hardwareReset P s).outForgotten = s.outForgotten := by
  simp [hardwareReset, h]

/-- A byte of OUT is a new free value after a reset during BUSY (R280, log 4). -/
theorem outValue_hardwareReset_inside {a : Nat} (h : busy s = true) (ha : a < s.decompSize.toNat) :
    outValue (hardwareReset P s) a = Config.freeOutByte (outEpoch s a + 1) a := by
  rw [outValue_hardwareReset_busy a h, outValue_forgetOut, if_pos ha]

/-- A byte outside OUT survives every reset (R69, R280). -/
theorem outValue_hardwareReset_outside {a : Nat} (ha : s.decompSize.toNat ≤ a) :
    outValue (hardwareReset P s) a = outValue s a := by
  cases h : busy s with
  | true => rw [outValue_hardwareReset_busy a h, outValue_forgetOut, if_neg (not_lt.mpr ha)]
  | false =>
    obtain ⟨hmem, hforgotten⟩ := hardwareReset_out_idle (P := P) h
    rw [outValue, outValue, outEpoch, outEpoch, hmem, hforgotten]

end Sys2Proof.Machine

namespace Sys2Proof.Proofs

open Sys2Proof.Machine

/-- Settles O7: the registers are those of every reset; OUT is told apart by BUSY and by DECOMP_SIZE. -/
theorem hardwareResetAbandonsDecode : Obligations.HardwareResetAbandonsDecode := by
  intro s rest hs
  exact ⟨_, step_hwReset hs, hardwareReset_phase _ _, hardwareReset_failCause _ _, rfl, hardwareReset_inMem _ _,
    hardwareReset_hostScript _ _, fun hbusy _ ha => outValue_hardwareReset_inside hbusy ha,
    fun _ ha => outValue_hardwareReset_outside ha, fun hidle => hardwareReset_out_idle hidle⟩

end Sys2Proof.Proofs
end
